-- ==== Sys2Proof/Word.lean ====
section
/-! DEFINITION. The word types of the BD2WAV decode block: bytes of the blob, residual nibbles, PCM samples, the
32-bit intermediate of the sign extension, and the fields of a 16-byte frame (30_encoding.md R72). -/

namespace Sys2Proof

/-- A byte of the blob (00_scope.md section 5). -/
abbrev Byte := BitVec 8

/-- A nibble: a residual, the shift field or the predictor field (R72). -/
abbrev Nib := BitVec 4

/-- The 16-bit widened residual of R141. -/
abbrev Word16 := BitVec 16

/-- The 32-bit intermediate of the sign extension and the arithmetic shift (R142, R143). -/
abbrev Word32 := BitVec 32

/-- A PCM sample: signed 16-bit two's complement (R56). -/
abbrev Sample := BitVec 16

/-- The fields of a frame as R72 lays them out: header nibbles, flag byte, 28 residuals in sample order. -/
structure Frame where
  /-- `F[0][3:0]`, the right-shift amount (R74) -/
  shift : Nib
  /-- `F[0][7:4]`, the raw predictor nibble, not yet clamped (R74) -/
  pnib : Nib
  /-- `F[1]`, the flag byte (R76) -/
  flag : Byte
  /-- the residuals `res[0]` to `res[27]`, unsigned as unpacked (R77) -/
  res : Vector Nib 28
  deriving DecidableEq, Repr

end Sys2Proof
end

