-- ==== Sys2Proof/Config.lean ====
section
/-! DEFINITION. What an implementation fixes (00_scope.md R8, R9, R10; 92_eei_decisions.md, "Parameters left open").
The sizes are constants. `COEF` with `NUM`, and the step granularity, are the fields of `Config`, a plain datum that
`State` carries and no step writes: a claim about every state is a claim about every `COEF` and both `NUM`. -/

namespace Sys2Proof

namespace Size

/-- `ROW_BYTES` (R8): length of a full row. -/
@[simp] abbrev rowBytes : Nat := 16
/-- `FRAME_BYTES` (R8): length of a frame. -/
@[simp] abbrev frameBytes : Nat := 16
/-- `DATA_BYTES` (R8): residual bytes of a frame. -/
@[simp] abbrev dataBytes : Nat := 14
/-- `SPF` (R8): samples of a frame. -/
@[simp] abbrev spf : Nat := 28
/-- `WIDEN_SHIFT` (R8): left shift that places a residual in the top nibble of a 16-bit word. -/
@[simp] abbrev widenShift : Nat := 12
/-- `NCOEF` (R8): coefficient pairs. -/
@[simp] abbrev ncoef : Nat := 5
/-- `PRED_MAX` (R8): largest predictor index. -/
@[simp] abbrev predMax : Nat := 4
/-- `SENTINEL` (R8): the flag byte that ends a clip. -/
@[simp] abbrev sentinel : Byte := 7#8
/-- `PCM_MIN` (R8). -/
@[simp] abbrev pcmMin : Int := -32768
/-- `PCM_MAX` (R8). -/
@[simp] abbrev pcmMax : Int := 32767
/-- `PCM_BITS` (R8). -/
@[simp] abbrev pcmBits : Nat := 16
/-- `CHANNELS` (R8). -/
@[simp] abbrev channels : Nat := 1

end Size

/-- `NUM` (R10): the numeric domain of the filter. -/
inductive NumDomain where
  /-- IEEE 754 binary64, one rounding to nearest, ties to even, per operation (R149) -/
  | binary64
  /-- rational arithmetic with no rounding (R150) -/
  | exact
  deriving DecidableEq, Repr

/-- Step granularity (92_eei_decisions.md D28): a `DEC` frame is one step, or an unpack step and 28 `SMP` steps. -/
inductive Grain where
  | perFrame
  | perSample
  deriving DecidableEq, Repr

/-- A finite value of `NUM` (R148): the rational it is, and the one value of binary64 that is no other rational. -/
inductive NumVal where
  /-- the value `q`, `+0.0` for zero -/
  | ofRat (q : Rat)
  /-- `-0.0` of binary64 (R149, R157) -/
  | negZero
  deriving DecidableEq, Repr

/-- A finite IEEE 754 binary64 datum by its fields (R149). The biased exponent 2047 of infinities and NaN is left out by
the type, as R208 requires of an entry of `COEF`. -/
structure Binary64 where
  sign : Bool
  exponent : Fin 2047
  fraction : BitVec 52
  deriving DecidableEq, Repr

/-- One pair `(c0, c1)` of the coefficient table (R26). -/
structure CoefPair (α : Type) where
  c0 : α
  c1 : α
  deriving DecidableEq, Repr

/-- `NUM` with entries 1 to 4 of `COEF`: pairs of values of that domain and no others (R9). Entry 0 is no field, since R9
fixes it. -/
inductive CoefTable where
  | binary64 (e1 e2 e3 e4 : CoefPair Binary64)
  | exact (e1 e2 e3 e4 : CoefPair Rat)
  deriving DecidableEq, Repr

/-- The configuration of the block: constant during a run (R26, R36). -/
structure Config where
  table : CoefTable
  grain : Grain
  deriving DecidableEq, Repr

/-- `NUM` (R10). -/
def Config.num (cfg : Config) : NumDomain :=
  match cfg.table with
  | .binary64 _ _ _ _ => .binary64
  | .exact _ _ _ _ => .exact

/-- The defaults the spec recommends: `NUM = binary64` (R149) and the table of R152, here 15/16 and 0, 115/64 and -13/16,
49/32 and -55/64, 61/32 and -15/16. PRESUMED: R152's entries 1 to 4 are marked there as general knowledge, not in source
(log entry 1). No statement rests on them. -/
def Config.recommended : Config :=
  { table := .binary64
      ⟨⟨false, 1022, 0xE000000000000#52⟩, ⟨false, 0, 0#52⟩⟩
      ⟨⟨false, 1023, 0xCC00000000000#52⟩, ⟨true, 1022, 0xA000000000000#52⟩⟩
      ⟨⟨false, 1023, 0x8800000000000#52⟩, ⟨true, 1022, 0xB800000000000#52⟩⟩
      ⟨⟨false, 1023, 0xE800000000000#52⟩, ⟨true, 1022, 0xE000000000000#52⟩⟩
    grain := .perFrame }

/-- `HD_TAG_ORDER` (R173): byte order of the 32-bit tag read in the hd index. Host side. -/
inductive TagOrder where
  | little
  | big
  deriving DecidableEq, Repr

/-- `HD_BOUNDS` (R179): what the host does on an out-of-range or negative entry of the hd table. Host side. -/
inductive HdBounds where
  | refuse
  | emptyWithWarning
  deriving DecidableEq, Repr

/-- The host's parameters (R173, R179, R182, R187). -/
structure HostConfig where
  tagOrder : TagOrder
  bounds : HdBounds
  defaultRate : Nat
  overrideRate : Option Nat
  deriving DecidableEq, Repr

/-- The host defaults of 92_eei_decisions.md: little-endian tag, refuse, 32000 Hz, no override. -/
def HostConfig.nominal : HostConfig :=
  { tagOrder := .little, bounds := .refuse, defaultRate := 32000, overrideRate := none }

end Sys2Proof
end

