-- ==== Sys2Proof/Syntax.lean ====
section
/-! DEFINITION. The operations of the block, one constructor per row of spec/opcode_table.json, in the table's order.
An operation carries exactly the operands its rule names. -/

namespace Sys2Proof

/-- The eight operations of 30_encoding.md R83. -/
inductive Instr where
  /-- `DELIM` (R102): a row of `n` zero bytes -/
  | delim (n : Nat)
  /-- `DATA` (R103): a row that is not all zero, carried verbatim -/
  | data (row : List Byte)
  /-- `FLUSH` (R104): the end of the blob -/
  | flush
  /-- `CLIPSTART` (R121): begin clip `i` -/
  | clipstart (i : Nat)
  /-- `TAIL` (R127): fewer than 16 bytes of the clip remain -/
  | tail
  /-- `END` (R124): a frame whose flag is 7, its header nibbles are latched by R123 and its residuals never unpacked -/
  | endClip (shift pnib : Nib)
  /-- `DEC` (R125, R126): a frame whose flag is not 7 -/
  | dec (f : Frame)
  /-- `SMP` (R140): one residual in, one sample out -/
  | smp (n : Nib)
  deriving DecidableEq, Repr

end Sys2Proof
end

