-- ==== Sys2Proof/WellFormed.lean ====
section
/-! DEFINITION. Which operations some unit of a blob can select: row lengths (R71), the zero test (R80) and the flag
test (R81). -/

namespace Sys2Proof

/-- A row has 1 to 16 bytes (R71, R80). -/
def rowLengthOk (n : Nat) : Bool := decide (1 ≤ n) && decide (n ≤ Size.rowBytes)

/-- The operands an encoding of the operation can carry. -/
def Instr.wellFormed : Instr → Bool
  | .delim n => rowLengthOk n
  | .data row => rowLengthOk row.length && row.any (· != 0#8)
  | .flush => true
  | .clipstart _ => true
  | .tail => true
  | .endClip _ _ => true
  | .dec f => f.flag != Size.sentinel
  | .smp _ => true

end Sys2Proof
end

