-- ==== Sys2Proof/Decode.lean ====
section
/-! DEFINITION. Formats, field extraction, the operation map R83 as a total decoder, and the encoder written from the
same tables. What is decoded is the unit standing at the block's cursor: a row, the start of a clip, the rest of a clip
or a residual (R80, R81, R82). -/

namespace Sys2Proof

/-- The low nibble `v[3:0]` of a byte (00_scope.md section 5). -/
def loNib (b : Byte) : Nib := b.extractLsb' 0 4

/-- The high nibble `v[7:4]` of a byte. -/
def hiNib (b : Byte) : Nib := b.extractLsb' 4 4

/-- The byte with the given low and high nibble. -/
def packNibs (lo hi : Nib) : Byte := hi ++ lo

/-- The zero test of R80: every byte of the row equals 0, whatever its length (R109). -/
def isZeroRow (row : List Byte) : Bool := row.all (· == 0#8)

/-- The sentinel test of R76: the whole flag byte equals 7. -/
def isSentinel (flag : Byte) : Bool := flag == Size.sentinel

/-- Residual `i` of the frame bytes `F` (R77): `res[2k] = F[2+k] mod 16`, `res[2k+1] = floor(F[2+k] / 16)`. -/
def residualAt (F : List Byte) (i : Nat) : Nib :=
  if i % 2 = 0 then loNib (F.getD (2 + i / 2) 0#8) else hiNib (F.getD (2 + i / 2) 0#8)

/-- The fields of the 16 frame bytes `F` (R72, R74, R76, R77). -/
def frameOfBytes (F : List Byte) : Frame :=
  { shift := loNib (F.getD 0 0#8)
    pnib := hiNib (F.getD 0 0#8)
    flag := F.getD 1 0#8
    res := Vector.ofFn fun i : Fin 28 => residualAt F i.val }

/-- The 16 bytes of a frame with the given fields (R72, R90). -/
def bytesOfFrame (f : Frame) : List Byte :=
  packNibs f.shift f.pnib :: f.flag ::
    List.ofFn fun k : Fin 14 => packNibs (f.res[2 * k.val]) (f.res[2 * k.val + 1])

/-- A unit of the input as the block's cursors present it (R80 to R83). -/
inductive Fetched where
  /-- the row at `RPOS`, empty at the end of the blob -/
  | row (bytes : List Byte)
  /-- the start of clip `i` -/
  | clip (i : Nat)
  /-- the bytes of the clip from `FPOS` to its end -/
  | frame (rest : List Byte)
  /-- the residual `NIB[K]` of the frame being decoded -/
  | residual (n : Nib)
  deriving DecidableEq, Repr

/-- Why a unit has no decoding. No unit the block fetches meets it: R71 bounds a row by 16 bytes. -/
inductive DecodeError where
  /-- a row of more than 16 bytes is no row (R71) -/
  | rowTooLong
  deriving DecidableEq, Repr

/-- CDX's classifier (R80, R82): end of input, zero row, other row. -/
def decodeRow (row : List Byte) : Except DecodeError Instr :=
  if row.length = 0 then .ok .flush
  else if Size.rowBytes < row.length then .error .rowTooLong
  else if isZeroRow row then .ok (.delim row.length)
  else .ok (.data row)

/-- AFD's classifier (R81): the length test, then the flag test (R204). -/
def decodeFrame (rest : List Byte) : Instr :=
  if rest.length < Size.frameBytes then .tail
  else
    let f := frameOfBytes (rest.take Size.frameBytes)
    if isSentinel f.flag then .endClip f.shift f.pnib else .dec f

/-- The operation map of R83. -/
def decode : Fetched → Except DecodeError Instr
  | .row bytes => decodeRow bytes
  | .clip i => .ok (.clipstart i)
  | .frame rest => .ok (decodeFrame rest)
  | .residual n => .ok (.smp n)

/-- The unit that selects an operation, don't-care bits of an `END` frame (R87) being 0 as in R91. -/
def encode : Instr → Fetched
  | .delim n => .row (List.replicate n 0#8)
  | .data row => .row row
  | .flush => .row []
  | .clipstart i => .clip i
  | .tail => .frame []
  | .endClip shift pnib =>
    .frame (packNibs shift pnib :: Size.sentinel :: List.replicate Size.dataBytes 0#8)
  | .dec f => .frame (bytesOfFrame f)
  | .smp n => .residual n

/-- The bytes of an operation that is selected by bits (R80, R81): none for one selected by position (R82). -/
def encodeBytes (i : Instr) : List Byte :=
  match encode i with
  | .row bytes => bytes
  | .frame bytes => bytes
  | .clip _ => []
  | .residual _ => []

/-- The first `n` bytes of the word view (R73): byte `i` is `W[8i+7 : 8i]`. -/
def bytesOfWord : Nat → Nat → List Byte
  | 0, _ => []
  | n + 1, w => BitVec.ofNat 8 w :: bytesOfWord n (w / 256)

/-- The word view of a byte sequence (R73). -/
def wordOfBytes : List Byte → Nat
  | [] => 0
  | b :: bs => b.toNat + 256 * wordOfBytes bs

/-- Which unit a table word stands for, a DESIGN CHOICE (log entry 9): no bits, the end of the blob; a nibble (in one byte), a residual;
16 bits (header and flag, the rest zero) or 16 bytes, a row when all zero and a frame otherwise; any other number of whole
bytes below 16, a short row. -/
def fetchedOfWord (nbits w : Nat) : Option Fetched :=
  if 2 ^ nbits ≤ w then none
  else if nbits = 0 then some (.row [])
  else if nbits ≤ 8 then (if w < 16 then some (.residual (BitVec.ofNat 4 w)) else none)
  else if nbits = 16 ∨ nbits = 128 then
    (if w = 0 then some (.row (bytesOfWord 16 w)) else some (.frame (bytesOfWord 16 w)))
  else if nbits % 8 = 0 ∧ nbits < 128 then some (.row (bytesOfWord (nbits / 8) w))
  else none

/-- The decoder on a word numbered as spec/opcode_table.json numbers it (R73). -/
def decodeTableWord (nbits w : Nat) : Option Instr :=
  match fetchedOfWord nbits w with
  | none => none
  | some u =>
    match decode u with
    | .ok i => some i
    | .error _ => none

end Sys2Proof
end

