-- ==== Sys2Proof/Machine/State.lean ====
section
/-! DEFINITION. The state of the block (10_state.md R20), its reasons to stop, and its reset (R39, R221). Plain data. -/

namespace Sys2Proof.Machine

/-- Bytes by address: addresses strictly rising, and no entry holding `unlistedByte`. -/
abbrev Mem := List Host.Cell

/-- What an address of the blob that no cell lists reads as, a DESIGN CHOICE (log entry 4): zero bytes of the blob are not listed. -/
def unlistedByte : Byte := 0#8

/-- Where the block stands in the reference schedule R62: all of CDX, then AFD clip by clip. The position is the model's
own field: R20 names the cursors only. DESIGN CHOICE (log entry 3). -/
inductive Phase where
  /-- the row loop of R101, its `FLUSH` not yet performed -/
  | scan
  /-- clip `i` is about to begin (R121) -/
  | start (i : Nat)
  /-- the frame loop of R122 on clip `CIDX` -/
  | frames
  /-- inside a `DEC` frame: the 28 samples of R126, one step each -/
  | samples
  /-- the run is over (R224) -/
  | finished
  deriving DecidableEq, Repr

/-- The complete state (R20), with the blob (R50), the configuration (R26) and the schedule position. -/
structure State where
  /-- BD (R50): the listed bytes of the blob `B` -/
  bd : Mem
  /-- `L` (R51): the length of the blob -/
  len : Nat
  /-- `RPOS` (R27). DESIGN CHOICE: cursors and lengths are unbounded (log entry 12) -/
  rpos : Nat
  /-- `ACC` (R28) -/
  acc : List Byte
  /-- `ACC_NE` (R29) -/
  accNe : Bool
  /-- `CLIPS` (R30). DESIGN CHOICE: copies of the bytes (log entry 10) -/
  clips : List (List Byte)
  /-- `HIST1` (R21): a finite `NUM` value, a zero with its sign (R40) -/
  hist1 : NumVal
  /-- `HIST2` (R21) -/
  hist2 : NumVal
  /-- `SHIFT` (R22) -/
  shift : Nib
  /-- `PRED` (R23): 0 to 4 by its type -/
  pred : Fin 5
  /-- `FLAG` (R24) -/
  flag : Byte
  /-- `NIB[0..27]` (R25) -/
  nib : Vector Nib 28
  /-- `FPOS` (R31) -/
  fpos : Nat
  /-- `K` (R32) -/
  k : Nat
  /-- `HALT` (R33) -/
  halt : Bool
  /-- `CIDX` (R34) -/
  cidx : Nat
  /-- `PCM` (R35) -/
  pcm : List (List Sample)
  /-- the model's own: the position in the schedule R62 -/
  phase : Phase
  /-- `COEF`, `NUM` and the granularity (R9, R10, R26): read only. DESIGN CHOICE: held in the state (log entry 6) -/
  cfg : Config
  deriving DecidableEq, Repr

/-- Why a step stops. -/
inductive Fault where
  /-- `NonFiniteHistory` (R208): raised by `SMP`, alone or inside `DEC`, when `new` is no finite binary64 value.
  DESIGN CHOICE of the spec (log entry 14). Safe. -/
  | nonFiniteHistory
  /-- A read at or past the end of the blob: raised by the row fetch, though R52 says no such read occurs. Safe. -/
  | blobBounds
  /-- `CIDX` names no clip of `CLIPS`: raised by the frame fetch, only in states no run reaches.
  DESIGN CHOICE (log entry 7). Safe. -/
  | noSuchClip
  /-- `PCM[CIDX]` does not exist: raised by the append R54, only in states no run reaches.
  DESIGN CHOICE (log entry 7). Safe. -/
  | noOpenStream
  deriving DecidableEq, Repr

/-- Why a step has no meaning. -/
inductive Refusal where
  /-- An instruction without a meaning, by its mnemonic: raised by `exec`'s refused arms, of which there are none. Safe. -/
  | notModelled (mnemonic : String)
  /-- A row of more than 16 bytes: raised by `step` for a unit the decoder rejects, which the fetch never makes. Safe. -/
  | rowTooLong
  deriving DecidableEq, Repr

/-- Right after the run-start reset (R221, R39), no blob loaded yet. `RPOS`, `ACC`, `ACC_NE`, `CLIPS`, `PCM` and `CIDX` are
R39's values, every other register is one R39 calls unspecified and holds 0 by DESIGN CHOICE (log entry 2). -/
def State.reset : State :=
  { bd := []
    len := 0
    rpos := 0
    acc := []
    accNe := false
    clips := []
    hist1 := .ofRat 0
    hist2 := .ofRat 0
    shift := 0#4
    pred := 0
    flag := 0#8
    nib := Vector.replicate 28 0#4
    fpos := 0
    k := 0
    halt := false
    cidx := 0
    pcm := []
    phase := .scan
    cfg := Config.recommended }

end Sys2Proof.Machine
end

