-- ==== Sys2Proof/Machine/Ops.lean ====
section
/-! DEFINITION. The named operations over the three memory spaces (20_memory.md R50): byte reads of BD, the host's load
of a blob, the clip list, the PCM append; and the sequencing of outcomes. The block takes no trap and returns from none
(R205, R206): its one stop beside a next state is the numeric fault R208, raised in one place (`sample`). -/

namespace Sys2Proof.Machine

/-- One outcome of a step. -/
abbrev Result := Host.Outcome State Fault Refusal

/-- Go on from a next state, or stop as the first part stopped. -/
def andThen (o : Result) (go : State → Result) : Result :=
  match o with
  | .next s => go s
  | .fault r => .fault r
  | .refused r => .refused r

/-- The byte at an address, listed or not. -/
def Mem.read : Mem → Nat → Byte
  | [], _ => unlistedByte
  | (a, b) :: cells, x => if x = a then b else Mem.read cells x

/-- Store a byte, keeping the canonical form: a byte equal to `unlistedByte` leaves no cell. -/
def Mem.write : Mem → Nat → Byte → Mem
  | [], x, v => if v = unlistedByte then [] else [(x, v)]
  | (a, b) :: cells, x, v =>
    if x < a then (if v = unlistedByte then (a, b) :: cells else (x, v) :: (a, b) :: cells)
    else if x = a then (if v = unlistedByte then cells else (a, v) :: cells)
    else (a, b) :: Mem.write cells x v

/-- Store consecutive bytes. -/
def Mem.writeBytes (m : Mem) (x : Nat) : List Byte → Mem
  | [] => m
  | v :: vs => Mem.writeBytes (m.write x v) (x + 1) vs

/-- Every cell lies at or above `lo`, addresses rise strictly, and no cell holds `unlistedByte`. -/
def Mem.wfFrom (lo : Nat) : Mem → Bool
  | [] => true
  | (a, b) :: cells => decide (lo ≤ a) && b != unlistedByte && Mem.wfFrom (a + 1) cells

/-- The canonical form of a memory. -/
def Mem.wf (m : Mem) : Bool := Mem.wfFrom 0 m

/-- Every listed address is below `n`. -/
def Mem.below (n : Nat) (m : Mem) : Bool := m.all fun c => decide (c.1 < n)

/-- The cells of a byte sequence laid at `x`. -/
def Mem.ofBytes (x : Nat) : List Byte → Mem
  | [] => []
  | v :: vs => if v = unlistedByte then Mem.ofBytes (x + 1) vs else (x, v) :: Mem.ofBytes (x + 1) vs

/-- `MemRead(BD, a, 1)` (R52): defined for `0 <= a < L` only. -/
def memRead (s : State) (a : Nat) : Option Byte :=
  if a < s.len then some (s.bd.read a) else none

/-- `n` byte reads of BD at increasing offsets from `a` (R101). -/
def readBytes (s : State) (a : Nat) : Nat → Option (List Byte)
  | 0 => some []
  | n + 1 =>
    match memRead s a, readBytes s (a + 1) n with
    | some b, some bs => some (b :: bs)
    | _, _ => none

/-- The length of the row at `RPOS` (R71, R101). -/
def rowLength (s : State) : Nat := min Size.rowBytes (s.len - s.rpos)

/-- `RPOS <- RPOS + n` (R101). -/
def advanceRow (n : Nat) (s : State) : State := { s with rpos := s.rpos + n }

/-- `ACC <- ACC ++ R`, `ACC_NE <- 1` (R103). -/
def appendAcc (row : List Byte) (s : State) : State := { s with acc := s.acc ++ row, accNe := true }

/-- Emit a non-empty accumulator as one clip and reset it (R102, R104). An empty one emits nothing. -/
def closeAcc (s : State) : State :=
  { s with
    clips := if s.acc.length = 0 then s.clips else s.clips ++ [s.acc]
    acc := []
    accNe := false }

/-- `MemWrite(PCM, v)` (R54) on entry `i`: append at its end. An entry that does not exist has no end to append at. -/
def appendSample (pcm : List (List Sample)) (i : Nat) (v : Sample) : Option (List (List Sample)) :=
  match pcm[i]? with
  | some entry => some (pcm.set i (entry ++ [v]))
  | none => none

/-- `PCM[i] <- []` (R121). Entries before `i` that do not exist yet are empty, a DESIGN CHOICE (log entry 7). -/
def openStream (pcm : List (List Sample)) (i : Nat) : List (List Sample) :=
  if i < pcm.length then pcm.set i [] else pcm ++ List.replicate (i + 1 - pcm.length) []

/-- Move to another position of the schedule. -/
def setPhase (p : Phase) (s : State) : State := { s with phase := p }

/-- `FPOS <- FPOS + 16` (R126). -/
def advanceFrame (s : State) : State := { s with fpos := s.fpos + Size.frameBytes }

/-- The host starts a run on a blob (R221, R223): R39's run-start column, what it leaves unspecified kept as it was.
DESIGN CHOICE: the one move of a host, who writes no byte during a run (log entries 9 and 11). -/
def runStart (blob : List Byte) (s : State) : State :=
  { s with
    bd := Mem.ofBytes 0 blob
    len := blob.length
    rpos := 0
    acc := []
    accNe := false
    clips := []
    pcm := []
    cidx := 0
    phase := .scan }

end Sys2Proof.Machine
end

