-- ==== Sys2Proof/Machine/Flags.lean ====
section
/-! DEFINITION. The block's two flags and the two tests that set them (R29, R33). -/

namespace Sys2Proof.Machine

/-- `ACC_NE = (len(ACC) > 0)` (R29). -/
def accNonEmpty (acc : List Byte) : Bool := decide (0 < acc.length)

/-- `HALT <- v` (R33). -/
def setHalt (v : Bool) (s : State) : State := { s with halt := v }

/-- The length test of R122: at least 16 bytes of an `n`-byte clip remain at `fpos`. -/
def frameRemains (n fpos : Nat) : Bool := decide (Size.frameBytes ≤ n - fpos)

end Sys2Proof.Machine
end

