-- ==== Sys2Proof/Machine/Operands.lean ====
section
/-! DEFINITION. Operand assembly: the predictor clamp (R75), the integer front end of a sample (R141 to R143), and the
latching of a frame's fields (R123, R124, R125). -/

namespace Sys2Proof.Machine

/-- `PRED = min(pnib, 4)` (R75), a saturating minimum before indexing. -/
def clampPred (pnib : Nib) : Fin 5 := ⟨min pnib.toNat Size.predMax, Nat.lt_succ_of_le (Nat.min_le_right _ _)⟩

/-- `w = n * 4096` (R141): the residual in the top nibble of a 16-bit word. -/
def widen (n : Nib) : Word16 := n.zeroExtend 16 <<< Size.widenShift

/-- `s = sext_16(w)` in 32 bits (R142). -/
def signExtendWide (w : Word16) : Word32 := w.signExtend 32

/-- `asr(s, SHIFT)` (R143): a true arithmetic shift of the 32-bit value. -/
def arithShift (s : Word32) (shift : Nib) : Word32 := s.sshiftRight shift.toNat

/-- The raw value `t` of a residual (R78, R79, R143). -/
def rawValue (n shift : Nib) : Int := (arithShift (signExtendWide (widen n)) shift).toInt

/-- The header step (R123): `SHIFT` and `PRED` from byte 0. -/
def latchHeader (shift pnib : Nib) (s : State) : State :=
  { s with shift := shift, pred := clampPred pnib }

/-- `FLAG <- F[1]` (R124). -/
def latchFlag (flag : Byte) (s : State) : State := { s with flag := flag }

/-- The unpack step (R125): the 28 residuals, then `K <- 0`. -/
def latchResiduals (res : Vector Nib 28) (s : State) : State := { s with nib := res, k := 0 }

/-- The header, flag and unpack steps of a `DEC` frame, in order (R122). -/
def latchFrame (f : Frame) (s : State) : State :=
  latchResiduals f.res (latchFlag f.flag (latchHeader f.shift f.pnib s))

end Sys2Proof.Machine
end

