-- ==== Sys2Proof/Machine/Num.lean ====
section
/-! DEFINITION. The numeric domain `NUM` (R148 to R150), the coefficients (R9), the prediction (R145) and the output
conversion (R147). A finite value of either domain is held as the rational it is, a zero of binary64 with its sign, and
binary64 is the rounding of the exact result of each operation (R149). DEDUCED: the sign a zero result takes is that of
IEEE 754, which R149 names (log entry 5). -/

namespace Sys2Proof

/-- The number a value stands for. -/
def NumVal.value (x : NumVal) : Rat :=
  match x with
  | .ofRat q => q
  | .negZero => 0

/-- The sign bit of a value: `-0.0` has it, `+0.0` has not. -/
def NumVal.negative (x : NumVal) : Bool :=
  match x with
  | .ofRat q => decide (q < 0)
  | .negZero => true

end Sys2Proof

namespace Sys2Proof.Machine

/-- The quotient rounded to the nearest natural number, ties to even. -/
def divNearestEven (n d : Nat) : Nat :=
  let q := n / d
  let r := n % d
  if 2 * r < d then q
  else if d < 2 * r then q + 1
  else if q % 2 = 0 then q else q + 1

/-- For positive `n` and `d`, the greatest `l` with `2 ^ l <= n / d`. -/
def floorLog2 (n d : Nat) : Int :=
  let l : Int := (n.log2 : Int) - (d.log2 : Int)
  if d * 2 ^ l.toNat ≤ n * 2 ^ (-l).toNat then l else l - 1

/-- The exponent of the last place of a binary64 value near `n / d`: 53 significant bits, none below `2 ^ -1074`. -/
def lastPlace (n d : Nat) : Int := max (floorLog2 n d - 52) (-1074)

/-- `m * 2 ^ e`. -/
def scaled (m : Nat) (e : Int) : Rat :=
  if 0 ≤ e then ((m * 2 ^ e.toNat : Nat) : Rat) else (m : Rat) / ((2 ^ (-e).toNat : Nat) : Rat)

/-- The binary64 magnitude nearest to `n / d`, overflow not yet considered. -/
def roundMagnitude (n d : Nat) : Rat :=
  let e := lastPlace n d
  scaled (divNearestEven (n * 2 ^ (-e).toNat) (d * 2 ^ e.toNat)) e

/-- IEEE 754 round to nearest, ties to even, into binary64 (R149): none when the result would be infinite. -/
def round64 (q : Rat) : Option Rat :=
  if q.num = 0 then some 0
  else
    let m := roundMagnitude q.num.natAbs q.den
    if ((2 ^ 1024 : Nat) : Rat) ≤ m then none
    else if q.num < 0 then some (-m) else some m

/-- The rounding of one operation of `NUM`: none is taken in the exact domain (R149, R150). -/
def roundNum (d : NumDomain) (q : Rat) : Option Rat :=
  match d with
  | .binary64 => round64 q
  | .exact => some q

/-- The value `q` with the sign `neg` should it be a zero. The exact domain has one zero. -/
def withSign (d : NumDomain) (neg : Bool) (q : Rat) : NumVal :=
  match d with
  | .binary64 => if q = 0 ∧ neg = true then .negZero else .ofRat q
  | .exact => .ofRat q

/-- `a (+) b` (R148). A sum that is zero is `-0.0` only where both terms have the sign bit. -/
def addNum (d : NumDomain) (a b : NumVal) : Option NumVal :=
  (roundNum d (a.value + b.value)).map (withSign d (a.negative && b.negative))

/-- `a (*) b` (R148). The sign bit is that of one factor alone. -/
def mulNum (d : NumDomain) (a b : NumVal) : Option NumVal :=
  (roundNum d (a.value * b.value)).map (withSign d (a.negative ^^ b.negative))

/-- `num(t)` (R144): exact in both domains, `num(0)` positive (R40). -/
def ofInt (t : Int) : NumVal := .ofRat t

/-- The value of a binary64 datum: `fraction * 2^-1074` below the normal range, else `(2^52 + fraction) * 2^(exponent - 1075)`,
with its sign. -/
def ofBinary64 (b : Binary64) : NumVal :=
  let m :=
    if b.exponent.val = 0 then scaled b.fraction.toNat (-1074)
    else scaled (2 ^ 52 + b.fraction.toNat) ((b.exponent.val : Int) - 1075)
  withSign .binary64 b.sign (if b.sign then -m else m)

/-- A pair with both entries converted. -/
def mapPair (f : α → NumVal) (c : CoefPair α) : CoefPair NumVal := ⟨f c.c0, f c.c1⟩

/-- Entry `p` of a table whose entry 0 is `(0, 0)` (R9). -/
def coefEntry (f : α → NumVal) (e1 e2 e3 e4 : CoefPair α) (p : Fin 5) : CoefPair NumVal :=
  match p with
  | 0 => ⟨ofInt 0, ofInt 0⟩
  | 1 => mapPair f e1
  | 2 => mapPair f e2
  | 3 => mapPair f e3
  | 4 => mapPair f e4

end Sys2Proof.Machine

namespace Sys2Proof

/-- `COEF[p]` (R9, R26): a pair of values of `NUM`. -/
def Config.coef (cfg : Config) (p : Fin 5) : CoefPair NumVal :=
  match cfg.table with
  | .binary64 e1 e2 e3 e4 => Machine.coefEntry Machine.ofBinary64 e1 e2 e3 e4 p
  | .exact e1 e2 e3 e4 => Machine.coefEntry NumVal.ofRat e1 e2 e3 e4 p

end Sys2Proof

namespace Sys2Proof.Machine

/-- `new = (raw (+) (HIST1 (*) c0)) (+) (HIST2 (*) c1)` (R145), in the order of R149. None when `new` is not finite
(R208). DEDUCED: an infinite part makes every later part infinite or NaN (log entry 15). -/
def predict (d : NumDomain) (raw hist1 hist2 : NumVal) (c : CoefPair NumVal) : Option NumVal :=
  (mulNum d hist1 c.c0).bind fun p0 =>
    (addNum d raw p0).bind fun a =>
      (mulNum d hist2 c.c1).bind fun p1 => addNum d a p1

/-- Clamp into the 16-bit range (R147, first half). -/
def clampPcm (x : Rat) : Rat :=
  if x < (Size.pcmMin : Rat) then (Size.pcmMin : Rat)
  else if (Size.pcmMax : Rat) < x then (Size.pcmMax : Rat) else x

/-- `trunc(x)`: the integer part, toward zero (R147, second half). -/
def truncRat (x : Rat) : Int := x.num.tdiv x.den

/-- `to_pcm(x)` (R147): clamp, then truncate. The sign of a zero plays no part (R157). -/
def toPcm (x : Rat) : Sample := BitVec.ofInt 16 (truncRat (clampPcm x))

end Sys2Proof.Machine
end

