-- ==== Sys2Proof/Machine/Afd.lean ====
section
/-! DEFINITION. AFD, the frame decoder: `CLIPSTART`, `TAIL`, `END`, `DEC` (41_afd_frame_operations.md) and the
micro-operation `SMP` (42_afd_sample_datapath.md). -/

namespace Sys2Proof.Machine

/-- What `SMP` writes beside the sample's stream (R146, R140): `HIST2 <- HIST1`, `HIST1 <- new`, `K <- K + 1`. -/
def putSample (new : NumVal) (pcm : List (List Sample)) (s : State) : State :=
  { s with hist2 := s.hist1, hist1 := new, pcm := pcm, k := s.k + 1 }

/-- The five sub-steps of one sample (R140): raw value, prediction, update, emit. The numeric fault R208 is raised here. -/
def sample (n : Nib) (s : State) : Result :=
  match predict s.cfg.num (ofInt (rawValue n s.shift)) s.hist1 s.hist2 (s.cfg.coef s.pred) with
  | none => .fault .nonFiniteHistory
  | some new =>
    match appendSample s.pcm s.cidx (toPcm new.value) with
    | none => .fault .noOpenStream
    | some pcm => .next (putSample new pcm s)

/-- The samples of a list of residuals, in order (R126). -/
def sampleAll : List Nib → State → Result
  | [], s => .next s
  | n :: ns, s => andThen (sample n s) (sampleAll ns)

/-- `CLIPSTART(i)` (R121). Both history registers become `+0.0` (R40). -/
def execClipstart (i : Nat) (s : State) : Result :=
  .next { s with
    cidx := i
    hist1 := ofInt 0
    hist2 := ofInt 0
    fpos := 0
    halt := false
    pcm := openStream s.pcm i }

/-- `TAIL` (R127): reads nothing, writes nothing. -/
def execTail (s : State) : Result := .next s

/-- `END` (R123, R124): header and flag are latched, `HALT <- 1`, nothing else is touched. -/
def execEnd (shift pnib : Nib) (s : State) : Result :=
  .next (setHalt true (latchFlag Size.sentinel (latchHeader shift pnib s)))

/-- `DEC` (R125, R126): unpack, the 28 samples, `FPOS <- FPOS + 16`. DEDUCED: `K` is then 28 (log entry 16). -/
def execDec (f : Frame) (s : State) : Result :=
  andThen (sampleAll f.res.toList (latchFrame f s)) fun t => .next (advanceFrame t)

/-- `SMP(n)` (R140). -/
def execSmp (n : Nib) (s : State) : Result := sample n s

end Sys2Proof.Machine
end

