-- ==== Sys2Proof/Machine/Cdx.lean ====
section
/-! DEFINITION. CDX, the clip demultiplexer: `DELIM`, `DATA`, `FLUSH` (40_cdx_row_operations.md). -/

namespace Sys2Proof.Machine

/-- `DELIM` (R102): a zero row of `n` bytes closes the clip being formed or is ignored, then `RPOS <- RPOS + n` (R101). -/
def execDelim (n : Nat) (s : State) : Result := .next (advanceRow n (closeAcc s))

/-- `DATA` (R103): the row is appended verbatim, then `RPOS <- RPOS + len(R)` (R101). -/
def execData (row : List Byte) (s : State) : Result := .next (advanceRow row.length (appendAcc row s))

/-- `FLUSH` (R104): a clip still being formed is emitted. -/
def execFlush (s : State) : Result := .next (closeAcc s)

end Sys2Proof.Machine
end

