-- ==== Sys2Proof/Machine/Dispatch.lean ====
section
/-! DEFINITION. One arm per operation: the meaning it calls. -/

namespace Sys2Proof.Machine

def exec (i : Instr) (s : State) : Host.Outcome State Fault Refusal :=
  match i with
  | .delim n => Sys2Proof.Machine.execDelim n s
  | .data row => Sys2Proof.Machine.execData row s
  | .flush => Sys2Proof.Machine.execFlush s
  | .clipstart c => Sys2Proof.Machine.execClipstart c s
  | .tail => Sys2Proof.Machine.execTail s
  | .endClip shift pnib => Sys2Proof.Machine.execEnd shift pnib s
  | .dec f => Sys2Proof.Machine.execDec f s
  | .smp n => Sys2Proof.Machine.execSmp n s

end Sys2Proof.Machine
end

