-- ==== Sys2Proof/Machine/Fetch.lean ====
section
/-! DEFINITION. Which unit stands at the block's cursor, and how a unit is placed there. -/

namespace Sys2Proof.Machine

/-- What the schedule position presents to the decoder. -/
inductive Presented where
  /-- a unit to decode -/
  | item (u : Fetched)
  /-- no unit: the loop test alone decides, and the position becomes `p` after `FPOS` moves on if `done` says so -/
  | move (done : Bool) (p : Phase)
  /-- no unit: the run is over (R224) -/
  | idle
  /-- the access of R52 or R53 does not exist -/
  | broken (r : Fault)
  deriving DecidableEq, Repr

/-- The position after a clip, or after the scan: clip `i` if there is one, else the end of the run (R128, R224). -/
def nextClip (clips : List (List Byte)) (i : Nat) : Phase :=
  if i < clips.length then .start i else .finished

/-- The row at `RPOS`, or the end of the blob (R101). -/
def fetchRow (s : State) : Presented :=
  if s.rpos < s.len then
    match readBytes s s.rpos (rowLength s) with
    | some row => .item (.row row)
    | none => .broken .blobBounds
  else .item (.row [])

/-- What stands at `FPOS` of clip `CIDX`: the loop test of R122 on `HALT` comes first, then the bytes that remain. -/
def fetchFrame (s : State) : Presented :=
  if s.halt then .move false (nextClip s.clips (s.cidx + 1))
  else
    match s.clips[s.cidx]? with
    | some clip => .item (.frame (clip.drop s.fpos))
    | none => .broken .noSuchClip

/-- The residual `NIB[K]`. At `K = 28` the frame's samples are done (R32) and `FPOS` moves on (R126). -/
def fetchResidual (s : State) : Presented :=
  if h : s.k < 28 then .item (.residual s.nib[s.k]) else .move true .frames

/-- The unit the next step decodes (R82, R83). -/
def fetch (s : State) : Presented :=
  match s.phase with
  | .scan => fetchRow s
  | .start i => .item (.clip i)
  | .frames => fetchFrame s
  | .samples => fetchResidual s
  | .finished => .idle

/-- Lay bytes over a list from an offset, filling a gap with zero bytes. -/
def overlay (old : List Byte) (at_ : Nat) (bytes : List Byte) : List Byte :=
  (old ++ List.replicate (at_ - old.length) 0#8).take at_ ++ bytes ++ old.drop (at_ + bytes.length)

/-- The list with its entry `i` replaced, filled up with `fill` as far as needed. -/
def putEntry (l : List (List α)) (i : Nat) (v : List α) : List (List α) :=
  (l ++ List.replicate (i + 1 - l.length) []).set i v

/-- Place a row at `RPOS`: a full row lets the blob go on after it, a short row (or none) ends the blob (R71). -/
def placeRow (bytes : List Byte) (s : State) : State :=
  let stop := s.rpos + bytes.length
  let stop := if bytes.length = Size.rowBytes then max s.len stop else stop
  { s with
    bd := (s.bd.writeBytes s.rpos bytes).filter fun c => decide (c.1 < stop)
    len := stop
    phase := .scan }

/-- Place a frame at `FPOS` of clip `CIDX`, AFD being in its frame loop on that clip with its stream open (R122). -/
def placeFrame (bytes : List Byte) (s : State) : State :=
  { s with
    clips := putEntry s.clips s.cidx (overlay (s.clips.getD s.cidx []) s.fpos bytes)
    pcm := putEntry s.pcm s.cidx (s.pcm.getD s.cidx [])
    halt := false
    phase := .frames }

/-- Place a residual at `NIB[K]`, the samples of a frame being under way with the clip's stream open (R126). -/
def placeResidual (n : Nib) (s : State) : State :=
  let k := if s.k < 28 then s.k else 0
  { s with
    k := k
    nib := s.nib.setIfInBounds k n
    pcm := putEntry s.pcm s.cidx (s.pcm.getD s.cidx [])
    phase := .samples }

/-- Place a unit where the next step fetches it. DESIGN CHOICE (log entry 9). -/
def place (u : Fetched) (s : State) : State :=
  match u with
  | .row bytes => placeRow bytes s
  | .clip i => { s with phase := .start i }
  | .frame bytes => placeFrame bytes s
  | .residual n => placeResidual n s

end Sys2Proof.Machine
end

