-- ==== Sys2Proof/Machine/Sequencer.lean ====
section
/-! DEFINITION. What a step adds around `exec`: the granularity of a `DEC` frame (92_eei_decisions.md D28) and the next
position of the schedule (R62, R101, R122, R128). DESIGN CHOICE: the reference schedule only (log entry 13). -/

namespace Sys2Proof.Machine

/-- A frame completed sample by sample: `FPOS <- FPOS + 16` (R126) and back to the frame loop. -/
def closeFrame (s : State) : State := setPhase .frames (advanceFrame s)

/-- A `DEC` frame begun sample by sample: the unpack of R125, its 28 `SMP` steps to follow. -/
def openFrame (f : Frame) (s : State) : State := setPhase .samples (latchFrame f s)

/-- Run the operation: `exec`, but for a `DEC` frame taken sample by sample. -/
def issue (i : Instr) (s : State) : Result :=
  match s.cfg.grain, i with
  | .perSample, .dec f => .next (openFrame f s)
  | .perSample, i => exec i s
  | .perFrame, i => exec i s

/-- The position after an operation, in the state it left. -/
def sequence (i : Instr) (s : State) : State :=
  match i with
  | .delim _ => s
  | .data _ => s
  | .flush => setPhase (nextClip s.clips 0) s
  | .clipstart _ => setPhase .frames s
  | .tail => setPhase (nextClip s.clips (s.cidx + 1)) s
  | .endClip _ _ => setPhase (nextClip s.clips (s.cidx + 1)) s
  | .dec _ => s
  | .smp _ => if s.k < 28 then s else closeFrame s

/-- Decode a unit and run it. -/
def runUnit (u : Fetched) (s : State) : Result :=
  match decode u with
  | .error _ => .refused .rowTooLong
  | .ok i => andThen (issue i s) fun t => .next (sequence i t)

/-- A step without a unit: the loop test ends the clip, or the samples of a frame are done. -/
def moveOn (done : Bool) (p : Phase) (s : State) : State :=
  setPhase p (if done then advanceFrame s else s)

/-- One step on what is presented. A run that is over stays as it is until the host starts another (R203, R224).
DESIGN CHOICE (log entry 8). -/
def act (p : Presented) (s : State) : Result :=
  match p with
  | .item u => runUnit u s
  | .move done q => .next (moveOn done q s)
  | .idle => .next s
  | .broken r => .fault r

end Sys2Proof.Machine
end

