-- ==== Sys2Proof/Machine/Step.lean ====
section
/-! DEFINITION. One step of the block, and the placing of a table word where the next step fetches. -/

namespace Sys2Proof.Machine

/-- Fetch, decode, run, move on (R62, R101, R122). -/
def step (s : State) : Host.Outcome State Fault Refusal := act (fetch s) s

/-- `s` with the unit of a table word placed where `step` fetches next. DESIGN CHOICE (log entry 9). -/
def State.withFetchWord (s : State) (nbits w : Nat) : State :=
  match fetchedOfWord nbits w with
  | none => s
  | some u => place u s

end Sys2Proof.Machine
end

