-- ==== Sys2Proof/Machine/Run.lean ====
section
/-! DEFINITION. A run of the block on a blob, from its start to its end (R221, R224). -/

namespace Sys2Proof.Machine

/-- `k` steps, stopping at the first fault or refusal. -/
def runSteps : Nat → State → Result
  | 0, s => .next s
  | k + 1, s => andThen (step s) (runSteps k)

/-- Steps within which a run on `n` bytes is over (R68, R233): 40 for each row, the `FLUSH` and one more. A run that is
over earlier stays as it is (log entry 8). -/
def runBound (n : Nat) : Nat := 40 * ((n + 15) / 16) + 2

/-- The block's whole run on a blob (R62, R224): split, then decode each clip. -/
def runBlob (blob : List Byte) (s : State) : Result := runSteps (runBound blob.length) (runStart blob s)

end Sys2Proof.Machine
end

