-- ==== Sys2Proof/Machine/Collaborators.lean ====
section
/-! DEFINITION. The host-side software of 45_host_collaborators.md: hd index reader, sample-rate reconciler, orchestrator.
R170: no part of the block; no step of the machine calls any of it. The orchestrator runs the block and reads its output. DESIGN CHOICE: what
it does where R179 and R188 leave a choice (log entries 18 and 19). -/

namespace Sys2Proof.Machine

/-- The four tag bytes in file order (R173): `0x56616769` read in the configured byte order. -/
def tagBytes (order : TagOrder) : List Byte :=
  match order with
  | .little => [0x69#8, 0x67#8, 0x61#8, 0x56#8]
  | .big => [0x56#8, 0x61#8, 0x67#8, 0x69#8]

/-- An unsigned 16-bit little-endian value of the hd blob (R175). -/
def hdWord16 (H : List Byte) (a : Nat) : Option (BitVec 16) :=
  match H[a]?, H[a + 1]? with
  | some lo, some hi => some (hi ++ lo)
  | _, _ => none

/-- A signed 32-bit value of the hd blob, little-endian as R174 takes it. -/
def hdInt32 (H : List Byte) (a : Nat) : Option Int :=
  match hdWord16 H a, hdWord16 H (a + 2) with
  | some lo, some hi => some (hi ++ lo).toInt
  | _, _ => none

/-- The scan loop (R172): `chunkStart` of the first tag, looked for at 4, 12, 20, ... while 8 bytes remain. -/
def hdScan (order : TagOrder) (H : List Byte) : Nat → Nat → Option Nat
  | 0, _ => none
  | fuel + 1, cur =>
    if cur + 8 ≤ H.length then
      if (H.drop (cur + 4)).take 4 = tagBytes order then some (cur + 4)
      else hdScan order H fuel (cur + 8)
    else none

/-- The rates of `count` table entries from `cur` on (R174, R175). None on a negative offset or a read outside `H`. -/
def hdEntries (H : List Byte) (chunkStart : Nat) : Nat → Nat → Option (List (BitVec 16))
  | 0, _ => some []
  | count + 1, cur =>
    match hdInt32 H cur with
    | none => none
    | some offset =>
      if offset < 0 then none
      else
        match hdWord16 H (chunkStart + offset.toNat), hdEntries H chunkStart count (cur + 4) with
        | some rate, some rest => some (rate :: rest)
        | _, _ => none

/-- What the hd index reader finds (R171). -/
inductive HdResult where
  /-- the first matching chunk's rates (R176) -/
  | found (rates : List (BitVec 16))
  /-- "no sample-rate chunk found" (R177) -/
  | notFound
  /-- a negative `maxIndex`, a negative offset or a read outside the hd blob (R179) -/
  | outOfRange
  deriving DecidableEq, Repr

/-- The hd index reader (R171 to R178). -/
def readHd (order : TagOrder) (H : List Byte) : HdResult :=
  match hdScan order H (H.length / 8) 0 with
  | none => .notFound
  | some chunkStart =>
    match hdInt32 H (chunkStart + 8) with
    | none => .outOfRange
    | some maxIndex =>
      if maxIndex < 0 then .outOfRange
      else
        match hdEntries H chunkStart (maxIndex.toNat + 1) (chunkStart + 12) with
        | some rates => .found rates
        | none => .outOfRange

/-- The non-fatal conditions the host reports (R182, R183, R188). -/
inductive Warning where
  /-- an hd file was specified or discovered but is missing or unreadable (R188) -/
  | hdUnreadable
  /-- the magic-tagged chunk is never found (R177, R188) -/
  | noRateChunk
  /-- the hd table cannot be read, under `HD_BOUNDS = emptyWithWarning` (R179) -/
  | hdOutOfRange
  /-- every clip uses the default rate (R182) -/
  | defaultRateUsed
  /-- the hd table is shorter than the clip count (R183) -/
  | shortTable
  deriving DecidableEq, Repr

/-- The hd file as the host meets it (R188). -/
inductive HdFile where
  /-- none specified or discovered -/
  | absent
  /-- specified or discovered, but missing or unreadable -/
  | unreadable
  /-- its bytes -/
  | contents (H : List Byte)
  deriving DecidableEq, Repr

/-- The rate list the reconciler is given, with the warnings of reading it. None when the run is refused (R179). -/
def hdRates (host : HostConfig) (file : HdFile) : Option (List (BitVec 16) × List Warning) :=
  match file with
  | .absent => some ([], [])
  | .unreadable => some ([], [.hdUnreadable])
  | .contents H =>
    match readHd host.tagOrder H with
    | .found rates => some (rates, [])
    | .notFound => some ([], [.noRateChunk])
    | .outOfRange =>
      match host.bounds with
      | .refuse => none
      | .emptyWithWarning => some ([], [.hdOutOfRange])

/-- The reconciler (R180 to R184): exactly `n` rates, the four cases tested in order. -/
def reconcile (host : HostConfig) (n : Nat) (rates : List (BitVec 16)) : List Nat × List Warning :=
  match host.overrideRate with
  | some rate => (List.replicate n rate, [])
  | none =>
    match rates.getLast? with
    | none => (List.replicate n host.defaultRate, [.defaultRateUsed])
    | some last =>
      if rates.length < n then
        (rates.map BitVec.toNat ++ List.replicate (n - rates.length) last.toNat, [.shortTable])
      else ((rates.take n).map BitVec.toNat, [])

/-- One output stream as the container writer accepts it (R186). -/
structure Stream where
  samples : List Sample
  sampleRate : Nat
  channelCount : Nat
  bitsPerSample : Nat
  deriving DecidableEq, Repr

/-- How the host's run ends (R188). -/
inductive RunReport where
  /-- the bd file is missing or unreadable: fatal, no partial output (R188) -/
  | noBlob
  /-- the block's run stopped: the numeric fault of R208, no output (log entry 14) -/
  | blockStopped (r : Fault)
  /-- the block gave no end of its run: excluded by `OneStreamPerClip` -/
  | notOver
  /-- the hd table is out of range and `HD_BOUNDS = refuse` (R179) -/
  | hdRefused
  /-- one stream per clip, in clip order, with the warnings (R185) -/
  | streams (out : List Stream) (warnings : List Warning)
  deriving DecidableEq, Repr

/-- One stream of mono 16-bit samples (R3, R186). -/
def streamOf (samples : List Sample) (rate : Nat) : Stream :=
  { samples := samples, sampleRate := rate, channelCount := Size.channels, bitsPerSample := Size.pcmBits }

/-- The rates the reconciler is given. With an override rate the hd lookup is not made at all (R181). -/
def ratesFor (host : HostConfig) (hd : HdFile) : Option (List (BitVec 16) × List Warning) :=
  if host.overrideRate.isSome then some ([], []) else hdRates host hd

/-- Resolve the sample rates and emit one pair per clip, in clip order (R185), from the lists a run that is over leaves
(R224). -/
def emit (host : HostConfig) (hd : HdFile) (s : State) : RunReport :=
  match ratesFor host hd with
  | none => .hdRefused
  | some (rates, warnings) =>
    let resolved := reconcile host s.clips.length rates
    .streams (List.zipWith streamOf s.pcm resolved.1) (warnings ++ resolved.2)

/-- The orchestrator (R185): split the bd blob and decode each clip, which is a run of the block whatever it held before,
then resolve the rates and emit once the run is over (R224). Without a bd blob there is no run (R188, R223). -/
def orchestrate (host : HostConfig) (hd : HdFile) (bd : Option (List Byte)) (s : State) : RunReport :=
  match bd with
  | none => .noBlob
  | some blob =>
    match runBlob blob s with
    | .fault r => .blockStopped r
    | .refused _ => .notOver
    | .next t => if t.phase = .finished then emit host hd t else .notOver

end Sys2Proof.Machine
end

