-- ==== Sys2Proof/Machine/Reference.lean ====
section
/-! DEFINITION. The function the block computes (00_scope.md R2), written without cursors or schedule: `Split` as R106
gives it, `DecodeClip` as R122 gives it, and `Decode`. Claims compare the stepping machine with it. -/

namespace Sys2Proof.Machine

/-- The rows of a blob, at most `fuel` of them: 16 bytes each, the last one shorter when the length asks for it (R70, R71). -/
def rowsUpTo : Nat → List Byte → List (List Byte)
  | 0, _ => []
  | fuel + 1, blob =>
    if blob.length = 0 then []
    else blob.take Size.rowBytes :: rowsUpTo fuel (blob.drop Size.rowBytes)

/-- All rows of a blob (R70): it has no more rows than bytes. -/
def rowsOf (blob : List Byte) : List (List Byte) := rowsUpTo blob.length blob

/-- `Split(B)` (R106): the maximal runs of consecutive non-zero rows, each run concatenated, in order. -/
def split (blob : List Byte) : List (List Byte) :=
  (((rowsOf blob).splitOnP isZeroRow).filter fun run => !run.isEmpty).map List.flatten

/-- One sample as a function of the filter state (R140): the new pair `(HIST1, HIST2)` and the sample. -/
def sampleOf (cfg : Config) (shift : Nib) (pred : Fin 5) (n : Nib) (h : NumVal × NumVal) : Option ((NumVal × NumVal) × Sample) :=
  (predict cfg.num (ofInt (rawValue n shift)) h.1 h.2 (cfg.coef pred)).map fun new =>
    ((new, h.1), toPcm new.value)

/-- The samples of a list of residuals, with the filter state they leave (R126). -/
def samplesOf (cfg : Config) (shift : Nib) (pred : Fin 5) : List Nib → NumVal × NumVal → Option ((NumVal × NumVal) × List Sample)
  | [], h => some (h, [])
  | n :: ns, h =>
    (sampleOf cfg shift pred n h).bind fun r =>
      (samplesOf cfg shift pred ns r.1).map fun q => (q.1, r.2 :: q.2)

/-- The frames of a clip from a filter state, at most `fuel` of them, to a sentinel or the tail (R122, R128). -/
def framesOf (cfg : Config) : Nat → List Byte → NumVal × NumVal → Option (List Sample)
  | 0, _, _ => some []
  | fuel + 1, bytes, h =>
    match decodeFrame bytes with
    | .dec f =>
      (samplesOf cfg f.shift (clampPred f.pnib) f.res.toList h).bind fun r =>
        (framesOf cfg fuel (bytes.drop Size.frameBytes) r.1).map fun rest => r.2 ++ rest
    | _ => some []

/-- `DecodeClip(C)` (R122) from the cleared filter state of R121. None when some `new` is not finite (R208). -/
def decodeClip (cfg : Config) (clip : List Byte) : Option (List Sample) :=
  framesOf cfg (clip.length / Size.frameBytes) clip (ofInt 0, ofInt 0)

/-- `Decode(B)` (R2): the clips of the blob decoded, in clip order. -/
def decodeBlob (cfg : Config) (blob : List Byte) : Option (List (List Sample)) :=
  (split blob).mapM (decodeClip cfg)

/-- The number of frames of a clip before its first sentinel frame, or of all its full frames (`e` of R129). -/
def framesBeforeEnd : Nat → List Byte → Nat
  | 0, _ => 0
  | fuel + 1, bytes =>
    match decodeFrame bytes with
    | .dec _ => framesBeforeEnd fuel (bytes.drop Size.frameBytes) + 1
    | _ => 0

end Sys2Proof.Machine
end

