-- ==== Sys2Proof/Safety.lean ====
section
/-! DEFINITION. What the claims speak of: the invariants of the machine, the end of a run, the bound on its length. -/

namespace Sys2Proof.Machine

/-- The blob `B` as the byte sequence of R51. -/
def blobOf (s : State) : List Byte := (List.range s.len).map s.bd.read

/-- `B[a : a + n]` (00_scope.md section 5). -/
def blobRange (s : State) (a n : Nat) : List Byte := ((blobOf s).drop a).take n

/-- BD is in canonical form and lists no address outside the blob (R51). -/
def BlobOk (s : State) : Prop := s.bd.wf = true ∧ s.bd.below s.len = true

/-- `RPOS` never exceeds `L`, and is a multiple of 16 or equal to `L` (R20, R27). -/
def RowCursorOk (s : State) : Prop := s.rpos ≤ s.len ∧ (s.rpos % 16 = 0 ∨ s.rpos = s.len)

/-- `ACC_NE` is the function of `ACC` that R29 states. -/
def AccFlagOk (s : State) : Prop := s.accNe = accNonEmpty s.acc

/-- A non-empty accumulator is `B[ACC_START : RPOS]` for the start of a row `ACC_START` (R28, R107). -/
def AccIsRange (s : State) : Prop :=
  s.acc ≠ [] → ∃ a, a % 16 = 0 ∧ a ≤ s.rpos ∧ s.acc = blobRange s a (s.rpos - a)

/-- Every clip is a non-empty range of the blob already scanned, starting at the start of a row (R30, R107, R108). -/
def ClipsAreRanges (s : State) : Prop :=
  ∀ c ∈ s.clips, c ≠ [] ∧ ∃ a, a % 16 = 0 ∧ a + c.length ≤ s.rpos ∧ c = blobRange s a c.length

/-- `FPOS` is a multiple of 16 (R31) and `K` is 0 to 28 (R32). -/
def FrameCursorOk (s : State) : Prop := s.fpos % 16 = 0 ∧ s.k ≤ 28

/-- A stream never holds more than 28 samples for each full frame of its clip (R129). -/
def StreamsBounded (s : State) : Prop :=
  ∀ (i : Nat) (c : List Byte) (p : List Sample), s.clips[i]? = some c → s.pcm[i]? = some p → p.length ≤ 28 * (c.length / 16)

/-- Every stream holds a multiple of 28 samples, the one being decoded sample by sample apart (R129). -/
def StreamsWhole (s : State) : Prop :=
  ∀ (i : Nat) (p : List Sample), s.pcm[i]? = some p → (s.phase = .samples ∧ i = s.cidx) ∨ p.length % 28 = 0

/-- The clip being decoded exists, its stream is the last one opened, and the samples decoded are those of its frames
before `FPOS` and `extra` more. -/
def DecodingOk (s : State) (extra : Nat) : Prop :=
  s.pcm.length = s.cidx + 1 ∧ s.halt = false ∧
    ∃ (c : List Byte) (p : List Sample), s.clips[s.cidx]? = some c ∧ s.pcm[s.cidx]? = some p ∧ s.fpos ≤ c.length ∧
      p.length = 28 * (s.fpos / 16) + extra

/-- The scan is complete: `RPOS = L` and the accumulator is flushed (R101, R104). -/
def Scanned (s : State) : Prop := s.rpos = s.len ∧ s.acc = []

/-- What each position of the schedule R62 implies: no stream before the scan is done, streams in clip order. -/
def PhaseOk (s : State) : Prop :=
  match s.phase with
  | .scan => s.pcm = []
  | .start i => Scanned s ∧ i < s.clips.length ∧ s.pcm.length = i
  | .frames => Scanned s ∧ DecodingOk s 0
  | .samples => Scanned s ∧ DecodingOk s s.k ∧ s.k < 28 ∧
      ∃ c, s.clips[s.cidx]? = some c ∧ s.fpos + 16 ≤ c.length
  | .finished => Scanned s ∧ s.pcm.length = s.clips.length

/-- The invariant of a run: what R20 to R35 and R107, R108, R129 say of the state between two steps. -/
structure RunInv (s : State) : Prop where
  blob : BlobOk s
  row : RowCursorOk s
  flag : AccFlagOk s
  acc : AccIsRange s
  clips : ClipsAreRanges s
  frame : FrameCursorOk s
  bounded : StreamsBounded s
  whole : StreamsWhole s
  phase : PhaseOk s

/-- A finite value of `NUM` (R148): one that rounding leaves as it is, or `-0.0` in the binary64 domain. -/
def InNum (d : NumDomain) (x : NumVal) : Prop :=
  match x with
  | .ofRat q => roundNum d q = some q
  | .negZero => d = .binary64

/-- The history registers hold values of `NUM` (R21). -/
def HistoryInNum (s : State) : Prop := InNum s.cfg.num s.hist1 ∧ InNum s.cfg.num s.hist2

/-- A finite binary64 value: an integer of at most 53 bits scaled by a power of two from `2 ^ -1074` to `2 ^ 971`
(R149). -/
def Binary64Value (x : Rat) : Prop :=
  ∃ (m : Int) (e : Int), m.natAbs < 2 ^ 53 ∧ -1074 ≤ e ∧ e ≤ 971 ∧ x = (m : Rat) * (2 : Rat) ^ e

/-- Steps a clip of `n` bytes can take: `CLIPSTART`, at most 29 steps for each full frame, and the step that ends it (R233). -/
def clipCost (n : Nat) : Nat := 3 + 29 * (n / 16)

/-- The cost of the clips from index `i` on. -/
def clipsCost (clips : List (List Byte)) (i : Nat) : Nat := ((clips.drop i).map fun c => clipCost c.length).sum

/-- Bytes of the clip being decoded from `FPOS` on. -/
def bytesLeft (s : State) : Nat := (s.clips.getD s.cidx []).length - s.fpos

/-- A bound on the steps to the end of the run (R68). -/
def stepsLeft (s : State) : Nat :=
  match s.phase with
  | .scan =>
    40 * ((s.len - s.rpos + 15) / 16) + clipsCost s.clips 0 +
      (if s.acc.length = 0 then 0 else clipCost (s.acc.length + 15)) + 2
  | .start i => clipsCost s.clips i + 1
  | .frames => 29 * (bytesLeft s / 16) + 2 + clipsCost s.clips (s.cidx + 1)
  | .samples => 29 * (bytesLeft s / 16 - 1) + (28 - s.k) + 2 + clipsCost s.clips (s.cidx + 1)
  | .finished => 0

/-- The memory spaces and the configuration are as they were: BD, its length, `COEF`, `NUM` (R26, R51, R66). -/
def SameInputs (s t : State) : Prop :=
  (∀ a, memRead t a = memRead s a) ∧ t.len = s.len ∧ t.cfg = s.cfg

/-- CDX's registers are as they were (R20). -/
def SameCdx (s t : State) : Prop :=
  t.rpos = s.rpos ∧ t.acc = s.acc ∧ t.accNe = s.accNe ∧ t.clips = s.clips

/-- The filter state is as it was (R21). -/
def SameHistory (s t : State) : Prop := t.hist1 = s.hist1 ∧ t.hist2 = s.hist2

/-- The per-frame latches are as they were (R22 to R25). -/
def SameLatches (s t : State) : Prop :=
  t.shift = s.shift ∧ t.pred = s.pred ∧ t.flag = s.flag ∧ t.nib = s.nib

/-- The streams other than `i` are as they were (R35, R54). -/
def SameStreamsBut (i : Nat) (s t : State) : Prop :=
  t.pcm.length = s.pcm.length ∧ ∀ j, j ≠ i → t.pcm[j]? = s.pcm[j]?

end Sys2Proof.Machine
end

