-- ==== Sys2Proof/Certificates/Slice0/Obligations.lean ====
section
/-! DEFINITION. The statements for the provers, from the numbered rules of spec/. -/

open Sys2Proof Sys2Proof.Machine

/-! ### Encoding -/

/-- R74 to R77, R80, R81: words written out from the spec's encodings decode to the operations they stand for
(95_test_vectors.md E10, E11, E12, E13, E15 and line E14). -/
def Obligations.SpecWordsDecode : Prop :=
  decode (.row (List.replicate 16 0#8)) = .ok (.delim 16) ∧
  decode (.row (List.replicate 15 0#8 ++ [0x01#8])) = .ok (.data (List.replicate 15 0#8 ++ [0x01#8])) ∧
  decode (.row [0#8, 0#8, 0#8]) = .ok (.delim 3) ∧
  decode (.row [0#8, 0x05#8]) = .ok (.data [0#8, 0x05#8]) ∧
  decode (.row []) = .ok .flush ∧
  decode (.frame (0x2C#8 :: 0x07#8 :: List.replicate 14 0xFF#8)) = .ok (.endClip 0xC#4 0x2#4) ∧
  decode (.frame (List.replicate 15 0x07#8)) = .ok .tail ∧
  decode (.frame (0x1C#8 :: 0#8 :: 0x0F#8 :: List.replicate 13 0#8)) =
    .ok (.dec { shift := 0xC#4, pnib := 0x1#4, flag := 0#8, res := (Vector.replicate 28 0#4).set 0 0xF#4 })

/-- R83: decoding the encoding of any well-formed operation gives it back, with every operand. -/
def Obligations.DecodeOfEncodeIsIdentity : Prop :=
  ∀ i : Instr, i.wellFormed = true → decode (encode i) = .ok i

/-- R72, R80, R82, R85: a unit whose bits are all fields of its operation is the encoding of what it decodes to. The rest
of a clip after a frame, the bytes of a tail and the don't-care bytes of an `END` frame (R87) are no such bits. -/
def Obligations.EncodeOfDecodeIsIdentity : Prop :=
  (∀ row i, decode (.row row) = .ok i → encode i = .row row) ∧
  (∀ F : List Byte, F.length = 16 → F.getD 1 0#8 ≠ 7#8 → ∃ i, decode (.frame F) = .ok i ∧ encode i = .frame F) ∧
  (∀ n i, decode (.residual n) = .ok i → encode i = .residual n) ∧
  (∀ c i, decode (.clip c) = .ok i → encode i = .clip c)

/-- R86: every row of 1 to 16 bytes, the end of the blob and every rest of a clip has a decoding, and what it decodes to
is well-formed. -/
def Obligations.EveryUnitDecodesWellFormed : Prop :=
  (∀ row : List Byte, row.length ≤ 16 → ∃ i, decode (.row row) = .ok i ∧ i.wellFormed = true) ∧
  (∀ rest : List Byte, ∃ i, decode (.frame rest) = .ok i ∧ i.wellFormed = true) ∧
  (∀ n : Nib, decode (.residual n) = .ok (.smp n)) ∧
  (∀ c : Nat, decode (.clip c) = .ok (.clipstart c))

/-- R81, R76, R74: the three classes of what stands at the frame cursor, the length test first, then the whole flag byte.
The header fields of `END` and `DEC` are `shift = F[0] mod 16` and `pnib = floor(F[0] / 16)`. -/
def Obligations.FrameClassByLengthThenFlag : Prop :=
  ∀ rest : List Byte,
    (rest.length < 16 → decode (.frame rest) = .ok .tail) ∧
    (16 ≤ rest.length → rest.getD 1 0#8 = 7#8 → ∃ shift pnib, decode (.frame rest) = .ok (.endClip shift pnib) ∧
      shift.toNat = (rest.getD 0 0#8).toNat % 16 ∧ pnib.toNat = (rest.getD 0 0#8).toNat / 16) ∧
    (16 ≤ rest.length → rest.getD 1 0#8 ≠ 7#8 →
      ∃ f : Frame, decode (.frame rest) = .ok (.dec f) ∧ f.flag = rest.getD 1 0#8 ∧
        f.shift.toNat = (rest.getD 0 0#8).toNat % 16 ∧ f.pnib.toNat = (rest.getD 0 0#8).toNat / 16)

/-- R77: residual `2k` is the low nibble of frame byte `2+k` and residual `2k+1` its high nibble. -/
def Obligations.ResidualsLowNibbleFirst : Prop :=
  ∀ (F : List Byte) (k : Fin 14),
    ((frameOfBytes F).res[2 * k.val]).toNat = (F.getD (2 + k.val) 0#8).toNat % 16 ∧
    ((frameOfBytes F).res[2 * k.val + 1]).toNat = (F.getD (2 + k.val) 0#8).toNat / 16

/-- Log entry 9 (the model's interface): a table word placed by `withFetchWord` after reset is the unit the next step
fetches, and it decodes as `decodeTableWord` says. -/
def Obligations.FetchWordIsTheNextUnit : Prop :=
  ∀ nbits w i, decodeTableWord nbits w = some i →
    ∃ u, fetch (State.reset.withFetchWord nbits w) = .item u ∧ decode u = .ok i

/-! ### The step. Where the block stands in the schedule R62 is the model's field `phase` (log entry 3). -/

/-- R62, R101, R122, and D28 (log entry 6): the step at a state whose cursor presents a unit is `exec` of the decoded operation, followed by
`sequence`. A `DEC` frame taken sample by sample is unpacked instead, its samples following one step each. -/
def Obligations.StepRunsTheDecodedOperation : Prop :=
  ∀ s u i, fetch s = .item u → decode u = .ok i →
    ((s.cfg.grain = .perFrame ∨ ∀ f, i ≠ .dec f) →
      step s = andThen (exec i s) fun t => .next (sequence i t)) ∧
    (∀ f, i = .dec f → s.cfg.grain = .perSample → step s = .next (openFrame f s))

/-- R52: in the row loop every byte read lies inside the blob, so the fetch presents the row `B[RPOS : min(RPOS+16, L)]`. -/
def Obligations.RowFetchStaysInsideTheBlob : Prop :=
  ∀ s, s.phase = .scan → s.rpos ≤ s.len → fetch s = .item (.row (blobRange s s.rpos (min 16 (s.len - s.rpos))))

/-- R28 to R35, R107, R108, R129: every step keeps the invariant of a run. What it says of each schedule position rests on
the model's field `phase` (log entry 3). -/
def Obligations.StepKeepsInvariant : Prop := ∀ s t, RunInv s → step s = .next t → RunInv t

/-- R221, R39: the invariant holds after reset, and at the start of a run on any blob from any state whose `FPOS` and `K`,
which R39 leaves unspecified there, are within their ranges of R20. -/
def Obligations.InvariantAtRunStart : Prop :=
  RunInv State.reset ∧ ∀ blob s, FrameCursorOk s → RunInv (runStart blob s)

/-- R221, R39: what a run start leaves in CDX's registers, the output and BD. That `State.reset` holds the same values with
no blob loaded is the model's choice (log entries 2 and 4). -/
def Obligations.RunStartState : Prop :=
  ∀ blob s, let t := runStart blob s
    t.rpos = 0 ∧ t.acc = [] ∧ t.accNe = false ∧ t.clips = [] ∧ t.pcm = [] ∧ t.cidx = 0 ∧
      t.len = blob.length ∧ blobOf t = blob ∧ (∀ a, memRead t a = blob[a]?) ∧
      State.reset.rpos = 0 ∧ State.reset.acc = [] ∧ State.reset.accNe = false ∧ State.reset.clips = [] ∧
      State.reset.pcm = [] ∧ State.reset.cidx = 0 ∧ ∀ a, memRead State.reset a = none

/-- R86, R200, R208: no step is refused. From a state of a run, with the exact domain every step gives a next state, and
with binary64 the only other outcome is the numeric fault. -/
def Obligations.StepTotalButForNumericFault : Prop :=
  ∀ s,
    (∀ r, step s ≠ .refused r) ∧
    (RunInv s → s.cfg.num = .exact → ∃ t, step s = .next t) ∧
    (RunInv s → s.cfg.num = .binary64 → (∃ t, step s = .next t) ∨ step s = .fault .nonFiniteHistory)

/-- R9, R21, R149: the history registers keep holding values of `NUM`. Every entry of `COEF` is a value of `NUM`, entry 0
is `(0, 0)`, and any pairs of values of the domain can be the others. That only finite values stand in the history and in
the table is R208's own choice (D18, log entries 6 and 14), and that the zeros of entry 0 are positive ones is the model's
(log entry 5). -/
def Obligations.HistoryAndCoefInNum : Prop :=
  (∀ s t, HistoryInNum s → step s = .next t → HistoryInNum t) ∧
  (∀ (cfg : Config) (p : Fin 5), InNum cfg.num (cfg.coef p).c0 ∧ InNum cfg.num (cfg.coef p).c1) ∧
  (∀ cfg : Config, cfg.coef 0 = ⟨.ofRat 0, .ofRat 0⟩) ∧
  ∀ (d : NumDomain) (e : Fin 5 → CoefPair NumVal), (∀ p, InNum d (e p).c0 ∧ InNum d (e p).c1) →
    ∃ cfg : Config, cfg.num = d ∧ ∀ p, p ≠ 0 → cfg.coef p = e p

/-- R26, R51, R66: no step changes the blob, its length or the configuration. -/
def Obligations.InputsAreReadOnly : Prop :=
  ∀ s t, step s = .next t → t.bd = s.bd ∧ t.len = s.len ∧ t.cfg = s.cfg

/-- R30, R35: in a run, clips and samples are appended at the end and never changed or removed. -/
def Obligations.OutputsAppendOnly : Prop :=
  ∀ s t, RunInv s → step s = .next t →
    s.clips <+: t.clips ∧ ∀ (i : Nat) (p : List Sample), s.pcm[i]? = some p → ∃ q, t.pcm[i]? = some (p ++ q)

/-- R220, R40: the history changes in a step only where a clip starts, to `num(0) = +0.0`, or where `SMP` runs, alone or
inside `DEC`. -/
def Obligations.FilterResetOnlyAtClipStart : Prop :=
  ∀ s t, step s = .next t →
    (∀ i, s.phase = .start i → t.hist1 = .ofRat 0 ∧ t.hist2 = .ofRat 0) ∧
    (¬ SameHistory s t →
      (∃ i, s.phase = .start i) ∨
      (∃ u i, fetch s = .item u ∧ decode u = .ok i ∧ ((∃ f, i = .dec f) ∨ ∃ n, i = .smp n)))

/-- R33: in a run, while `HALT = 1` no step reads a frame or a residual of the clip, and no step but the next clip start
writes the history, `PCM`, `FPOS` or `HALT`. The positions of the loops are the model's own (log entry 3). -/
def Obligations.HaltedClipIsLeft : Prop :=
  ∀ s, RunInv s → s.halt = true →
    s.phase ≠ .frames ∧ s.phase ≠ .samples ∧
    (∀ rest, fetch s ≠ .item (.frame rest)) ∧ (∀ n, fetch s ≠ .item (.residual n)) ∧
    ∀ t, (∀ i, s.phase ≠ .start i) → step s = .next t →
      SameHistory s t ∧ t.pcm = s.pcm ∧ t.fpos = s.fpos ∧ t.halt = true

/-- R132, R124: a frame with flag byte 7 gives no sample and halts its clip at once, whatever bytes remain. -/
def Obligations.SentinelFrameEndsTheClip : Prop :=
  ∀ s c, s.phase = .frames → s.halt = false → s.clips[s.cidx]? = some c → 16 ≤ (c.drop s.fpos).length →
    (c.drop s.fpos).getD 1 0#8 = 7#8 →
    ∃ t, step s = .next t ∧ t.pcm = s.pcm ∧ t.halt = true ∧ t.flag = 7#8 ∧ SameHistory s t ∧ t.fpos = s.fpos ∧
      t.nib = s.nib ∧ t.phase = (if s.cidx + 1 < s.clips.length then .start (s.cidx + 1) else .finished)

/-- R127: fewer than 16 bytes are dropped unread and the clip's decode ends. -/
def Obligations.TailEndsTheClip : Prop :=
  ∀ s c, s.phase = .frames → s.halt = false → s.clips[s.cidx]? = some c → c.length - s.fpos < 16 →
    step s = .next { s with phase := if s.cidx + 1 < s.clips.length then .start (s.cidx + 1) else .finished }

/-- R68, R233: every step of a run that is not over brings its end nearer. -/
def Obligations.EveryStepNearsTheEnd : Prop :=
  ∀ s t, RunInv s → s.phase ≠ .finished → step s = .next t → stepsLeft t < stepsLeft s

/-- R68: with the exact domain a run on any blob is over within a number of steps that depends on the length alone. -/
def Obligations.EveryRunEnds : Prop :=
  ∀ blob s, FrameCursorOk s → s.cfg.num = .exact →
    ∃ k t, k ≤ 40 * ((blob.length + 15) / 16) + 2 ∧ runSteps k (runStart blob s) = .next t ∧ t.phase = .finished

/-- R126 and D28 (log entry 6): 29 steps of one frame taken sample by sample do exactly what `DEC` does in one, its faults included. -/
def Obligations.SampleStepsRefineDec : Prop :=
  ∀ s u f, s.phase = .frames → s.cfg.grain = .perSample → fetch s = .item u → decode u = .ok (.dec f) →
    runSteps 29 s = exec (.dec f) s

/-- R101, R106: the row loop and `FLUSH` leave `CLIPS = Split(B)`, after `ceil(L/16) + 1` steps. -/
def Obligations.ScanComputesSplit : Prop :=
  ∀ blob s, ∃ t, runSteps ((blob.length + 15) / 16 + 1) (runStart blob s) = .next t ∧
    t.clips = split blob ∧ t.rpos = blob.length ∧ t.acc = [] ∧ t.pcm = []

/-- R105: a blob of zero bytes (the empty blob too) gives no clip, and a blob that is not empty and has no zero row
gives one clip, the whole blob. -/
def Obligations.SplitEdgeCases : Prop :=
  ∀ blob s, ∃ t, runSteps ((blob.length + 15) / 16 + 1) (runStart blob s) = .next t ∧
    ((∀ b ∈ blob, b = 0#8) → t.clips = []) ∧
    (blob ≠ [] → (∀ row ∈ rowsOf blob, ∃ b ∈ row, b ≠ 0#8) → t.clips = [blob])

/-- R111: a blob of non-empty clips of whole non-zero rows, set apart by one zero row or by more, gives back exactly those
clips in order. -/
def Obligations.SplitReproducesClips : Prop :=
  ∀ (clips : List (List Byte)) (extra : Nat) (s : State),
    (∀ c ∈ clips, c ≠ [] ∧ c.length % 16 = 0 ∧ ∀ row ∈ rowsOf c, ∃ b ∈ row, b ≠ 0#8) →
    let blob := (clips.intersperse (List.replicate (16 * (extra + 1)) 0#8)).flatten
    ∃ t, runSteps ((blob.length + 15) / 16 + 1) (runStart blob s) = .next t ∧ t.clips = clips

/-- R2, R63, R224: every run ends with `CLIPS = Split(B)` and `PCM[i] = DecodeClip(CLIPS[i])`, whatever the state before
and at either granularity (log entry 6). The premise of the first clause leaves out the numeric fault R208, which the second clause
says the exact domain has not. -/
def Obligations.RunComputesDecode : Prop :=
  (∀ blob s out, decodeBlob s.cfg blob = some out →
    ∃ k t, runSteps k (runStart blob s) = .next t ∧ t.phase = .finished ∧ t.clips = split blob ∧ t.pcm = out) ∧
  ∀ cfg blob, cfg.num = .exact → ∃ out, decodeBlob cfg blob = some out

/-- R129: a clip of `n` bytes whose first full frame with flag byte 7 is frame `e` decodes to `28 * e` samples, and one
without such a frame to `28 * floor(n/16)`. Frame `j` has its flag byte at `16j + 1`. -/
def Obligations.StreamLength : Prop :=
  ∀ cfg clip out, decodeClip cfg clip = some out →
    (∀ e, e < clip.length / 16 → clip.getD (16 * e + 1) 0#8 = 7#8 → (∀ j, j < e → clip.getD (16 * j + 1) 0#8 ≠ 7#8) →
      out.length = 28 * e) ∧
    ((∀ j, j < clip.length / 16 → clip.getD (16 * j + 1) 0#8 ≠ 7#8) → out.length = 28 * (clip.length / 16)) ∧
    out.length = 28 * framesBeforeEnd (clip.length / 16) clip ∧ out.length ≤ clip.length / 16 * 28

/-! ### CDX -/

/-- R102: `DELIM` closes a non-empty accumulator or is ignored, clears `ACC_NE`, and moves past the row. -/
def Obligations.DelimClosesTheAccumulator : Prop :=
  ∀ n s, exec (.delim n) s = .next
    { s with clips := if s.acc = [] then s.clips else s.clips ++ [s.acc], acc := [], accNe := false, rpos := s.rpos + n }

/-- R103: `DATA` appends the row verbatim, sets `ACC_NE`, and moves past the row. -/
def Obligations.DataAppendsTheRow : Prop :=
  ∀ row s, exec (.data row) s = .next { s with acc := s.acc ++ row, accNe := true, rpos := s.rpos + row.length }

/-- R104: `FLUSH` emits a clip still being formed. -/
def Obligations.FlushEmitsTheLastClip : Prop :=
  ∀ s, exec .flush s = .next
    { s with clips := if s.acc = [] then s.clips else s.clips ++ [s.acc], acc := [], accNe := false }

/-- R29: `ACC_NE` stays the function of `ACC` that it is, through every well-formed operation. -/
def Obligations.AccFlagFollowsAcc : Prop :=
  ∀ i s t, i.wellFormed = true → AccFlagOk s → exec i s = .next t → AccFlagOk t

/-- R20: what CDX's operations leave unchanged: inputs, history, latches, AFD's cursors and flag, every stream. -/
def Obligations.CdxFrame : Prop :=
  ∀ i s t, ((∃ n, i = .delim n) ∨ (∃ row, i = .data row) ∨ i = .flush) → exec i s = .next t →
    SameInputs s t ∧ SameHistory s t ∧ SameLatches s t ∧ t.fpos = s.fpos ∧ t.k = s.k ∧ t.halt = s.halt ∧
      t.cidx = s.cidx ∧ t.pcm = s.pcm ∧ t.phase = s.phase ∧
      (i = .flush → t.rpos = s.rpos) ∧ ((∃ row, i = .data row) → t.clips = s.clips)

/-! ### AFD, frame level -/

/-- R121, R40: `CLIPSTART(i)` sets the history to `num(0)`, the positive zero, clears `FPOS` and `HALT`, and opens an empty
stream `i`. -/
def Obligations.ClipstartClearsTheFilter : Prop :=
  ∀ i s, ∃ t, exec (.clipstart i) s = .next t ∧ t.cidx = i ∧ t.hist1 = .ofRat 0 ∧ t.hist2 = .ofRat 0 ∧ t.fpos = 0 ∧ t.halt = false ∧
    t.pcm[i]? = some [] ∧ ∀ (j : Nat) (p : List Sample), j ≠ i → s.pcm[j]? = some p → t.pcm[j]? = some p

/-- R127: `TAIL` writes nothing. -/
def Obligations.TailWritesNothing : Prop := ∀ s, exec .tail s = .next s

/-- R123, R124: `END` latches header and flag and sets `HALT`, and nothing else. -/
def Obligations.EndSetsHalt : Prop :=
  ∀ shift pnib s, exec (.endClip shift pnib) s = .next
    { s with shift := shift, pred := clampPred pnib, flag := 7#8, halt := true }

/-- R20, R121, R124, R127: what `CLIPSTART`, `TAIL` and `END` leave unchanged. -/
def Obligations.AfdControlFrame : Prop :=
  ∀ i s t, ((∃ c, i = .clipstart c) ∨ i = .tail ∨ (∃ a b, i = .endClip a b)) → exec i s = .next t →
    SameInputs s t ∧ SameCdx s t ∧ t.nib = s.nib ∧ t.k = s.k ∧ t.phase = s.phase ∧
      (¬ (∃ c, i = .clipstart c) → SameHistory s t ∧ t.pcm = s.pcm ∧ t.fpos = s.fpos ∧ t.cidx = s.cidx) ∧
      (¬ (∃ a b, i = .endClip a b) → SameLatches s t)

/-- R125, R126: `DEC` latches the frame's fields, runs the 28 samples of R140 in order from the history it meets, and
moves past the frame. -/
def Obligations.DecRunsTwentyEightSamples : Prop :=
  ∀ f s p r, s.pcm[s.cidx]? = some p →
    samplesOf s.cfg f.shift (clampPred f.pnib) f.res.toList (s.hist1, s.hist2) = some r →
    r.2.length = 28 ∧
    exec (.dec f) s = .next
      { s with
        shift := f.shift, pred := clampPred f.pnib, flag := f.flag, nib := f.res, k := 28,
        hist1 := r.1.1, hist2 := r.1.2, pcm := s.pcm.set s.cidx (p ++ r.2), fpos := s.fpos + 16 }

/-- R126, R150: with the exact domain `DEC` always completes and appends exactly 28 samples. -/
def Obligations.ExactDecCompletes : Prop :=
  ∀ f s p, s.cfg.num = .exact → s.pcm[s.cidx]? = some p →
    ∃ t q, exec (.dec f) s = .next t ∧ q.length = 28 ∧ t.pcm = s.pcm.set s.cidx (p ++ q) ∧ t.fpos = s.fpos + 16

/-- R131, R154: a predictor-0 frame gives its 28 raw values, in either domain and from any history, and leaves the last
two of them as history. -/
def Obligations.PredictorZeroFrame : Prop :=
  ∀ f s p, f.pnib = 0#4 → s.pcm[s.cidx]? = some p →
    exec (.dec f) s = .next
      { s with
        shift := f.shift, pred := 0, flag := f.flag, nib := f.res, k := 28,
        hist1 := .ofRat (rawValue f.res[27] f.shift), hist2 := .ofRat (rawValue f.res[26] f.shift),
        pcm := s.pcm.set s.cidx (p ++ f.res.toList.map fun n => BitVec.ofInt 16 (rawValue n f.shift)),
        fpos := s.fpos + 16 }

/-- R131: the zero frame from a cleared history gives 28 zero samples and leaves the history cleared. -/
def Obligations.ZeroFrame : Prop :=
  ∀ f s p, f.pnib = 0#4 → f.shift = 0#4 → f.flag ≠ 7#8 → f.res = Vector.replicate 28 0#4 →
    s.hist1 = .ofRat 0 → s.hist2 = .ofRat 0 → s.pcm[s.cidx]? = some p →
    ∃ t, exec (.dec f) s = .next t ∧ t.hist1 = .ofRat 0 ∧ t.hist2 = .ofRat 0 ∧
      t.pcm = s.pcm.set s.cidx (p ++ List.replicate 28 0#16)

/-- R75, R87 (a): the predictor nibbles 4 to 15 decode as predictor 4. -/
def Obligations.PredictorNibbleClamps : Prop :=
  (∀ pnib : Nib, (clampPred pnib).val = min pnib.toNat 4) ∧
  ∀ (f : Frame) (s : State) (a b : Nib), 4 ≤ a.toNat → 4 ≤ b.toNat →
    exec (.dec { f with pnib := a }) s = exec (.dec { f with pnib := b }) s

/-- R87 (b): the flag byte of a `DEC` frame reaches `FLAG` and nothing else. -/
def Obligations.DecFlagHasNoEffect : Prop :=
  ∀ (f : Frame) (s : State) (v w : Byte) (t : State), exec (.dec { f with flag := v }) s = .next t →
    exec (.dec { f with flag := w }) s = .next { t with flag := w }

/-- R130, R157: what a frame appends and the history it leaves depend on the frame, the configuration and the numbers in
the history alone, not on the sign of a zero. -/
def Obligations.FrameDecodeIsPure : Prop :=
  ∀ f s₁ s₂ p₁ p₂ t₁, s₁.cfg = s₂.cfg →
    s₁.hist1.value = s₂.hist1.value → s₁.hist2.value = s₂.hist2.value →
    s₁.pcm[s₁.cidx]? = some p₁ → s₂.pcm[s₂.cidx]? = some p₂ → exec (.dec f) s₁ = .next t₁ →
    ∃ t₂ q, exec (.dec f) s₂ = .next t₂ ∧ SameHistory t₁ t₂ ∧
      t₁.pcm[s₁.cidx]? = some (p₁ ++ q) ∧ t₂.pcm[s₂.cidx]? = some (p₂ ++ q)

/-! ### AFD, sample level -/

/-- R141, R142, R143: widening, sign extension and arithmetic shift, as integers: `t = floor(s / 2^SHIFT)`, exact up to
`SHIFT = 12`, and never 0 for a negative `s`. -/
def Obligations.RawValueIsFlooredQuotient : Prop :=
  ∀ n shift : Nib,
    (widen n).toNat = n.toNat * 4096 ∧
    (signExtendWide (widen n)).toInt = (if n.toNat ≤ 7 then (n.toNat : Int) * 4096 else n.toNat * 4096 - 65536) ∧
    rawValue n shift = (signExtendWide (widen n)).toInt / 2 ^ shift.toNat ∧
    (shift.toNat ≤ 12 → rawValue n shift = n.toInt * 2 ^ (12 - shift.toNat)) ∧
    (8 ≤ n.toNat → rawValue n shift ≤ -1)

/-- R153: the ranges of the integer front end, no step of which wraps, and where a logical shift would differ. -/
def Obligations.IntegerRanges : Prop :=
  ∀ n shift : Nib,
    (widen n).toNat = n.toNat * 4096 ∧ (widen n).toNat ≤ 61440 ∧
    -32768 ≤ (signExtendWide (widen n)).toInt ∧ (signExtendWide (widen n)).toInt ≤ 28672 ∧
    (signExtendWide (widen n)).toInt % 4096 = 0 ∧
    -32768 ≤ rawValue n shift ∧ rawValue n shift ≤ 28672 ∧
    (((signExtendWide (widen n)) >>> shift.toNat) ≠ arithShift (signExtendWide (widen n)) shift ↔
      (signExtendWide (widen n)).toInt < 0 ∧ 0 < shift.toNat)

/-- R140, R145, R146, R147: one sample. `HIST2` takes the old `HIST1`, `HIST1` the unclamped prediction, the stream its
clamped and truncated copy. -/
def Obligations.SmpAdvancesTheFilter : Prop :=
  ∀ n s p new, s.pcm[s.cidx]? = some p →
    predict s.cfg.num (.ofRat (rawValue n s.shift)) s.hist1 s.hist2 (s.cfg.coef s.pred) = some new →
    exec (.smp n) s = .next
      { s with hist2 := s.hist1, hist1 := new, k := s.k + 1, pcm := s.pcm.set s.cidx (p ++ [toPcm new.value]) }

/-- R145, R149, R150: `SMP` in each domain. With the exact domain it always completes, with
`new = raw + HIST1*c0 + HIST2*c1`. With binary64 each of `p0 = HIST1*c0`, `a = raw + p0`, `p1 = HIST2*c1`, `new = a + p1`
is rounded once, in that order, and `SMP` stops with the fault R208 chooses (log entries 14 and 15) exactly when one of
the four roundings overflows. `new` is then never `-0.0` (log entry 5). -/
def Obligations.SmpComputesThePrediction : Prop :=
  ∀ n s p, s.pcm[s.cidx]? = some p →
    (s.cfg.num = .exact →
      ∃ t, exec (.smp n) s = .next t ∧
        t.hist1 = .ofRat (rawValue n s.shift + s.hist1.value * (s.cfg.coef s.pred).c0.value
          + s.hist2.value * (s.cfg.coef s.pred).c1.value) ∧
        t.hist2 = s.hist1 ∧ t.pcm = s.pcm.set s.cidx (p ++ [toPcm t.hist1.value]) ∧ t.k = s.k + 1) ∧
    (s.cfg.num = .binary64 →
      (∀ p0 a p1 new,
        round64 (s.hist1.value * (s.cfg.coef s.pred).c0.value) = some p0 → round64 (rawValue n s.shift + p0) = some a →
        round64 (s.hist2.value * (s.cfg.coef s.pred).c1.value) = some p1 → round64 (a + p1) = some new →
        exec (.smp n) s = .next
          { s with hist2 := s.hist1, hist1 := .ofRat new, k := s.k + 1, pcm := s.pcm.set s.cidx (p ++ [toPcm new]) }) ∧
      (exec (.smp n) s = .fault .nonFiniteHistory ↔
        round64 (s.hist1.value * (s.cfg.coef s.pred).c0.value) = none ∨
        round64 (s.hist2.value * (s.cfg.coef s.pred).c1.value) = none ∨
        ∃ p0, round64 (s.hist1.value * (s.cfg.coef s.pred).c0.value) = some p0 ∧
          (round64 (rawValue n s.shift + p0) = none ∨
            ∃ a p1, round64 (rawValue n s.shift + p0) = some a ∧
              round64 (s.hist2.value * (s.cfg.coef s.pred).c1.value) = some p1 ∧ round64 (a + p1) = none)))

/-- R154: with predictor 0 the sample is the raw value itself, whatever the history and the domain. -/
def Obligations.PredictorZeroSample : Prop :=
  ∀ n s p, s.pred = 0 → s.pcm[s.cidx]? = some p →
    exec (.smp n) s = .next
      { s with
        hist1 := .ofRat (rawValue n s.shift), hist2 := s.hist1, k := s.k + 1,
        pcm := s.pcm.set s.cidx (p ++ [BitVec.ofInt 16 (rawValue n s.shift)]) } ∧
    (BitVec.ofInt 16 (rawValue n s.shift)).toInt = rawValue n s.shift

/-- R208, whose fault is this spec's choice (log entry 14): `SMP` stops with `nonFiniteHistory` exactly when the prediction
is not finite, an infinite intermediate making it so (log entry 15). Where the stream is open (log entry 7) it has no other
stop, and completes when the prediction is finite. -/
def Obligations.SmpFaultsOnNonFinite : Prop :=
  ∀ n s,
    (exec (.smp n) s = .fault .nonFiniteHistory ↔
      predict s.cfg.num (.ofRat (rawValue n s.shift)) s.hist1 s.hist2 (s.cfg.coef s.pred) = none) ∧
    (s.cidx < s.pcm.length → (∃ t, exec (.smp n) s = .next t) ∨ exec (.smp n) s = .fault .nonFiniteHistory)

/-- R20, R140, R125, R126: what `SMP` and `DEC` leave unchanged: the inputs, CDX's registers, `CIDX`, `HALT`, every other
stream. `SMP` leaves the latches and `FPOS` too. -/
def Obligations.SampleFrame : Prop :=
  ∀ i s t, ((∃ n, i = .smp n) ∨ (∃ f, i = .dec f)) → exec i s = .next t →
    SameInputs s t ∧ SameCdx s t ∧ t.cidx = s.cidx ∧ t.halt = s.halt ∧ t.phase = s.phase ∧
      SameStreamsBut s.cidx s t ∧ ((∃ n, i = .smp n) → SameLatches s t ∧ t.fpos = s.fpos)

/-! ### NUM -/

/-- R147 as the spec reads it, its decision D5 where the document's words leave the rounding open: `to_pcm(x)` is the integer
part, toward zero, of `x` clamped to the 16-bit range, and truncating before clamping gives the same. -/
def Obligations.ToPcmClampsAndTruncates : Prop :=
  ∀ x : Rat,
    (toPcm x).toInt =
      (if x ≤ -32768 then -32768 else if 32767 ≤ x then 32767 else if 0 ≤ x then ⌊x⌋ else ⌈x⌉) ∧
    (toPcm x).toInt = max (-32768) (min 32767 (truncRat x))

/-- R149: rounding gives a binary64 value, none is nearer, and on a tie the result is the even multiple of the gap. -/
def Obligations.RoundsToNearestEven : Prop :=
  ∀ q r : Rat, round64 q = some r →
    Binary64Value r ∧
    (∀ x, Binary64Value x → |q - r| ≤ |q - x|) ∧
    (∀ x, Binary64Value x → x ≠ r → |q - x| = |q - r| →
      ∃ (m : Int) (e : Int), r = ((2 * m : Int) : Rat) * (2 : Rat) ^ e ∧ |r - x| = (2 : Rat) ^ e)

/-- R149, R208: rounding overflows exactly from the midpoint above the largest finite binary64 value on. -/
def Obligations.RoundingOverflows : Prop :=
  ∀ q : Rat, round64 q = none ↔ (2 : Rat) ^ 1024 - (2 : Rat) ^ 970 ≤ |q|

/-- R144, R148 (a): every integer of magnitude up to 32768 is itself a value of `NUM`, in both domains. -/
def Obligations.NumOfIntegerIsExact : Prop :=
  ∀ (d : NumDomain) (t : Int), -32768 ≤ t → t ≤ 32768 → InNum d (ofInt t)

/-- R151: where every product and sum of R149 is representable, the two domains predict the same. -/
def Obligations.DomainsAgreeWhenRepresentable : Prop :=
  ∀ (raw : Rat) (h1 h2 : NumVal) (c : CoefPair NumVal),
    (∀ x ∈ [h1.value * c.c0.value, raw + h1.value * c.c0.value, h2.value * c.c1.value,
      raw + h1.value * c.c0.value + h2.value * c.c1.value], Binary64Value x) →
    predict .binary64 (.ofRat raw) h1 h2 c = predict .exact (.ofRat raw) h1 h2 c

/-! ### Host side -/

/-- R180 to R184: the reconciler gives exactly `n` rates, by the first of its four cases that applies. That an override
reports nothing is the model's choice, and so are the names of the two reports (log entry 19). -/
def Obligations.ReconcilerCases : Prop :=
  ∀ (host : HostConfig) (n : Nat) (rates : List (BitVec 16)),
    (reconcile host n rates).1.length = n ∧
    (∀ r, host.overrideRate = some r → reconcile host n rates = (List.replicate n r, [])) ∧
    (host.overrideRate = none → rates = [] →
      reconcile host n rates = (List.replicate n host.defaultRate, [.defaultRateUsed])) ∧
    (host.overrideRate = none → rates ≠ [] → rates.length < n →
      (reconcile host n rates).2 = [.shortTable] ∧
      ∀ i, i < n → (reconcile host n rates).1[i]? = (rates[min i (rates.length - 1)]?).map BitVec.toNat) ∧
    (host.overrideRate = none → rates ≠ [] → n ≤ rates.length →
      reconcile host n rates = ((rates.take n).map BitVec.toNat, []))

/-- R172, R176: the tag found is the first one standing at 4, 12, 20, ... with 8 bytes from its loop cursor on. -/
def Obligations.HdScanFindsFirstTag : Prop :=
  ∀ order H,
    (∀ c, hdScan order H (H.length / 8) 0 = some c → c % 8 = 4 ∧ c + 4 ≤ H.length ∧
      (H.drop c).take 4 = tagBytes order ∧
      ∀ j, 8 * j + 4 < c → (H.drop (8 * j + 4)).take 4 ≠ tagBytes order) ∧
    (hdScan order H (H.length / 8) 0 = none →
      ∀ j, 8 * j + 8 ≤ H.length → (H.drop (8 * j + 4)).take 4 ≠ tagBytes order)

/-- R174, R175, R178, where a table is found: `maxIndex` stands 8 bytes after the tag, the offsets 12 bytes after it, each
relative to the tag, and each rate at its offset, the bytes read by `hdInt32` and `hdWord16` (little-endian, D21). That a
table found has no negative `maxIndex` and no negative offset is the model's choice where R179 leaves it open (log
entry 18). -/
def Obligations.HdTableLayout : Prop :=
  ∀ order H rates, readHd order H = .found rates →
    ∃ (c : Nat) (m : Int), hdScan order H (H.length / 8) 0 = some c ∧ hdInt32 H (c + 8) = some m ∧
      0 ≤ m ∧ (rates.length : Int) = m + 1 ∧
      ∀ (e : Nat) (rate : BitVec 16), rates[e]? = some rate →
        ∃ offset : Int, hdInt32 H (c + 12 + 4 * e) = some offset ∧ 0 ≤ offset ∧
          hdWord16 H (c + offset.toNat) = some rate

/-- R185, R186, R188: from the bd blob and a block in any state whose `FPOS` and `K` are within their ranges of R20, the
orchestrator emits one mono 16-bit stream per clip of `Split(B)`, in clip order, each with the samples of its decode and
its reconciled rate. It aborts where there is no bd blob. The premise of a defined decode leaves out the numeric fault R208.
The premise on the hd file leaves out the refused table, which the last clause states (log entry 18). That an override looks
at no hd file is R181 as the model takes it (log entry 19). -/
def Obligations.OneStreamPerClip : Prop :=
  (∀ host hd s, orchestrate host hd none s = .noBlob) ∧
  ∀ host hd blob s pcm, FrameCursorOk s → decodeBlob s.cfg blob = some pcm →
    (∀ rates warnings, (host.overrideRate = none → hdRates host hd = some (rates, warnings)) →
      ∃ out w, orchestrate host hd (some blob) s = .streams out w ∧
        out.length = (split blob).length ∧ out.map Stream.samples = pcm ∧
        out.map Stream.sampleRate = (reconcile host (split blob).length rates).1 ∧
        ∀ st ∈ out, st.channelCount = 1 ∧ st.bitsPerSample = 16) ∧
    (host.overrideRate = none → hdRates host hd = none → orchestrate host hd (some blob) s = .hdRefused)
end

