-- ==== Sys2Proof/Laws/Mem.lean ====
section
/-! SUPPORT. The memory of the blob: every operation keeps the canonical form, a read after a write, and the bytes a load
lays down (R51, R52). -/

namespace Sys2Proof.Machine

/-! ### Canonical form -/

theorem Mem.wfFrom_mono {lo hi : Nat} (h : lo ≤ hi) : ∀ m : Mem, Mem.wfFrom hi m = true → Mem.wfFrom lo m = true
  | [], _ => rfl
  | (a, b) :: cells, hm => by
    simp only [Mem.wfFrom, Bool.and_eq_true, decide_eq_true_eq] at hm ⊢
    exact ⟨⟨h.trans hm.1.1, hm.1.2⟩, hm.2⟩

/-- A store keeps the canonical form. -/
theorem Mem.write_wfFrom (x : Nat) (v : Byte) :
    ∀ (m : Mem) (lo : Nat), lo ≤ x → Mem.wfFrom lo m = true → Mem.wfFrom lo (m.write x v) = true
  | [], lo, hx, _ => by
    unfold Mem.write
    split
    · rfl
    · simp_all [Mem.wfFrom]
  | (a, b) :: cells, lo, hx, hm => by
    simp only [Mem.wfFrom, Bool.and_eq_true, decide_eq_true_eq, bne_iff_ne] at hm
    obtain ⟨⟨ha, hb⟩, hc⟩ := hm
    unfold Mem.write
    by_cases h1 : x < a
    · by_cases hv : v = unlistedByte
      · simp [h1, hv, Mem.wfFrom, ha, hb, hc]
      · simp only [h1, hv, if_true, if_false, Mem.wfFrom, Bool.and_eq_true, decide_eq_true_eq, bne_iff_ne]
        exact ⟨⟨hx, hv⟩, ⟨by omega, hb⟩, hc⟩
    · by_cases h2 : x = a
      · subst h2
        by_cases hv : v = unlistedByte
        · simp only [h1, hv, if_true, if_false]
          exact Mem.wfFrom_mono (by omega) _ hc
        · simp only [h1, hv, if_true, if_false, Mem.wfFrom, Bool.and_eq_true, decide_eq_true_eq, bne_iff_ne]
          exact ⟨⟨ha, hv⟩, hc⟩
      · simp only [h1, h2, if_false, Mem.wfFrom, Bool.and_eq_true, decide_eq_true_eq, bne_iff_ne]
        exact ⟨⟨ha, hb⟩, Mem.write_wfFrom x v cells (a + 1) (by omega) hc⟩

theorem Mem.write_wf (m : Mem) (x : Nat) (v : Byte) (h : m.wf = true) : (m.write x v).wf = true :=
  Mem.write_wfFrom x v m 0 (Nat.zero_le x) h

/-- A store of consecutive bytes keeps the canonical form. -/
theorem Mem.writeBytes_wf (vs : List Byte) :
    ∀ (m : Mem) (x : Nat), m.wf = true → (m.writeBytes x vs).wf = true := by
  induction vs with
  | nil => exact fun m x h => h
  | cons v vs ih => exact fun m x h => ih (m.write x v) (x + 1) (Mem.write_wf m x v h)

/-- Dropping cells keeps the canonical form. -/
theorem Mem.filter_wfFrom (p : Host.Cell → Bool) :
    ∀ (m : Mem) (lo : Nat), Mem.wfFrom lo m = true → Mem.wfFrom lo (m.filter p) = true
  | [], _, _ => rfl
  | (a, b) :: cells, lo, hm => by
    have hc : Mem.wfFrom (a + 1) cells = true := by simp_all [Mem.wfFrom]
    have ih := Mem.filter_wfFrom p cells (a + 1) hc
    by_cases hp : p (a, b) = true
    · simp_all [Mem.wfFrom]
    · simp only [List.filter_cons_of_neg hp]
      refine Mem.wfFrom_mono ?_ _ ih
      simp_all [Mem.wfFrom]
      omega

/-- A loaded byte sequence is in canonical form. -/
theorem Mem.ofBytes_wfFrom (vs : List Byte) : ∀ x : Nat, Mem.wfFrom x (Mem.ofBytes x vs) = true := by
  induction vs with
  | nil => exact fun _ => rfl
  | cons v vs ih =>
    intro x
    unfold Mem.ofBytes
    split
    · exact Mem.wfFrom_mono (Nat.le_succ x) _ (ih (x + 1))
    · simp_all [Mem.wfFrom]

theorem Mem.ofBytes_wf (vs : List Byte) : (Mem.ofBytes 0 vs).wf = true := Mem.ofBytes_wfFrom vs 0

/-- A loaded byte sequence lists no address outside itself. -/
theorem Mem.ofBytes_below (vs : List Byte) : ∀ x : Nat, (Mem.ofBytes x vs).below (x + vs.length) = true := by
  induction vs with
  | nil => exact fun _ => rfl
  | cons v vs ih =>
    intro x
    have h := ih (x + 1)
    have hl : x + 1 + vs.length = x + (v :: vs).length := by simp; omega
    rw [hl] at h
    unfold Mem.ofBytes
    split
    · exact h
    · simp only [Mem.below, List.all_cons, Bool.and_eq_true, decide_eq_true_eq] at h ⊢
      exact ⟨by simp, h⟩

/-- The canonical form holds at reset, at every run start, and after every placing of a unit. -/
theorem reset_mem_wf : State.reset.bd.wf = true := rfl

theorem runStart_mem_wf (blob : List Byte) (s : State) : (runStart blob s).bd.wf = true := Mem.ofBytes_wf blob

theorem place_mem_wf (u : Fetched) (s : State) (h : s.bd.wf = true) : (place u s).bd.wf = true := by
  cases u with
  | row bytes => exact Mem.filter_wfFrom _ _ 0 (Mem.writeBytes_wf bytes s.bd s.rpos h)
  | clip _ => exact h
  | frame _ => exact h
  | residual _ => exact h

/-! ### Reads -/

/-- Below its first cell a canonical memory reads as unlisted. -/
theorem Mem.read_below : ∀ (m : Mem) (lo x : Nat), Mem.wfFrom lo m = true → x < lo → m.read x = unlistedByte
  | [], _, _, _, _ => rfl
  | (a, b) :: cells, lo, x, hm, hx => by
    simp only [Mem.wfFrom, Bool.and_eq_true, decide_eq_true_eq] at hm
    have hne : x ≠ a := by omega
    simp only [Mem.read, hne, if_false]
    exact Mem.read_below cells (a + 1) x hm.2 (by omega)

/-- A read at the address stored to gives the byte stored, a read elsewhere what it gave before. -/
theorem Mem.read_write (x y : Nat) (v : Byte) :
    ∀ (m : Mem) (lo : Nat), Mem.wfFrom lo m = true → (m.write x v).read y = if y = x then v else m.read y
  | [], _, _ => by
    unfold Mem.write
    split <;> simp_all [Mem.read]
  | (a, b) :: cells, lo, hm => by
    simp only [Mem.wfFrom, Bool.and_eq_true, decide_eq_true_eq, bne_iff_ne] at hm
    obtain ⟨⟨ha, hb⟩, hc⟩ := hm
    have below : ∀ z, z < a + 1 → Mem.read cells z = unlistedByte :=
      fun z hz => Mem.read_below cells (a + 1) z hc hz
    unfold Mem.write
    by_cases h1 : x < a
    · by_cases hv : v = unlistedByte
      · simp only [h1, hv, if_true]
        by_cases hy : y = x
        · subst hy
          have : y ≠ a := by omega
          simp [Mem.read, this, below y (by omega)]
        · simp [hy]
      · simp [h1, hv, Mem.read]
    · by_cases h2 : x = a
      · subst h2
        by_cases hv : v = unlistedByte
        · simp only [h1, hv, if_true, if_false]
          by_cases hy : y = x
          · subst hy
            simp [below y (by omega)]
          · simp [hy, Mem.read]
        · simp only [h1, hv, if_true, if_false, Mem.read]
          by_cases hy : y = x <;> simp [hy]
      · have ih := Mem.read_write x y v cells (a + 1) hc
        simp only [h1, h2, if_false, Mem.read, ih]
        by_cases hy : y = a
        · subst hy
          have : y ≠ x := by omega
          simp [this]
        · simp [hy]

/-- A store of consecutive bytes reads back inside its range, and leaves every other address alone. -/
theorem Mem.read_writeBytes : ∀ (vs : List Byte) (m : Mem) (x y : Nat), m.wf = true →
    (m.writeBytes x vs).read y =
      if x ≤ y ∧ y < x + vs.length then vs.getD (y - x) unlistedByte else m.read y
  | [], m, x, y, _ => by
    simp [Mem.writeBytes]
  | v :: vs, m, x, y, h => by
    rw [Mem.writeBytes, Mem.read_writeBytes vs (m.write x v) (x + 1) y (Mem.write_wf m x v h),
      Mem.read_write x y v m 0 h]
    by_cases h1 : y = x
    · subst h1
      simp
    · by_cases h2 : x + 1 ≤ y ∧ y < x + 1 + vs.length
      · have h3 : x ≤ y ∧ y < x + (v :: vs).length := by simp; omega
        rw [if_pos h2, if_pos h3, show y - x = y - (x + 1) + 1 by omega]
        simp
      · have h3 : ¬ (x ≤ y ∧ y < x + (v :: vs).length) := by simp; omega
        rw [if_neg h2, if_neg h3, if_neg h1]

/-- Dropping the cells from an address on leaves every byte below it. -/
theorem Mem.read_filter_lt (stop : Nat) : ∀ (m : Mem) (y : Nat), y < stop →
    Mem.read (m.filter fun c => decide (c.1 < stop)) y = m.read y
  | [], _, _ => rfl
  | (a, b) :: m, y, h => by
    by_cases hp : a < stop
    · rw [List.filter_cons_of_pos (by simpa using hp)]
      simp only [Mem.read, Mem.read_filter_lt stop m y h]
    · have hne : y ≠ a := by omega
      rw [List.filter_cons_of_neg (by simpa using hp), Mem.read_filter_lt stop m y h]
      simp [Mem.read, hne]

/-- A loaded byte sequence reads back, and every other address reads as unlisted. -/
theorem Mem.read_ofBytes (vs : List Byte) :
    ∀ x y : Nat, x ≤ y → (Mem.ofBytes x vs).read y = vs.getD (y - x) unlistedByte := by
  induction vs with
  | nil => intro x y _; simp [Mem.ofBytes, Mem.read]
  | cons v vs ih =>
    intro x y hxy
    have rest : ∀ z, x + 1 ≤ z → (Mem.ofBytes (x + 1) vs).read z = (v :: vs).getD (z - x) unlistedByte := by
      intro z hz
      have hd : z - x = z - (x + 1) + 1 := by omega
      rw [ih (x + 1) z hz, hd]
      simp
    by_cases hy : y = x
    · subst hy
      unfold Mem.ofBytes
      split
      · rename_i hv
        rw [Mem.read_below _ (y + 1) y (Mem.ofBytes_wfFrom vs (y + 1)) (Nat.lt_succ_self y)]
        simp [hv]
      · simp [Mem.read]
    · unfold Mem.ofBytes
      split
      · exact rest y (by omega)
      · simp only [Mem.read, hy, if_false]
        exact rest y (by omega)

/-! ### The blob as a byte sequence -/

@[simp] theorem blobOf_length (s : State) : (blobOf s).length = s.len := by simp [blobOf]

theorem blobOf_getElem? (s : State) (a : Nat) : (blobOf s)[a]? = memRead s a := by
  unfold blobOf memRead
  by_cases h : a < s.len <;> simp [h]

/-- The blob after a load is the byte sequence loaded. -/
theorem blobOf_runStart (blob : List Byte) (s : State) : blobOf (runStart blob s) = blob := by
  apply List.ext_getElem?
  intro a
  rw [blobOf_getElem?]
  unfold memRead runStart
  by_cases h : a < blob.length
  · simp [h, Mem.read_ofBytes blob 0 a (Nat.zero_le a)]
  · simp [h]

/-- Consecutive reads inside the blob give a range of it. -/
theorem readBytes_eq (s : State) : ∀ (n a : Nat), a + n ≤ s.len → readBytes s a n = some (blobRange s a n)
  | 0, a, _ => by simp [readBytes, blobRange]
  | n + 1, a, h => by
    have hlt : a < (blobOf s).length := by simp; omega
    have hread : memRead s a = some (blobOf s)[a] := by
      rw [← blobOf_getElem?, List.getElem?_eq_getElem hlt]
    have hcons : blobRange s a (n + 1) = (blobOf s)[a] :: blobRange s (a + 1) n := by
      unfold blobRange
      rw [List.drop_eq_getElem_cons hlt, List.take_succ_cons]
    simp only [readBytes, hread, readBytes_eq s n (a + 1) (by omega), hcons]

theorem blobRange_congr {s t : State} (hb : t.bd = s.bd) (hl : t.len = s.len) (a n : Nat) :
    blobRange t a n = blobRange s a n := by simp [blobRange, blobOf, hb, hl]

/-- Two adjacent ranges make one. -/
theorem blobRange_append (s : State) (a r n : Nat) (h : a ≤ r) :
    blobRange s a (r - a) ++ blobRange s r n = blobRange s a (r + n - a) := by
  have e : r + n - a = r - a + n := by omega
  have e' : (blobOf s).drop r = ((blobOf s).drop a).drop (r - a) := by
    rw [List.drop_drop]
    congr 1
    omega
  unfold blobRange
  rw [e, List.take_add, e']

@[simp] theorem blobRange_length (s : State) (a n : Nat) : (blobRange s a n).length = min n (s.len - a) := by
  simp [blobRange]

end Sys2Proof.Machine
end

