-- ==== Sys2Proof/Laws/Num.lean ====
section
/-! SUPPORT. What each operation of the numeric domain answers (R144 to R150). -/

namespace Sys2Proof.Machine

@[simp] theorem roundNum_exact (q : Rat) : roundNum .exact q = some q := rfl

@[simp] theorem roundNum_binary64 (q : Rat) : roundNum .binary64 q = round64 q := rfl

@[simp] theorem round64_zero : round64 0 = some 0 := by simp [round64]

/-- Zero is a value of both domains. -/
@[simp] theorem roundNum_zero (d : NumDomain) : roundNum d 0 = some 0 := by cases d <;> simp

/-! ### values and signs -/

@[simp] theorem value_ofRat (q : Rat) : (NumVal.ofRat q).value = q := rfl

@[simp] theorem value_negZero : NumVal.negZero.value = 0 := rfl

@[simp] theorem value_ofInt (t : Int) : (ofInt t).value = t := rfl

@[simp] theorem negative_ofRat (q : Rat) : (NumVal.ofRat q).negative = decide (q < 0) := rfl

@[simp] theorem negative_negZero : NumVal.negZero.negative = true := rfl

@[simp] theorem withSign_exact (neg : Bool) (q : Rat) : withSign .exact neg q = .ofRat q := rfl

/-- The sign never changes the number. -/
@[simp] theorem value_withSign (d : NumDomain) (neg : Bool) (q : Rat) : (withSign d neg q).value = q := by
  cases d with
  | exact => rfl
  | binary64 =>
    unfold withSign
    simp only
    split
    · rename_i h
      exact h.1.symm
    · rfl

/-- Where no negative zero can stand the sign plays no part. -/
theorem withSign_eq_ofRat {d : NumDomain} {neg : Bool} {q : Rat} (h : q = 0 → neg = false) :
    withSign d neg q = .ofRat q := by
  cases d with
  | exact => rfl
  | binary64 =>
    unfold withSign
    rw [if_neg]
    rintro ⟨h0, hn⟩
    rw [h h0] at hn
    cases hn

/-- A value with the sign bit is not positive. -/
theorem value_nonpos_of_negative {x : NumVal} (h : x.negative = true) : x.value ≤ 0 := by
  cases x with
  | ofRat q => exact (of_decide_eq_true h).le
  | negZero => exact le_refl _

/-- A value with the sign given to it is in the domain if the value is. -/
theorem inNum_withSign {d : NumDomain} {q : Rat} (neg : Bool) (h : roundNum d q = some q) : InNum d (withSign d neg q) := by
  cases d with
  | exact => exact h
  | binary64 =>
    unfold withSign
    simp only
    split
    · rfl
    · exact h

theorem addNum_eq_some {d : NumDomain} {a b c : NumVal} :
    addNum d a b = some c ↔
      ∃ q, roundNum d (a.value + b.value) = some q ∧ c = withSign d (a.negative && b.negative) q := by
  simp [addNum, eq_comm]

theorem mulNum_eq_some {d : NumDomain} {a b c : NumVal} :
    mulNum d a b = some c ↔
      ∃ q, roundNum d (a.value * b.value) = some q ∧ c = withSign d (a.negative ^^ b.negative) q := by
  simp [mulNum, eq_comm]

@[simp] theorem addNum_exact (a b : NumVal) : addNum .exact a b = some (.ofRat (a.value + b.value)) := rfl

@[simp] theorem mulNum_exact (a b : NumVal) : mulNum .exact a b = some (.ofRat (a.value * b.value)) := rfl

/-- With the exact domain the prediction is the formula of R145 and always exists. -/
@[simp] theorem predict_exact (raw h1 h2 : NumVal) (c : CoefPair NumVal) :
    predict .exact raw h1 h2 c = some (.ofRat (raw.value + h1.value * c.c0.value + h2.value * c.c1.value)) := rfl

/-- `-0.0` or `+0.0` added to a value that is not `-0.0` itself leaves the value (R154). -/
theorem addNum_zero {d : NumDomain} {q : Rat} {z : NumVal} (h : roundNum d q = some q) (hz : z.value = 0) :
    addNum d (.ofRat q) z = some (.ofRat q) := by
  refine addNum_eq_some.2 ⟨q, by simpa [hz] using h, (withSign_eq_ofRat fun h0 => ?_).symm⟩
  simp [h0]

/-- A zero coefficient pair contributes nothing: the prediction is the raw value, if that is a value of the domain. -/
theorem predict_zero_coef (d : NumDomain) (raw : Rat) (h1 h2 : NumVal) (h : roundNum d raw = some raw) :
    predict d (.ofRat raw) h1 h2 ⟨ofInt 0, ofInt 0⟩ = some (.ofRat raw) := by
  have hz : ∀ x : NumVal, ∃ z, mulNum d x (ofInt 0) = some z ∧ z.value = 0 := fun x =>
    ⟨_, mulNum_eq_some.2 ⟨0, by simp, rfl⟩, by simp⟩
  obtain ⟨z0, e0, v0⟩ := hz h1
  obtain ⟨z1, e1, v1⟩ := hz h2
  simp [predict, e0, e1, addNum_zero h v0, addNum_zero h v1]

/-- A prediction is the last of the two sums. -/
theorem predict_eq_some {d : NumDomain} {raw h1 h2 new : NumVal} {c : CoefPair NumVal}
    (h : predict d raw h1 h2 c = some new) :
    ∃ p0 a p1, mulNum d h1 c.c0 = some p0 ∧ addNum d raw p0 = some a ∧ mulNum d h2 c.c1 = some p1 ∧
      addNum d a p1 = some new := by
  simp only [predict, Option.bind_eq_some_iff] at h
  obtain ⟨p0, e0, a, ea, p1, e1, h⟩ := h
  exact ⟨p0, a, p1, e0, ea, e1, h⟩

/-- Entry 0 of the coefficient table (R9). -/
@[simp] theorem coef_zero (cfg : Config) : cfg.coef 0 = ⟨ofInt 0, ofInt 0⟩ := by
  unfold Config.coef
  cases cfg.table <;> rfl

/-! ### truncation -/

theorem truncRat_of_nonneg (x : Rat) (h : 0 ≤ x) : truncRat x = ⌊x⌋ := by
  unfold truncRat
  rw [Int.tdiv_eq_ediv_of_nonneg (Rat.num_nonneg.2 h)]
  exact (Rat.floor_def x).symm.trans rfl

theorem truncRat_neg (x : Rat) : truncRat (-x) = -truncRat x := by simp [truncRat]

theorem truncRat_of_nonpos (x : Rat) (h : x ≤ 0) : truncRat x = ⌈x⌉ := by
  have h' := truncRat_of_nonneg (-x) (by linarith)
  rw [truncRat_neg, Int.floor_neg] at h'
  omega

/-! ### the parts of the binary64 rounding -/

theorem scaled_eq (m : Nat) (e : Int) : scaled m e = (m : Rat) * (2 : Rat) ^ e := by
  unfold scaled
  split
  · rename_i h
    obtain ⟨k, rfl⟩ := Int.eq_ofNat_of_zero_le h
    simp
  · rename_i h
    obtain ⟨k, hk⟩ := Int.eq_ofNat_of_zero_le (show 0 ≤ -e by omega)
    obtain rfl : e = -(k : Int) := by omega
    simp
    rfl

theorem roundMagnitude_nonneg (n d : Nat) : 0 ≤ roundMagnitude n d := by
  unfold roundMagnitude
  simp only [scaled_eq]
  positivity

/-- `2 ^ log2 n` is the power of two just below `n`. -/
theorem two_zpow_log2 (n : Nat) (hn : 0 < n) :
    (2 : Rat) ^ (n.log2 : Int) ≤ n ∧ (n : Rat) < (2 : Rat) ^ ((n.log2 : Int) + 1) := by
  have up : n < 2 ^ (n.log2 + 1) := (Nat.log2_lt hn.ne').1 (Nat.lt_succ_self _)
  have cast : ((n.log2 : Int) + 1) = ((n.log2 + 1 : Nat) : Int) := by push_cast; rfl
  rw [cast, zpow_natCast, zpow_natCast]
  exact ⟨by exact_mod_cast Nat.log2_self_le hn.ne', by exact_mod_cast up⟩

/-- The comparison `floorLog2` makes is the one of the power of two with the quotient. -/
theorem pow_le_quotient_iff (n d : Nat) (l : Int) (hd : 0 < d) :
    d * 2 ^ l.toNat ≤ n * 2 ^ (-l).toNat ↔ (2 : Rat) ^ l ≤ n / d := by
  have hdq : (0 : Rat) < d := by exact_mod_cast hd
  rw [le_div_iff₀ hdq]
  rcases le_total 0 l with h | h
  · obtain ⟨k, rfl⟩ := Int.eq_ofNat_of_zero_le h
    simp only [Int.toNat_natCast, Int.toNat_neg_natCast, pow_zero, mul_one, zpow_natCast, mul_comm d]
    exact_mod_cast Iff.rfl
  · obtain ⟨k, hk⟩ := Int.eq_ofNat_of_zero_le (show 0 ≤ -l by omega)
    obtain rfl : l = -(k : Int) := by omega
    simp only [Int.toNat_neg_natCast, neg_neg, Int.toNat_natCast, pow_zero, mul_one, zpow_neg, zpow_natCast]
    rw [inv_mul_le_iff₀ (by positivity), mul_comm]
    exact_mod_cast Iff.rfl

/-- The exponent found is that of the quotient. -/
theorem floorLog2_spec (n d : Nat) (hn : 0 < n) (hd : 0 < d) :
    (2 : Rat) ^ floorLog2 n d ≤ n / d ∧ (n : Rat) / d < (2 : Rat) ^ (floorLog2 n d + 1) := by
  have hdq : (0 : Rat) < d := by exact_mod_cast hd
  obtain ⟨n1, n2⟩ := two_zpow_log2 n hn
  obtain ⟨d1, d2⟩ := two_zpow_log2 d hd
  unfold floorLog2
  set l : Int := (n.log2 : Int) - (d.log2 : Int) with hl
  have up : (n : Rat) / d < (2 : Rat) ^ (l + 1) := by
    rw [div_lt_iff₀ hdq]
    calc (n : Rat) < (2 : Rat) ^ ((n.log2 : Int) + 1) := n2
      _ = (2 : Rat) ^ (l + 1) * (2 : Rat) ^ (d.log2 : Int) := by
        rw [← zpow_add₀ (by norm_num)]
        congr 1
        omega
      _ ≤ _ := by gcongr
  have low : (2 : Rat) ^ (l - 1) < n / d := by
    rw [lt_div_iff₀ hdq]
    calc (2 : Rat) ^ (l - 1) * d < (2 : Rat) ^ (l - 1) * (2 : Rat) ^ ((d.log2 : Int) + 1) := by gcongr
      _ = (2 : Rat) ^ (n.log2 : Int) := by
        rw [← zpow_add₀ (by norm_num)]
        congr 1
        omega
      _ ≤ n := n1
  simp only
  split
  · rename_i h
    exact ⟨(pow_le_quotient_iff n d l hd).1 h, up⟩
  · rename_i h
    have h' := not_le.1 (mt (pow_le_quotient_iff n d l hd).2 h)
    exact ⟨low.le, by simpa using h'⟩

/-- The integer found is nearest to the quotient, and even on a tie. -/
theorem divNearestEven_spec (n d : Nat) (hd : 0 < d) :
    |(n : Rat) / d - divNearestEven n d| ≤ 1 / 2 ∧
    (|(n : Rat) / d - divNearestEven n d| = 1 / 2 → divNearestEven n d % 2 = 0) := by
  have hdq : (0 : Rat) < d := by exact_mod_cast hd
  have hlt := Nat.mod_lt n hd
  have e : (n : Rat) / d = (n / d : Nat) + ((n % d : Nat) : Rat) / d := by
    have h := Nat.div_add_mod n d
    field_simp
    exact_mod_cast h.symm
  have f0 : (0 : Rat) ≤ ((n % d : Nat) : Rat) / d := by positivity
  have f1 : ((n % d : Nat) : Rat) / d < 1 := by
    rw [div_lt_one hdq]
    exact_mod_cast hlt
  unfold divNearestEven
  simp only
  rw [e]
  split
  · rename_i h
    have hq : (2 * (n % d : Nat) : Rat) < d := by exact_mod_cast h
    have hf : ((n % d : Nat) : Rat) / d < 1 / 2 := by
      rw [div_lt_div_iff₀ hdq (by norm_num)]
      linarith
    rw [add_sub_cancel_left, abs_of_nonneg f0]
    exact ⟨hf.le, fun h => absurd h hf.ne⟩
  · rename_i h
    split
    · rename_i h'
      have hq : (d : Rat) < (2 * (n % d : Nat) : Rat) := by exact_mod_cast h'
      have hf : (1 : Rat) / 2 < ((n % d : Nat) : Rat) / d := by
        rw [div_lt_div_iff₀ (by norm_num) hdq]
        linarith
      have e' : ((n / d : Nat) : Rat) + ((n % d : Nat) : Rat) / d - ((n / d + 1 : Nat) : Rat)
          = ((n % d : Nat) : Rat) / d - 1 := by
        push_cast
        ring
      rw [e', abs_of_nonpos (by linarith)]
      exact ⟨by linarith, fun h => by linarith⟩
    · rename_i h'
      have h2 : d = 2 * (n % d) := by omega
      have hq : (d : Rat) = (2 * (n % d : Nat) : Rat) := by exact_mod_cast h2
      have hf : ((n % d : Nat) : Rat) / d = 1 / 2 := by
        rw [div_eq_div_iff hdq.ne' (by norm_num)]
        linarith
      rw [hf]
      split
      · rename_i hq
        rw [add_sub_cancel_left]
        norm_num
        omega
      · rename_i hq
        have e' : ((n / d : Nat) : Rat) + 1 / 2 - ((n / d + 1 : Nat) : Rat) = -(1 / 2) := by
          push_cast
          ring
        rw [e']
        norm_num
        omega

end Sys2Proof.Machine
end

