-- ==== Sys2Proof/Laws/State.lean ====
section
/-! SUPPORT. What each named update of the state does to each field: one lemma per field per update, true by rfl. -/

namespace Sys2Proof.Machine

/-! ### advanceRow -/

@[simp] theorem advanceRow_bd (n : Nat) (s : State) : (advanceRow n s).bd = s.bd := rfl
@[simp] theorem advanceRow_len (n : Nat) (s : State) : (advanceRow n s).len = s.len := rfl
@[simp] theorem advanceRow_rpos (n : Nat) (s : State) : (advanceRow n s).rpos = s.rpos + n := rfl
@[simp] theorem advanceRow_acc (n : Nat) (s : State) : (advanceRow n s).acc = s.acc := rfl
@[simp] theorem advanceRow_accNe (n : Nat) (s : State) : (advanceRow n s).accNe = s.accNe := rfl
@[simp] theorem advanceRow_clips (n : Nat) (s : State) : (advanceRow n s).clips = s.clips := rfl
@[simp] theorem advanceRow_hist1 (n : Nat) (s : State) : (advanceRow n s).hist1 = s.hist1 := rfl
@[simp] theorem advanceRow_hist2 (n : Nat) (s : State) : (advanceRow n s).hist2 = s.hist2 := rfl
@[simp] theorem advanceRow_shift (n : Nat) (s : State) : (advanceRow n s).shift = s.shift := rfl
@[simp] theorem advanceRow_pred (n : Nat) (s : State) : (advanceRow n s).pred = s.pred := rfl
@[simp] theorem advanceRow_flag (n : Nat) (s : State) : (advanceRow n s).flag = s.flag := rfl
@[simp] theorem advanceRow_nib (n : Nat) (s : State) : (advanceRow n s).nib = s.nib := rfl
@[simp] theorem advanceRow_fpos (n : Nat) (s : State) : (advanceRow n s).fpos = s.fpos := rfl
@[simp] theorem advanceRow_k (n : Nat) (s : State) : (advanceRow n s).k = s.k := rfl
@[simp] theorem advanceRow_halt (n : Nat) (s : State) : (advanceRow n s).halt = s.halt := rfl
@[simp] theorem advanceRow_cidx (n : Nat) (s : State) : (advanceRow n s).cidx = s.cidx := rfl
@[simp] theorem advanceRow_pcm (n : Nat) (s : State) : (advanceRow n s).pcm = s.pcm := rfl
@[simp] theorem advanceRow_phase (n : Nat) (s : State) : (advanceRow n s).phase = s.phase := rfl
@[simp] theorem advanceRow_cfg (n : Nat) (s : State) : (advanceRow n s).cfg = s.cfg := rfl

/-! ### appendAcc -/

@[simp] theorem appendAcc_bd (row : List Byte) (s : State) : (appendAcc row s).bd = s.bd := rfl
@[simp] theorem appendAcc_len (row : List Byte) (s : State) : (appendAcc row s).len = s.len := rfl
@[simp] theorem appendAcc_rpos (row : List Byte) (s : State) : (appendAcc row s).rpos = s.rpos := rfl
@[simp] theorem appendAcc_acc (row : List Byte) (s : State) : (appendAcc row s).acc = s.acc ++ row := rfl
@[simp] theorem appendAcc_accNe (row : List Byte) (s : State) : (appendAcc row s).accNe = true := rfl
@[simp] theorem appendAcc_clips (row : List Byte) (s : State) : (appendAcc row s).clips = s.clips := rfl
@[simp] theorem appendAcc_hist1 (row : List Byte) (s : State) : (appendAcc row s).hist1 = s.hist1 := rfl
@[simp] theorem appendAcc_hist2 (row : List Byte) (s : State) : (appendAcc row s).hist2 = s.hist2 := rfl
@[simp] theorem appendAcc_shift (row : List Byte) (s : State) : (appendAcc row s).shift = s.shift := rfl
@[simp] theorem appendAcc_pred (row : List Byte) (s : State) : (appendAcc row s).pred = s.pred := rfl
@[simp] theorem appendAcc_flag (row : List Byte) (s : State) : (appendAcc row s).flag = s.flag := rfl
@[simp] theorem appendAcc_nib (row : List Byte) (s : State) : (appendAcc row s).nib = s.nib := rfl
@[simp] theorem appendAcc_fpos (row : List Byte) (s : State) : (appendAcc row s).fpos = s.fpos := rfl
@[simp] theorem appendAcc_k (row : List Byte) (s : State) : (appendAcc row s).k = s.k := rfl
@[simp] theorem appendAcc_halt (row : List Byte) (s : State) : (appendAcc row s).halt = s.halt := rfl
@[simp] theorem appendAcc_cidx (row : List Byte) (s : State) : (appendAcc row s).cidx = s.cidx := rfl
@[simp] theorem appendAcc_pcm (row : List Byte) (s : State) : (appendAcc row s).pcm = s.pcm := rfl
@[simp] theorem appendAcc_phase (row : List Byte) (s : State) : (appendAcc row s).phase = s.phase := rfl
@[simp] theorem appendAcc_cfg (row : List Byte) (s : State) : (appendAcc row s).cfg = s.cfg := rfl

/-! ### closeAcc -/

@[simp] theorem closeAcc_bd (s : State) : (closeAcc s).bd = s.bd := rfl
@[simp] theorem closeAcc_len (s : State) : (closeAcc s).len = s.len := rfl
@[simp] theorem closeAcc_rpos (s : State) : (closeAcc s).rpos = s.rpos := rfl
@[simp] theorem closeAcc_acc (s : State) : (closeAcc s).acc = [] := rfl
@[simp] theorem closeAcc_accNe (s : State) : (closeAcc s).accNe = false := rfl
@[simp] theorem closeAcc_clips (s : State) : (closeAcc s).clips = if s.acc.length = 0 then s.clips else s.clips ++ [s.acc] := rfl
@[simp] theorem closeAcc_hist1 (s : State) : (closeAcc s).hist1 = s.hist1 := rfl
@[simp] theorem closeAcc_hist2 (s : State) : (closeAcc s).hist2 = s.hist2 := rfl
@[simp] theorem closeAcc_shift (s : State) : (closeAcc s).shift = s.shift := rfl
@[simp] theorem closeAcc_pred (s : State) : (closeAcc s).pred = s.pred := rfl
@[simp] theorem closeAcc_flag (s : State) : (closeAcc s).flag = s.flag := rfl
@[simp] theorem closeAcc_nib (s : State) : (closeAcc s).nib = s.nib := rfl
@[simp] theorem closeAcc_fpos (s : State) : (closeAcc s).fpos = s.fpos := rfl
@[simp] theorem closeAcc_k (s : State) : (closeAcc s).k = s.k := rfl
@[simp] theorem closeAcc_halt (s : State) : (closeAcc s).halt = s.halt := rfl
@[simp] theorem closeAcc_cidx (s : State) : (closeAcc s).cidx = s.cidx := rfl
@[simp] theorem closeAcc_pcm (s : State) : (closeAcc s).pcm = s.pcm := rfl
@[simp] theorem closeAcc_phase (s : State) : (closeAcc s).phase = s.phase := rfl
@[simp] theorem closeAcc_cfg (s : State) : (closeAcc s).cfg = s.cfg := rfl

/-! ### setPhase -/

@[simp] theorem setPhase_bd (p : Phase) (s : State) : (setPhase p s).bd = s.bd := rfl
@[simp] theorem setPhase_len (p : Phase) (s : State) : (setPhase p s).len = s.len := rfl
@[simp] theorem setPhase_rpos (p : Phase) (s : State) : (setPhase p s).rpos = s.rpos := rfl
@[simp] theorem setPhase_acc (p : Phase) (s : State) : (setPhase p s).acc = s.acc := rfl
@[simp] theorem setPhase_accNe (p : Phase) (s : State) : (setPhase p s).accNe = s.accNe := rfl
@[simp] theorem setPhase_clips (p : Phase) (s : State) : (setPhase p s).clips = s.clips := rfl
@[simp] theorem setPhase_hist1 (p : Phase) (s : State) : (setPhase p s).hist1 = s.hist1 := rfl
@[simp] theorem setPhase_hist2 (p : Phase) (s : State) : (setPhase p s).hist2 = s.hist2 := rfl
@[simp] theorem setPhase_shift (p : Phase) (s : State) : (setPhase p s).shift = s.shift := rfl
@[simp] theorem setPhase_pred (p : Phase) (s : State) : (setPhase p s).pred = s.pred := rfl
@[simp] theorem setPhase_flag (p : Phase) (s : State) : (setPhase p s).flag = s.flag := rfl
@[simp] theorem setPhase_nib (p : Phase) (s : State) : (setPhase p s).nib = s.nib := rfl
@[simp] theorem setPhase_fpos (p : Phase) (s : State) : (setPhase p s).fpos = s.fpos := rfl
@[simp] theorem setPhase_k (p : Phase) (s : State) : (setPhase p s).k = s.k := rfl
@[simp] theorem setPhase_halt (p : Phase) (s : State) : (setPhase p s).halt = s.halt := rfl
@[simp] theorem setPhase_cidx (p : Phase) (s : State) : (setPhase p s).cidx = s.cidx := rfl
@[simp] theorem setPhase_pcm (p : Phase) (s : State) : (setPhase p s).pcm = s.pcm := rfl
@[simp] theorem setPhase_phase (p : Phase) (s : State) : (setPhase p s).phase = p := rfl
@[simp] theorem setPhase_cfg (p : Phase) (s : State) : (setPhase p s).cfg = s.cfg := rfl

/-! ### advanceFrame -/

@[simp] theorem advanceFrame_bd (s : State) : (advanceFrame s).bd = s.bd := rfl
@[simp] theorem advanceFrame_len (s : State) : (advanceFrame s).len = s.len := rfl
@[simp] theorem advanceFrame_rpos (s : State) : (advanceFrame s).rpos = s.rpos := rfl
@[simp] theorem advanceFrame_acc (s : State) : (advanceFrame s).acc = s.acc := rfl
@[simp] theorem advanceFrame_accNe (s : State) : (advanceFrame s).accNe = s.accNe := rfl
@[simp] theorem advanceFrame_clips (s : State) : (advanceFrame s).clips = s.clips := rfl
@[simp] theorem advanceFrame_hist1 (s : State) : (advanceFrame s).hist1 = s.hist1 := rfl
@[simp] theorem advanceFrame_hist2 (s : State) : (advanceFrame s).hist2 = s.hist2 := rfl
@[simp] theorem advanceFrame_shift (s : State) : (advanceFrame s).shift = s.shift := rfl
@[simp] theorem advanceFrame_pred (s : State) : (advanceFrame s).pred = s.pred := rfl
@[simp] theorem advanceFrame_flag (s : State) : (advanceFrame s).flag = s.flag := rfl
@[simp] theorem advanceFrame_nib (s : State) : (advanceFrame s).nib = s.nib := rfl
@[simp] theorem advanceFrame_fpos (s : State) : (advanceFrame s).fpos = s.fpos + Size.frameBytes := rfl
@[simp] theorem advanceFrame_k (s : State) : (advanceFrame s).k = s.k := rfl
@[simp] theorem advanceFrame_halt (s : State) : (advanceFrame s).halt = s.halt := rfl
@[simp] theorem advanceFrame_cidx (s : State) : (advanceFrame s).cidx = s.cidx := rfl
@[simp] theorem advanceFrame_pcm (s : State) : (advanceFrame s).pcm = s.pcm := rfl
@[simp] theorem advanceFrame_phase (s : State) : (advanceFrame s).phase = s.phase := rfl
@[simp] theorem advanceFrame_cfg (s : State) : (advanceFrame s).cfg = s.cfg := rfl

/-! ### putSample -/

@[simp] theorem putSample_bd (new : NumVal) (pcm : List (List Sample)) (s : State) : (putSample new pcm s).bd = s.bd := rfl
@[simp] theorem putSample_len (new : NumVal) (pcm : List (List Sample)) (s : State) : (putSample new pcm s).len = s.len := rfl
@[simp] theorem putSample_rpos (new : NumVal) (pcm : List (List Sample)) (s : State) : (putSample new pcm s).rpos = s.rpos := rfl
@[simp] theorem putSample_acc (new : NumVal) (pcm : List (List Sample)) (s : State) : (putSample new pcm s).acc = s.acc := rfl
@[simp] theorem putSample_accNe (new : NumVal) (pcm : List (List Sample)) (s : State) : (putSample new pcm s).accNe = s.accNe := rfl
@[simp] theorem putSample_clips (new : NumVal) (pcm : List (List Sample)) (s : State) : (putSample new pcm s).clips = s.clips := rfl
@[simp] theorem putSample_hist1 (new : NumVal) (pcm : List (List Sample)) (s : State) : (putSample new pcm s).hist1 = new := rfl
@[simp] theorem putSample_hist2 (new : NumVal) (pcm : List (List Sample)) (s : State) : (putSample new pcm s).hist2 = s.hist1 := rfl
@[simp] theorem putSample_shift (new : NumVal) (pcm : List (List Sample)) (s : State) : (putSample new pcm s).shift = s.shift := rfl
@[simp] theorem putSample_pred (new : NumVal) (pcm : List (List Sample)) (s : State) : (putSample new pcm s).pred = s.pred := rfl
@[simp] theorem putSample_flag (new : NumVal) (pcm : List (List Sample)) (s : State) : (putSample new pcm s).flag = s.flag := rfl
@[simp] theorem putSample_nib (new : NumVal) (pcm : List (List Sample)) (s : State) : (putSample new pcm s).nib = s.nib := rfl
@[simp] theorem putSample_fpos (new : NumVal) (pcm : List (List Sample)) (s : State) : (putSample new pcm s).fpos = s.fpos := rfl
@[simp] theorem putSample_k (new : NumVal) (pcm : List (List Sample)) (s : State) : (putSample new pcm s).k = s.k + 1 := rfl
@[simp] theorem putSample_halt (new : NumVal) (pcm : List (List Sample)) (s : State) : (putSample new pcm s).halt = s.halt := rfl
@[simp] theorem putSample_cidx (new : NumVal) (pcm : List (List Sample)) (s : State) : (putSample new pcm s).cidx = s.cidx := rfl
@[simp] theorem putSample_pcm (new : NumVal) (pcm : List (List Sample)) (s : State) : (putSample new pcm s).pcm = pcm := rfl
@[simp] theorem putSample_phase (new : NumVal) (pcm : List (List Sample)) (s : State) : (putSample new pcm s).phase = s.phase := rfl
@[simp] theorem putSample_cfg (new : NumVal) (pcm : List (List Sample)) (s : State) : (putSample new pcm s).cfg = s.cfg := rfl

/-! ### latchHeader -/

@[simp] theorem latchHeader_bd (shift pnib : Nib) (s : State) : (latchHeader shift pnib s).bd = s.bd := rfl
@[simp] theorem latchHeader_len (shift pnib : Nib) (s : State) : (latchHeader shift pnib s).len = s.len := rfl
@[simp] theorem latchHeader_rpos (shift pnib : Nib) (s : State) : (latchHeader shift pnib s).rpos = s.rpos := rfl
@[simp] theorem latchHeader_acc (shift pnib : Nib) (s : State) : (latchHeader shift pnib s).acc = s.acc := rfl
@[simp] theorem latchHeader_accNe (shift pnib : Nib) (s : State) : (latchHeader shift pnib s).accNe = s.accNe := rfl
@[simp] theorem latchHeader_clips (shift pnib : Nib) (s : State) : (latchHeader shift pnib s).clips = s.clips := rfl
@[simp] theorem latchHeader_hist1 (shift pnib : Nib) (s : State) : (latchHeader shift pnib s).hist1 = s.hist1 := rfl
@[simp] theorem latchHeader_hist2 (shift pnib : Nib) (s : State) : (latchHeader shift pnib s).hist2 = s.hist2 := rfl
@[simp] theorem latchHeader_shift (shift pnib : Nib) (s : State) : (latchHeader shift pnib s).shift = shift := rfl
@[simp] theorem latchHeader_pred (shift pnib : Nib) (s : State) : (latchHeader shift pnib s).pred = clampPred pnib := rfl
@[simp] theorem latchHeader_flag (shift pnib : Nib) (s : State) : (latchHeader shift pnib s).flag = s.flag := rfl
@[simp] theorem latchHeader_nib (shift pnib : Nib) (s : State) : (latchHeader shift pnib s).nib = s.nib := rfl
@[simp] theorem latchHeader_fpos (shift pnib : Nib) (s : State) : (latchHeader shift pnib s).fpos = s.fpos := rfl
@[simp] theorem latchHeader_k (shift pnib : Nib) (s : State) : (latchHeader shift pnib s).k = s.k := rfl
@[simp] theorem latchHeader_halt (shift pnib : Nib) (s : State) : (latchHeader shift pnib s).halt = s.halt := rfl
@[simp] theorem latchHeader_cidx (shift pnib : Nib) (s : State) : (latchHeader shift pnib s).cidx = s.cidx := rfl
@[simp] theorem latchHeader_pcm (shift pnib : Nib) (s : State) : (latchHeader shift pnib s).pcm = s.pcm := rfl
@[simp] theorem latchHeader_phase (shift pnib : Nib) (s : State) : (latchHeader shift pnib s).phase = s.phase := rfl
@[simp] theorem latchHeader_cfg (shift pnib : Nib) (s : State) : (latchHeader shift pnib s).cfg = s.cfg := rfl

/-! ### latchFlag -/

@[simp] theorem latchFlag_bd (flag : Byte) (s : State) : (latchFlag flag s).bd = s.bd := rfl
@[simp] theorem latchFlag_len (flag : Byte) (s : State) : (latchFlag flag s).len = s.len := rfl
@[simp] theorem latchFlag_rpos (flag : Byte) (s : State) : (latchFlag flag s).rpos = s.rpos := rfl
@[simp] theorem latchFlag_acc (flag : Byte) (s : State) : (latchFlag flag s).acc = s.acc := rfl
@[simp] theorem latchFlag_accNe (flag : Byte) (s : State) : (latchFlag flag s).accNe = s.accNe := rfl
@[simp] theorem latchFlag_clips (flag : Byte) (s : State) : (latchFlag flag s).clips = s.clips := rfl
@[simp] theorem latchFlag_hist1 (flag : Byte) (s : State) : (latchFlag flag s).hist1 = s.hist1 := rfl
@[simp] theorem latchFlag_hist2 (flag : Byte) (s : State) : (latchFlag flag s).hist2 = s.hist2 := rfl
@[simp] theorem latchFlag_shift (flag : Byte) (s : State) : (latchFlag flag s).shift = s.shift := rfl
@[simp] theorem latchFlag_pred (flag : Byte) (s : State) : (latchFlag flag s).pred = s.pred := rfl
@[simp] theorem latchFlag_flag (flag : Byte) (s : State) : (latchFlag flag s).flag = flag := rfl
@[simp] theorem latchFlag_nib (flag : Byte) (s : State) : (latchFlag flag s).nib = s.nib := rfl
@[simp] theorem latchFlag_fpos (flag : Byte) (s : State) : (latchFlag flag s).fpos = s.fpos := rfl
@[simp] theorem latchFlag_k (flag : Byte) (s : State) : (latchFlag flag s).k = s.k := rfl
@[simp] theorem latchFlag_halt (flag : Byte) (s : State) : (latchFlag flag s).halt = s.halt := rfl
@[simp] theorem latchFlag_cidx (flag : Byte) (s : State) : (latchFlag flag s).cidx = s.cidx := rfl
@[simp] theorem latchFlag_pcm (flag : Byte) (s : State) : (latchFlag flag s).pcm = s.pcm := rfl
@[simp] theorem latchFlag_phase (flag : Byte) (s : State) : (latchFlag flag s).phase = s.phase := rfl
@[simp] theorem latchFlag_cfg (flag : Byte) (s : State) : (latchFlag flag s).cfg = s.cfg := rfl

/-! ### latchResiduals -/

@[simp] theorem latchResiduals_bd (res : Vector Nib 28) (s : State) : (latchResiduals res s).bd = s.bd := rfl
@[simp] theorem latchResiduals_len (res : Vector Nib 28) (s : State) : (latchResiduals res s).len = s.len := rfl
@[simp] theorem latchResiduals_rpos (res : Vector Nib 28) (s : State) : (latchResiduals res s).rpos = s.rpos := rfl
@[simp] theorem latchResiduals_acc (res : Vector Nib 28) (s : State) : (latchResiduals res s).acc = s.acc := rfl
@[simp] theorem latchResiduals_accNe (res : Vector Nib 28) (s : State) : (latchResiduals res s).accNe = s.accNe := rfl
@[simp] theorem latchResiduals_clips (res : Vector Nib 28) (s : State) : (latchResiduals res s).clips = s.clips := rfl
@[simp] theorem latchResiduals_hist1 (res : Vector Nib 28) (s : State) : (latchResiduals res s).hist1 = s.hist1 := rfl
@[simp] theorem latchResiduals_hist2 (res : Vector Nib 28) (s : State) : (latchResiduals res s).hist2 = s.hist2 := rfl
@[simp] theorem latchResiduals_shift (res : Vector Nib 28) (s : State) : (latchResiduals res s).shift = s.shift := rfl
@[simp] theorem latchResiduals_pred (res : Vector Nib 28) (s : State) : (latchResiduals res s).pred = s.pred := rfl
@[simp] theorem latchResiduals_flag (res : Vector Nib 28) (s : State) : (latchResiduals res s).flag = s.flag := rfl
@[simp] theorem latchResiduals_nib (res : Vector Nib 28) (s : State) : (latchResiduals res s).nib = res := rfl
@[simp] theorem latchResiduals_fpos (res : Vector Nib 28) (s : State) : (latchResiduals res s).fpos = s.fpos := rfl
@[simp] theorem latchResiduals_k (res : Vector Nib 28) (s : State) : (latchResiduals res s).k = 0 := rfl
@[simp] theorem latchResiduals_halt (res : Vector Nib 28) (s : State) : (latchResiduals res s).halt = s.halt := rfl
@[simp] theorem latchResiduals_cidx (res : Vector Nib 28) (s : State) : (latchResiduals res s).cidx = s.cidx := rfl
@[simp] theorem latchResiduals_pcm (res : Vector Nib 28) (s : State) : (latchResiduals res s).pcm = s.pcm := rfl
@[simp] theorem latchResiduals_phase (res : Vector Nib 28) (s : State) : (latchResiduals res s).phase = s.phase := rfl
@[simp] theorem latchResiduals_cfg (res : Vector Nib 28) (s : State) : (latchResiduals res s).cfg = s.cfg := rfl

/-! ### latchFrame -/

@[simp] theorem latchFrame_bd (f : Frame) (s : State) : (latchFrame f s).bd = s.bd := rfl
@[simp] theorem latchFrame_len (f : Frame) (s : State) : (latchFrame f s).len = s.len := rfl
@[simp] theorem latchFrame_rpos (f : Frame) (s : State) : (latchFrame f s).rpos = s.rpos := rfl
@[simp] theorem latchFrame_acc (f : Frame) (s : State) : (latchFrame f s).acc = s.acc := rfl
@[simp] theorem latchFrame_accNe (f : Frame) (s : State) : (latchFrame f s).accNe = s.accNe := rfl
@[simp] theorem latchFrame_clips (f : Frame) (s : State) : (latchFrame f s).clips = s.clips := rfl
@[simp] theorem latchFrame_hist1 (f : Frame) (s : State) : (latchFrame f s).hist1 = s.hist1 := rfl
@[simp] theorem latchFrame_hist2 (f : Frame) (s : State) : (latchFrame f s).hist2 = s.hist2 := rfl
@[simp] theorem latchFrame_shift (f : Frame) (s : State) : (latchFrame f s).shift = f.shift := rfl
@[simp] theorem latchFrame_pred (f : Frame) (s : State) : (latchFrame f s).pred = clampPred f.pnib := rfl
@[simp] theorem latchFrame_flag (f : Frame) (s : State) : (latchFrame f s).flag = f.flag := rfl
@[simp] theorem latchFrame_nib (f : Frame) (s : State) : (latchFrame f s).nib = f.res := rfl
@[simp] theorem latchFrame_fpos (f : Frame) (s : State) : (latchFrame f s).fpos = s.fpos := rfl
@[simp] theorem latchFrame_k (f : Frame) (s : State) : (latchFrame f s).k = 0 := rfl
@[simp] theorem latchFrame_halt (f : Frame) (s : State) : (latchFrame f s).halt = s.halt := rfl
@[simp] theorem latchFrame_cidx (f : Frame) (s : State) : (latchFrame f s).cidx = s.cidx := rfl
@[simp] theorem latchFrame_pcm (f : Frame) (s : State) : (latchFrame f s).pcm = s.pcm := rfl
@[simp] theorem latchFrame_phase (f : Frame) (s : State) : (latchFrame f s).phase = s.phase := rfl
@[simp] theorem latchFrame_cfg (f : Frame) (s : State) : (latchFrame f s).cfg = s.cfg := rfl

/-! ### setHalt -/

@[simp] theorem setHalt_bd (v : Bool) (s : State) : (setHalt v s).bd = s.bd := rfl
@[simp] theorem setHalt_len (v : Bool) (s : State) : (setHalt v s).len = s.len := rfl
@[simp] theorem setHalt_rpos (v : Bool) (s : State) : (setHalt v s).rpos = s.rpos := rfl
@[simp] theorem setHalt_acc (v : Bool) (s : State) : (setHalt v s).acc = s.acc := rfl
@[simp] theorem setHalt_accNe (v : Bool) (s : State) : (setHalt v s).accNe = s.accNe := rfl
@[simp] theorem setHalt_clips (v : Bool) (s : State) : (setHalt v s).clips = s.clips := rfl
@[simp] theorem setHalt_hist1 (v : Bool) (s : State) : (setHalt v s).hist1 = s.hist1 := rfl
@[simp] theorem setHalt_hist2 (v : Bool) (s : State) : (setHalt v s).hist2 = s.hist2 := rfl
@[simp] theorem setHalt_shift (v : Bool) (s : State) : (setHalt v s).shift = s.shift := rfl
@[simp] theorem setHalt_pred (v : Bool) (s : State) : (setHalt v s).pred = s.pred := rfl
@[simp] theorem setHalt_flag (v : Bool) (s : State) : (setHalt v s).flag = s.flag := rfl
@[simp] theorem setHalt_nib (v : Bool) (s : State) : (setHalt v s).nib = s.nib := rfl
@[simp] theorem setHalt_fpos (v : Bool) (s : State) : (setHalt v s).fpos = s.fpos := rfl
@[simp] theorem setHalt_k (v : Bool) (s : State) : (setHalt v s).k = s.k := rfl
@[simp] theorem setHalt_halt (v : Bool) (s : State) : (setHalt v s).halt = v := rfl
@[simp] theorem setHalt_cidx (v : Bool) (s : State) : (setHalt v s).cidx = s.cidx := rfl
@[simp] theorem setHalt_pcm (v : Bool) (s : State) : (setHalt v s).pcm = s.pcm := rfl
@[simp] theorem setHalt_phase (v : Bool) (s : State) : (setHalt v s).phase = s.phase := rfl
@[simp] theorem setHalt_cfg (v : Bool) (s : State) : (setHalt v s).cfg = s.cfg := rfl

end Sys2Proof.Machine
end

