-- ==== Sys2Proof/Laws/Ops.lean ====
section
/-! SUPPORT. One lemma per shared operation: what it answers, and what it leaves unchanged. -/

namespace Sys2Proof.Machine

/-! ### andThen -/

@[simp] theorem andThen_next (s : State) (go : State → Result) : andThen (.next s) go = go s := rfl

@[simp] theorem andThen_fault (r : Fault) (go : State → Result) : andThen (.fault r) go = .fault r := rfl

@[simp] theorem andThen_refused (r : Refusal) (go : State → Result) : andThen (.refused r) go = .refused r := rfl

/-- A next state of a sequence comes through a next state of its first part. -/
theorem andThen_eq_next {o : Result} {go : State → Result} {t : State} (h : andThen o go = .next t) :
    ∃ s, o = .next s ∧ go s = .next t := by
  cases o with
  | next s => exact ⟨s, rfl, h⟩
  | fault _ => cases h
  | refused _ => cases h

theorem andThen_assoc (o : Result) (f g : State → Result) :
    andThen (andThen o f) g = andThen o fun s => andThen (f s) g := by
  cases o <;> rfl

/-! ### the append and the opening of a stream -/

/-- The append of R54 exists exactly where the stream does. -/
theorem appendSample_of_some {pcm : List (List Sample)} {i : Nat} {p : List Sample} (v : Sample)
    (h : pcm[i]? = some p) : appendSample pcm i v = some (pcm.set i (p ++ [v])) := by
  simp [appendSample, h]

theorem appendSample_eq_some {pcm pcm' : List (List Sample)} {i : Nat} {v : Sample}
    (h : appendSample pcm i v = some pcm') : ∃ p, pcm[i]? = some p ∧ pcm' = pcm.set i (p ++ [v]) := by
  unfold appendSample at h
  cases hp : pcm[i]? with
  | none => simp [hp] at h
  | some p => exact ⟨p, rfl, by simpa [hp] using h.symm⟩

/-- After `PCM[i] <- []` entry `i` is empty and the others are as they were, new ones before it empty too. -/
theorem openStream_getElem? (pcm : List (List Sample)) (i j : Nat) :
    (openStream pcm i)[j]? =
      if j = i then some [] else if j < pcm.length then pcm[j]? else if j < i then some [] else none := by
  unfold openStream
  by_cases hi : i < pcm.length
  · simp only [hi, if_true, List.getElem?_set]
    by_cases hj : j = i
    · subst hj
      simp
    · by_cases hl : j < pcm.length
      · simp [hj, Ne.symm hj, hl]
      · have : ¬ j < i := by omega
        simp [hj, Ne.symm hj, hl, this]
  · simp only [hi, if_false]
    by_cases hl : j < pcm.length
    · have : j ≠ i := by omega
      simp [hl, this, List.getElem?_append_left hl]
    · rw [List.getElem?_append_right (by omega), List.getElem?_replicate]
      by_cases hj : j = i
      · subst hj
        have : j - pcm.length < j + 1 - pcm.length := by omega
        simp [this]
      · by_cases hji : j < i
        · have : j - pcm.length < i + 1 - pcm.length := by omega
          simp [hj, hl, hji, this]
        · have : ¬ j - pcm.length < i + 1 - pcm.length := by omega
          simp [hj, hl, hji, this]

theorem openStream_length (pcm : List (List Sample)) (i : Nat) :
    (openStream pcm i).length = max pcm.length (i + 1) := by
  unfold openStream
  split <;> simp <;> omega

/-! ### the sample -/

/-- Everything a sample can do (R140): the numeric fault, the missing stream, or the update and the append. -/
theorem sample_cases (n : Nib) (s : State) :
    (predict s.cfg.num (ofInt (rawValue n s.shift)) s.hist1 s.hist2 (s.cfg.coef s.pred) = none ∧
      sample n s = .fault .nonFiniteHistory) ∨
    (∃ new, predict s.cfg.num (ofInt (rawValue n s.shift)) s.hist1 s.hist2 (s.cfg.coef s.pred) = some new ∧
      ((s.pcm[s.cidx]? = none ∧ sample n s = .fault .noOpenStream) ∨
       ∃ p, s.pcm[s.cidx]? = some p ∧
         sample n s = .next (putSample new (s.pcm.set s.cidx (p ++ [toPcm new.value])) s))) := by
  unfold sample appendSample
  cases hp : predict s.cfg.num (ofInt (rawValue n s.shift)) s.hist1 s.hist2 (s.cfg.coef s.pred) with
  | none => simp
  | some new => cases hq : s.pcm[s.cidx]? <;> simp

/-- A sample that completes. -/
theorem sample_eq_next {n : Nib} {s t : State} (h : sample n s = .next t) :
    ∃ new p, predict s.cfg.num (ofInt (rawValue n s.shift)) s.hist1 s.hist2 (s.cfg.coef s.pred) = some new ∧
      s.pcm[s.cidx]? = some p ∧ t = putSample new (s.pcm.set s.cidx (p ++ [toPcm new.value])) s := by
  rcases sample_cases n s with ⟨_, h'⟩ | ⟨new, hn, ⟨_, h'⟩ | ⟨p, hp, h'⟩⟩
  · rw [h'] at h; cases h
  · rw [h'] at h; cases h
  · rw [h'] at h
    cases h
    exact ⟨new, p, hn, hp, rfl⟩

theorem sample_ne_refused (n : Nib) (s : State) (r : Refusal) : sample n s ≠ .refused r := by
  rcases sample_cases n s with ⟨_, h'⟩ | ⟨new, hn, ⟨_, h'⟩ | ⟨p, hp, h'⟩⟩ <;> rw [h'] <;> simp

/-- What a sample leaves unchanged. -/
structure SampleKeeps (s t : State) : Prop where
  bd : t.bd = s.bd
  len : t.len = s.len
  cfg : t.cfg = s.cfg
  rpos : t.rpos = s.rpos
  acc : t.acc = s.acc
  accNe : t.accNe = s.accNe
  clips : t.clips = s.clips
  shift : t.shift = s.shift
  pred : t.pred = s.pred
  flag : t.flag = s.flag
  nib : t.nib = s.nib
  fpos : t.fpos = s.fpos
  halt : t.halt = s.halt
  cidx : t.cidx = s.cidx
  phase : t.phase = s.phase
  pcmLength : t.pcm.length = s.pcm.length
  others : ∀ j, j ≠ s.cidx → t.pcm[j]? = s.pcm[j]?

theorem SampleKeeps.refl (s : State) : SampleKeeps s s := by
  constructor <;> intros <;> rfl

theorem SampleKeeps.trans {s t u : State} (h : SampleKeeps s t) (g : SampleKeeps t u) : SampleKeeps s u where
  bd := g.bd.trans h.bd
  len := g.len.trans h.len
  cfg := g.cfg.trans h.cfg
  rpos := g.rpos.trans h.rpos
  acc := g.acc.trans h.acc
  accNe := g.accNe.trans h.accNe
  clips := g.clips.trans h.clips
  shift := g.shift.trans h.shift
  pred := g.pred.trans h.pred
  flag := g.flag.trans h.flag
  nib := g.nib.trans h.nib
  fpos := g.fpos.trans h.fpos
  halt := g.halt.trans h.halt
  cidx := g.cidx.trans h.cidx
  phase := g.phase.trans h.phase
  pcmLength := g.pcmLength.trans h.pcmLength
  others := fun j hj => (g.others j (by rw [h.cidx]; exact hj)).trans (h.others j hj)

theorem sample_keeps {n : Nib} {s t : State} (h : sample n s = .next t) : SampleKeeps s t := by
  obtain ⟨new, p, _, _, rfl⟩ := sample_eq_next h
  constructor <;> simp
  intro j hj
  rw [List.getElem?_set_ne (Ne.symm hj)]

theorem sampleAll_keeps : ∀ {ns : List Nib} {s t : State}, sampleAll ns s = .next t → SampleKeeps s t
  | [], s, t, h => by cases h; exact .refl s
  | n :: ns, s, t, h => by
    obtain ⟨u, hu, ht⟩ := andThen_eq_next h
    exact (sample_keeps hu).trans (sampleAll_keeps ht)

theorem sampleAll_ne_refused : ∀ (ns : List Nib) (s : State) (r : Refusal), sampleAll ns s ≠ .refused r
  | [], s, r => by simp [sampleAll]
  | n :: ns, s, r => by
    unfold sampleAll
    cases h : sample n s with
    | next u => exact sampleAll_ne_refused ns u r
    | fault _ => simp
    | refused q => exact absurd h (sample_ne_refused n s q)

/-! ### the samples of a frame, as a function of the history they meet -/

theorem samplesOf_length {cfg : Config} {shift : Nib} {pred : Fin 5} :
    ∀ {ns : List Nib} {h : NumVal × NumVal} {r : (NumVal × NumVal) × List Sample},
      samplesOf cfg shift pred ns h = some r → r.2.length = ns.length
  | [], _, _, e => by cases e; rfl
  | n :: ns, h, r, e => by
    simp only [samplesOf, Option.bind_eq_some_iff, Option.map_eq_some_iff] at e
    obtain ⟨_, _, w, hw, rfl⟩ := e
    simp [samplesOf_length hw]

/-- With the exact domain the samples always exist (R150). -/
theorem samplesOf_exact {cfg : Config} {shift : Nib} {pred : Fin 5} (he : cfg.num = .exact) :
    ∀ (ns : List Nib) (h : NumVal × NumVal), ∃ r, samplesOf cfg shift pred ns h = some r
  | [], _ => ⟨_, rfl⟩
  | n :: ns, h => by
    obtain ⟨r, hr⟩ := samplesOf_exact (shift := shift) (pred := pred) he ns
      (.ofRat (rawValue n shift + h.1.value * (cfg.coef pred).c0.value + h.2.value * (cfg.coef pred).c1.value), h.1)
    simp [samplesOf, sampleOf, he, ofInt, hr]

/-- Replacing an entry by itself changes nothing. -/
theorem set_getElem?_self {l : List α} {i : Nat} {a : α} (h : l[i]? = some a) : l.set i a = l := by
  obtain ⟨hi, rfl⟩ := List.getElem?_eq_some_iff.1 h
  exact List.set_getElem_self hi

/-- Everything a list of samples can do where its stream is open (R126, R208). -/
theorem sampleAll_eq : ∀ (ns : List Nib) (s : State) (p : List Sample), s.pcm[s.cidx]? = some p →
    sampleAll ns s =
      match samplesOf s.cfg s.shift s.pred ns (s.hist1, s.hist2) with
      | none => .fault .nonFiniteHistory
      | some r =>
        .next { s with
          hist1 := r.1.1, hist2 := r.1.2, pcm := s.pcm.set s.cidx (p ++ r.2), k := s.k + ns.length }
  | [], s, p, hp => by simp [sampleAll, samplesOf, set_getElem?_self hp]
  | n :: ns, s, p, hp => by
    unfold sampleAll samplesOf sampleOf
    rcases sample_cases n s with ⟨hn, h⟩ | ⟨new, hn, ⟨hq, h⟩ | ⟨q, hq, h⟩⟩
    · simp [h, hn]
    · rw [hq] at hp
      cases hp
    · rw [hp] at hq
      cases hq
      have hlt : s.cidx < s.pcm.length := (List.getElem?_eq_some_iff.1 hp).1
      rw [h, andThen_next, sampleAll_eq ns _ (p ++ [toPcm new.value]) (by simp [hlt])]
      simp only [hn, putSample_cfg, putSample_shift, putSample_pred, putSample_hist1, putSample_hist2,
        Option.map_some, Option.bind_some]
      cases hs : samplesOf s.cfg s.shift s.pred ns (new, s.hist1) with
      | none => simp
      | some r =>
        simp [putSample]
        omega

/-! ### exec: the meanings, unfolded once -/

theorem exec_delim (n : Nat) (s : State) : exec (.delim n) s = .next (advanceRow n (closeAcc s)) := rfl

theorem exec_data (row : List Byte) (s : State) :
    exec (.data row) s = .next (advanceRow row.length (appendAcc row s)) := rfl

theorem exec_flush (s : State) : exec .flush s = .next (closeAcc s) := rfl

theorem exec_tail (s : State) : exec .tail s = .next s := rfl

theorem exec_endClip (shift pnib : Nib) (s : State) :
    exec (.endClip shift pnib) s = .next (setHalt true (latchFlag 7#8 (latchHeader shift pnib s))) := rfl

theorem exec_clipstart (i : Nat) (s : State) :
    exec (.clipstart i) s = .next
      { s with
        cidx := i, hist1 := ofInt 0, hist2 := ofInt 0, fpos := 0, halt := false, pcm := openStream s.pcm i } := rfl

theorem exec_smp (n : Nib) (s : State) : exec (.smp n) s = sample n s := rfl

theorem exec_dec (f : Frame) (s : State) :
    exec (.dec f) s = andThen (sampleAll f.res.toList (latchFrame f s)) fun t => .next (advanceFrame t) := rfl

/-- No operation is refused. -/
theorem exec_ne_refused (i : Instr) (s : State) (r : Refusal) : exec i s ≠ .refused r := by
  cases i with
  | delim n => simp [exec_delim]
  | data row => simp [exec_data]
  | flush => simp [exec_flush]
  | clipstart c => simp [exec_clipstart]
  | tail => simp [exec_tail]
  | endClip a b => simp [exec_endClip]
  | dec f =>
    rw [exec_dec]
    cases h : sampleAll f.res.toList (latchFrame f s) with
    | next t => simp
    | fault q => simp
    | refused q => exact absurd h (sampleAll_ne_refused _ _ q)
  | smp n => exact sample_ne_refused n s r

end Sys2Proof.Machine
end

