-- ==== Sys2Proof/Laws/PerInstr.lean ====
section
/-! SUPPORT. Statements made of every operation, one lemma per constructor. -/

namespace Sys2Proof.Laws

/-- R71, R72: the bytes of a well-formed operation selected by bits are one row or frame, 16 bytes at most. -/
def EncodedSize.Statement (i : Instr) : Prop := i.wellFormed = true → (encodeBytes i).length ≤ 16

theorem EncodedSize.delim (n : Nat) : EncodedSize.Statement (.delim n) := by
  intro h
  simp [Instr.wellFormed, rowLengthOk] at h
  simpa [encodeBytes, encode] using h.2

theorem EncodedSize.data (row : List Byte) : EncodedSize.Statement (.data row) := by
  intro h
  simp [Instr.wellFormed, rowLengthOk] at h
  simpa [encodeBytes, encode] using h.1.2

theorem EncodedSize.flush : EncodedSize.Statement .flush := fun _ => by simp [encodeBytes, encode]

theorem EncodedSize.clipstart (i : Nat) : EncodedSize.Statement (.clipstart i) :=
  fun _ => by simp [encodeBytes, encode]

theorem EncodedSize.tail : EncodedSize.Statement .tail := fun _ => by simp [encodeBytes, encode]

theorem EncodedSize.endClip (shift pnib : Nib) : EncodedSize.Statement (.endClip shift pnib) :=
  fun _ => by simp [encodeBytes, encode]

theorem EncodedSize.dec (f : Frame) : EncodedSize.Statement (.dec f) :=
  fun _ => by simp [encodeBytes, encode, bytesOfFrame]

theorem EncodedSize.smp (n : Nib) : EncodedSize.Statement (.smp n) := fun _ => by simp [encodeBytes, encode]

end Sys2Proof.Laws
end

