-- ==== Sys2Proof/Laws/Reference.lean ====
section
/-! SUPPORT. The rows of a blob (R70, R71), as the recursion a proof over a scan follows. -/

namespace Sys2Proof.Machine

theorem rowsUpTo_eq_of_le : ∀ (n f g : Nat) (blob : List Byte), blob.length ≤ n → blob.length ≤ f → blob.length ≤ g →
    rowsUpTo f blob = rowsUpTo g blob
  | n, f, g, blob, h, hf, hg => by
    by_cases h0 : blob.length = 0
    · obtain rfl : blob = [] := List.length_eq_zero_iff.1 h0
      cases f <;> cases g <;> rfl
    · obtain ⟨n, rfl⟩ : ∃ n', n = n' + 1 := ⟨n - 1, by omega⟩
      obtain ⟨f, rfl⟩ : ∃ f', f = f' + 1 := ⟨f - 1, by omega⟩
      obtain ⟨g, rfl⟩ : ∃ g', g = g' + 1 := ⟨g - 1, by omega⟩
      simp only [rowsUpTo, if_neg h0]
      rw [rowsUpTo_eq_of_le n f g (blob.drop Size.rowBytes) (by simp; omega) (by simp; omega) (by simp; omega)]

@[simp] theorem rowsOf_nil : rowsOf [] = [] := rfl

/-- The first row is the first 16 bytes, or fewer when fewer there are. -/
theorem rowsOf_eq_cons (blob : List Byte) (h : blob ≠ []) : rowsOf blob = blob.take 16 :: rowsOf (blob.drop 16) := by
  have h0 : blob.length ≠ 0 := by simpa using h
  obtain ⟨f, hf⟩ : ∃ f', blob.length = f' + 1 := ⟨blob.length - 1, by omega⟩
  unfold rowsOf
  rw [hf]
  simp only [rowsUpTo, if_neg h0]
  rw [rowsUpTo_eq_of_le blob.length f (blob.drop 16).length (blob.drop Size.rowBytes) (by simp) (by simp; omega)
    (by simp)]

end Sys2Proof.Machine
end

