-- ==== Sys2Proof/Laws/Step.lean ====
section
/-! SUPPORT. What one step can do, said once: the unit each position presents, what it decodes to, and the inversion of
`step`. Invariants are derived from `step_cases`. -/

namespace Sys2Proof.Machine

/-! ### Rows -/

theorem rowLength_le (s : State) : rowLength s ≤ 16 := by simp [rowLength]

theorem readBytes_length {s : State} : ∀ {n a : Nat} {row : List Byte}, readBytes s a n = some row → row.length = n
  | 0, a, row, h => by cases h; rfl
  | n + 1, a, row, h => by
    unfold readBytes at h
    split at h
    · rename_i b bs hb hbs
      cases h
      simp [readBytes_length hbs]
    · cases h

/-- The row fetched in the row loop (R101), inside the blob. -/
theorem readBytes_row (s : State) (h : s.rpos < s.len) :
    readBytes s s.rpos (rowLength s) = some (blobRange s s.rpos (rowLength s)) := by
  apply readBytes_eq
  simp [rowLength]
  omega

theorem fetchRow_lt (s : State) (h : s.rpos < s.len) :
    fetchRow s = .item (.row (blobRange s s.rpos (rowLength s))) := by
  simp [fetchRow, h, readBytes_row s h]

theorem fetchRow_ge (s : State) (h : ¬ s.rpos < s.len) : fetchRow s = .item (.row []) := by simp [fetchRow, h]

/-- The length of the row fetched (R71). -/
theorem row_length (s : State) (h : s.rpos < s.len) :
    (blobRange s s.rpos (rowLength s)).length = rowLength s ∧ 1 ≤ rowLength s := by
  simp [rowLength]
  omega

/-- CDX's classifier on a row of legal length. -/
theorem decodeRow_cases (row : List Byte) (h1 : 1 ≤ row.length) (h2 : row.length ≤ 16) :
    (isZeroRow row = true ∧ decodeRow row = .ok (.delim row.length)) ∨
    (isZeroRow row = false ∧ decodeRow row = .ok (.data row)) := by
  have h3 : ¬ row.length = 0 := by omega
  have h4 : ¬ Size.rowBytes < row.length := by simp; omega
  cases hz : isZeroRow row <;> simp_all [decodeRow]

@[simp] theorem decodeRow_nil : decodeRow [] = .ok .flush := rfl

/-- AFD's classifier (R81). -/
theorem decodeFrame_cases (rest : List Byte) :
    (rest.length < 16 ∧ decodeFrame rest = .tail) ∨
    (16 ≤ rest.length ∧ (frameOfBytes (rest.take 16)).flag = 7#8 ∧
      decodeFrame rest = .endClip (frameOfBytes (rest.take 16)).shift (frameOfBytes (rest.take 16)).pnib) ∨
    (16 ≤ rest.length ∧ (frameOfBytes (rest.take 16)).flag ≠ 7#8 ∧
      decodeFrame rest = .dec (frameOfBytes (rest.take 16))) := by
  unfold decodeFrame isSentinel
  by_cases h : rest.length < 16
  · simp [h]
  · have h' : 16 ≤ rest.length := by omega
    by_cases hf : (frameOfBytes (rest.take 16)).flag = 7#8
    · simp [h, h', hf]
    · simp [h, h', hf]

/-! ### issue -/

theorem issue_eq_exec {i : Instr} {s : State} (h : s.cfg.grain = .perFrame ∨ ∀ f, i ≠ .dec f) :
    issue i s = exec i s := by
  unfold issue
  cases hg : s.cfg.grain with
  | perFrame => cases i <;> rfl
  | perSample =>
    rcases h with h | h
    · rw [hg] at h; cases h
    · cases i with
      | dec f => exact absurd rfl (h f)
      | _ => rfl

theorem issue_dec_perSample {f : Frame} {s : State} (h : s.cfg.grain = .perSample) :
    issue (.dec f) s = .next (openFrame f s) := by
  simp [issue, h]

/-- Running a decoded unit. -/
theorem runUnit_ok {u : Fetched} {i : Instr} (s : State) (h : decode u = .ok i) :
    runUnit u s = andThen (issue i s) fun t => .next (sequence i t) := by
  simp [runUnit, h]

/-! ### the inversion of a step -/

/-- Everything a step to a next state can be. -/
inductive StepCase (s : State) : State → Prop
  /-- the run is over and stays so -/
  | finished (hp : s.phase = .finished) : StepCase s s
  /-- a zero row (R102) -/
  | delim (hp : s.phase = .scan) (hr : s.rpos < s.len)
      (hz : isZeroRow (blobRange s s.rpos (rowLength s)) = true) :
      StepCase s (advanceRow (rowLength s) (closeAcc s))
  /-- a non-zero row (R103) -/
  | data (hp : s.phase = .scan) (hr : s.rpos < s.len)
      (hz : isZeroRow (blobRange s s.rpos (rowLength s)) = false) :
      StepCase s (advanceRow (rowLength s) (appendAcc (blobRange s s.rpos (rowLength s)) s))
  /-- the end of the blob (R104) -/
  | flush (hp : s.phase = .scan) (hr : ¬ s.rpos < s.len) :
      StepCase s (setPhase (nextClip (closeAcc s).clips 0) (closeAcc s))
  /-- the start of clip `i` (R121) -/
  | clipstart (i : Nat) (hp : s.phase = .start i) :
      StepCase s
        { s with cidx := i, hist1 := ofInt 0, hist2 := ofInt 0, fpos := 0, halt := false, pcm := openStream s.pcm i, phase := .frames }
  /-- the loop test finds `HALT` (R122) -/
  | halted (hp : s.phase = .frames) (hh : s.halt = true) :
      StepCase s (setPhase (nextClip s.clips (s.cidx + 1)) s)
  /-- fewer than 16 bytes remain (R127) -/
  | tail (c : List Byte) (hp : s.phase = .frames) (hh : s.halt = false) (hc : s.clips[s.cidx]? = some c)
      (hl : (c.drop s.fpos).length < 16) :
      StepCase s (setPhase (nextClip s.clips (s.cidx + 1)) s)
  /-- a sentinel frame (R124) -/
  | endClip (c : List Byte) (shift pnib : Nib) (hp : s.phase = .frames) (hh : s.halt = false)
      (hc : s.clips[s.cidx]? = some c) (hl : 16 ≤ (c.drop s.fpos).length)
      (hf : (frameOfBytes ((c.drop s.fpos).take 16)).flag = 7#8)
      (hd : decodeFrame (c.drop s.fpos) = .endClip shift pnib) :
      StepCase s
        (setPhase (nextClip s.clips (s.cidx + 1)) (setHalt true (latchFlag 7#8 (latchHeader shift pnib s))))
  /-- a frame decoded in one step (R125, R126) -/
  | dec (c : List Byte) (f : Frame) (u : State) (hp : s.phase = .frames) (hh : s.halt = false)
      (hg : s.cfg.grain = .perFrame) (hc : s.clips[s.cidx]? = some c) (hl : 16 ≤ (c.drop s.fpos).length)
      (hd : decodeFrame (c.drop s.fpos) = .dec f) (hu : sampleAll f.res.toList (latchFrame f s) = .next u) :
      StepCase s (advanceFrame u)
  /-- a frame unpacked, its samples to follow (R125) -/
  | openFrame (c : List Byte) (f : Frame) (hp : s.phase = .frames) (hh : s.halt = false)
      (hg : s.cfg.grain = .perSample) (hc : s.clips[s.cidx]? = some c) (hl : 16 ≤ (c.drop s.fpos).length)
      (hd : decodeFrame (c.drop s.fpos) = .dec f) :
      StepCase s (openFrame f s)
  /-- one sample of a frame, not its last (R140) -/
  | smp (hp : s.phase = .samples) (hk : s.k < 28) (u : State) (hu : sample s.nib[s.k] s = .next u) (hn : u.k < 28) :
      StepCase s u
  /-- the last sample of a frame (R140, R126) -/
  | lastSmp (hp : s.phase = .samples) (hk : s.k < 28) (u : State) (hu : sample s.nib[s.k] s = .next u)
      (hn : ¬ u.k < 28) : StepCase s (closeFrame u)
  /-- the samples of a frame are done (R32) -/
  | frameDone (hp : s.phase = .samples) (hk : ¬ s.k < 28) : StepCase s (closeFrame s)

theorem step_scan {s : State} (hp : s.phase = .scan) (hr : s.rpos < s.len) :
    step s =
      if isZeroRow (blobRange s s.rpos (rowLength s)) = true then
        .next (advanceRow (rowLength s) (closeAcc s))
      else .next (advanceRow (rowLength s) (appendAcc (blobRange s s.rpos (rowLength s)) s)) := by
  obtain ⟨hlen, hpos⟩ := row_length s hr
  have hfetch : fetch s = .item (.row (blobRange s s.rpos (rowLength s))) := by
    simp [fetch, hp, fetchRow_lt s hr]
  have hle := rowLength_le s
  have hnd : ∀ f, Instr.delim (rowLength s) ≠ .dec f := by simp
  have hnd' : ∀ f, Instr.data (blobRange s s.rpos (rowLength s)) ≠ .dec f := by simp
  rcases decodeRow_cases (blobRange s s.rpos (rowLength s)) (by omega) (by omega) with ⟨hz, hd⟩ | ⟨hz, hd⟩
  · rw [hlen] at hd
    simp [step, act, hfetch, runUnit_ok (i := .delim (rowLength s)) s (show decode (.row _) = _ from hd), issue_eq_exec (.inr hnd), exec_delim, sequence, hz]
  · simp [step, act, hfetch, runUnit_ok s (show decode (.row _) = _ from hd), issue_eq_exec (.inr hnd'), exec_data,
      sequence, hz, hlen]

theorem step_flush {s : State} (hp : s.phase = .scan) (hr : ¬ s.rpos < s.len) :
    step s = .next (setPhase (nextClip (closeAcc s).clips 0) (closeAcc s)) := by
  have hnd : ∀ f, Instr.flush ≠ .dec f := by simp
  have hfetch : fetch s = .item (.row []) := by simp [fetch, hp, fetchRow_ge s hr]
  simp [step, act, hfetch, runUnit_ok s (show decode (.row []) = .ok .flush from rfl), issue_eq_exec (.inr hnd),
    exec_flush, sequence]

theorem step_start {s : State} {i : Nat} (hp : s.phase = .start i) :
    step s = .next
      { s with cidx := i, hist1 := ofInt 0, hist2 := ofInt 0, fpos := 0, halt := false, pcm := openStream s.pcm i, phase := .frames } := by
  have hnd : ∀ f, Instr.clipstart i ≠ .dec f := by simp
  have hfetch : fetch s = .item (.clip i) := by simp [fetch, hp]
  simp [step, act, hfetch, runUnit_ok s (show decode (.clip i) = .ok (.clipstart i) from rfl),
    issue_eq_exec (.inr hnd), exec_clipstart, sequence, setPhase]

theorem step_halted {s : State} (hp : s.phase = .frames) (hh : s.halt = true) :
    step s = .next (setPhase (nextClip s.clips (s.cidx + 1)) s) := by
  have hfetch : fetch s = .move false (nextClip s.clips (s.cidx + 1)) := by simp [fetch, hp, fetchFrame, hh]
  simp [step, act, hfetch, moveOn]

theorem fetch_frame {s : State} {c : List Byte} (hp : s.phase = .frames) (hh : s.halt = false)
    (hc : s.clips[s.cidx]? = some c) : fetch s = .item (.frame (c.drop s.fpos)) := by
  simp [fetch, hp, fetchFrame, hh, hc]

theorem step_frame {s : State} {c : List Byte} {i : Instr} (hp : s.phase = .frames) (hh : s.halt = false)
    (hc : s.clips[s.cidx]? = some c) (hd : decodeFrame (c.drop s.fpos) = i) :
    step s = andThen (issue i s) fun t => .next (sequence i t) := by
  rw [step, fetch_frame hp hh hc]
  exact runUnit_ok s (show decode (.frame (c.drop s.fpos)) = .ok i by rw [decode, hd])

theorem step_noClip {s : State} (hp : s.phase = .frames) (hh : s.halt = false)
    (hc : s.clips[s.cidx]? = none) : step s = .fault .noSuchClip := by
  simp [step, act, fetch, hp, fetchFrame, hh, hc]

theorem step_smp {s : State} (hp : s.phase = .samples) (hk : s.k < 28) :
    step s = andThen (sample s.nib[s.k] s) fun t => .next (if t.k < 28 then t else closeFrame t) := by
  have hnd : ∀ f, Instr.smp s.nib[s.k] ≠ .dec f := by simp
  have hfetch : fetch s = .item (.residual s.nib[s.k]) := by simp [fetch, hp, fetchResidual, hk]
  have hrun : step s = runUnit (.residual s.nib[s.k]) s := by rw [step, hfetch]; rfl
  rw [hrun, runUnit_ok s (show decode (.residual s.nib[s.k]) = .ok (.smp s.nib[s.k]) from rfl),
    issue_eq_exec (.inr hnd)]
  rfl

theorem step_frameDone {s : State} (hp : s.phase = .samples) (hk : ¬ s.k < 28) : step s = .next (closeFrame s) := by
  have hfetch : fetch s = .move true .frames := by simp [fetch, hp, fetchResidual, hk]
  simp [step, act, hfetch, moveOn, closeFrame]

theorem step_over {s : State} (hp : s.phase = .finished) : step s = .next s := by
  simp [step, act, fetch, hp]

/-- The inversion: a step to a next state is one of the cases of `StepCase`. -/
theorem step_cases {s t : State} (h : step s = .next t) : StepCase s t := by
  cases hp : s.phase with
  | scan =>
    by_cases hr : s.rpos < s.len
    · rw [step_scan hp hr] at h
      cases hz : isZeroRow (blobRange s s.rpos (rowLength s)) with
      | true =>
        rw [hz, if_pos rfl] at h
        cases h
        exact .delim hp hr hz
      | false =>
        rw [hz, if_neg (by simp)] at h
        cases h
        exact .data hp hr hz
    · rw [step_flush hp hr] at h
      cases h
      exact .flush hp hr
  | start i =>
    rw [step_start hp] at h
    cases h
    exact .clipstart i hp
  | frames =>
    cases hh : s.halt with
    | true =>
      rw [step_halted hp hh] at h
      cases h
      exact .halted hp hh
    | false =>
      cases hc : s.clips[s.cidx]? with
      | none =>
        rw [step_noClip hp hh hc] at h
        cases h
      | some c =>
        rcases decodeFrame_cases (c.drop s.fpos) with ⟨hl, hd⟩ | ⟨hl, hf, hd⟩ | ⟨hl, hf, hd⟩
        · rw [step_frame hp hh hc hd, issue_eq_exec (.inr (by simp)), exec_tail] at h
          cases h
          exact .tail c hp hh hc hl
        · rw [step_frame hp hh hc hd, issue_eq_exec (.inr (by simp)), exec_endClip] at h
          cases h
          exact .endClip c _ _ hp hh hc hl hf hd
        · rw [step_frame hp hh hc hd] at h
          cases hg : s.cfg.grain with
          | perFrame =>
            rw [issue_eq_exec (.inl hg), exec_dec, andThen_assoc] at h
            obtain ⟨u, hu, ht⟩ := andThen_eq_next h
            cases ht
            exact .dec c _ u hp hh hg hc hl hd hu
          | perSample =>
            rw [issue_dec_perSample hg] at h
            cases h
            exact .openFrame c _ hp hh hg hc hl hd
  | samples =>
    by_cases hk : s.k < 28
    · rw [step_smp hp hk] at h
      obtain ⟨u, hu, ht⟩ := andThen_eq_next h
      cases ht
      by_cases hn : u.k < 28
      · rw [if_pos hn]
        exact .smp hp hk u hu hn
      · rw [if_neg hn]
        exact .lastSmp hp hk u hu hn
    · rw [step_frameDone hp hk] at h
      cases h
      exact .frameDone hp hk
  | finished =>
    rw [step_over hp] at h
    cases h
    exact .finished hp

/-! ### runs -/

theorem runSteps_zero (s : State) : runSteps 0 s = .next s := rfl

theorem runSteps_succ (k : Nat) (s : State) : runSteps (k + 1) s = andThen (step s) (runSteps k) := rfl

theorem runSteps_add (j k : Nat) (s : State) : runSteps (j + k) s = andThen (runSteps j s) (runSteps k) := by
  induction j generalizing s with
  | zero => simp [runSteps]
  | succ j ih => rw [Nat.succ_add, runSteps_succ, runSteps_succ, andThen_assoc, funext ih]

/-- A run that is over stays as it is. -/
theorem runSteps_finished {s : State} (h : s.phase = .finished) : ∀ k, runSteps k s = .next s
  | 0 => rfl
  | k + 1 => by rw [runSteps_succ, step_over h]; exact runSteps_finished h k

/-- A run within its bound, cut at any step of it. -/
theorem runSteps_of_finished {j k : Nat} {s t : State} (hj : runSteps j s = .next t) (ht : t.phase = .finished)
    (hle : j ≤ k) : runSteps k s = .next t := by
  obtain ⟨d, rfl⟩ := Nat.exists_eq_add_of_le hle
  rw [runSteps_add, hj, andThen_next, runSteps_finished ht]

/-- The orchestrator on a run that is over (R185). -/
theorem orchestrate_of_finished {host : HostConfig} {hd : HdFile} {blob : List Byte} {s t : State}
    (h : runBlob blob s = .next t) (ht : t.phase = .finished) :
    orchestrate host hd (some blob) s = emit host hd t := by
  simp [orchestrate, h, ht]

theorem host_run_next {M : Host.Core} {k : Nat} {s s' : M.State} (h : M.step s = .next s') :
    M.run (k + 1) s = M.run k s' := by simp [Host.Core.run, h]

theorem host_run_fault {M : Host.Core} {k : Nat} {s : M.State} {r : M.Fault} (h : M.step s = .fault r) :
    M.run (k + 1) s = .fault r := by simp [Host.Core.run, h]

theorem host_run_refused {M : Host.Core} {k : Nat} {s : M.State} {r : M.Refusal} (h : M.step s = .refused r) :
    M.run (k + 1) s = .refused r := by simp [Host.Core.run, h]

/-- The runs of Host/Core.lean are the runs of the claims. -/
theorem core_run_eq_runSteps (k : Nat) : ∀ s : State, (Host.Core.run core k s : Result) = runSteps k s := by
  induction k with
  | zero => exact fun _ => rfl
  | succ k ih =>
    intro s
    rw [runSteps_succ]
    cases h : step s with
    | next t => exact (host_run_next (M := core) h).trans (ih t)
    | fault r => exact host_run_fault (M := core) h
    | refused r => exact host_run_refused (M := core) h

end Sys2Proof.Machine
end

