-- ==== Sys2Proof/Machine/Notation.lean ====
section
/-! DEFINITION. The line notation of R90 and R91 for writing blobs: one line is one row. It is used in 95_test_vectors.md
and nowhere normatively (92_eei_decisions.md D17), and no step reads it. -/

namespace Sys2Proof.Machine

/-- One line of the notation, its fields already read as numbers. -/
inductive Line where
  /-- `DEC p= s= f= r=` with the residuals in sample order. R90 asks for `f` other than 7 -/
  | dec (p s : Nib) (f : Byte) (r : Vector Nib 28)
  /-- `END` without operands -/
  | endBare
  /-- `END p= s= r=` -/
  | endWith (p s : Nib) (r : Vector Nib 28)
  /-- `ZERO` -/
  | zero
  /-- `RAW` with the 1 to 16 bytes given -/
  | raw (bytes : List Byte)
  deriving DecidableEq, Repr

/-- The bytes a line stands for (R90, R91). -/
def lineBytes : Line → List Byte
  | .dec p s f r => bytesOfFrame { shift := s, pnib := p, flag := f, res := r }
  | .endBare => bytesOfFrame { shift := 0#4, pnib := 0#4, flag := Size.sentinel, res := Vector.replicate 28 0#4 }
  | .endWith p s r => bytesOfFrame { shift := s, pnib := p, flag := Size.sentinel, res := r }
  | .zero => List.replicate Size.rowBytes 0#8
  | .raw bytes => bytes

/-- The blob a list of lines stands for, row after row. -/
def assemble (lines : List Line) : List Byte := (lines.map lineBytes).flatten

end Sys2Proof.Machine
end

