-- ==== Sys2Proof/Tests/Slice0.lean ====
section
/-! SUPPORT. Tests. Expected results are the vectors of 95_test_vectors.md or the tables of the rules, never the model's
own answers. `witness_<Statement>` shows a concrete case that meets the hypotheses of that obligation. -/

namespace Sys2Proof.Tests

open Sys2Proof Sys2Proof.Machine

-- One declaration at a time: each kernel evaluation otherwise holds a thread of its own.
set_option Elab.async false

/-! ### Helpers -/

/-- A field of the next state. -/
def after (r : Result) (field : State → α) : Option α :=
  match r with
  | .next s => some (field s)
  | _ => none

def completes (r : Result) : Bool :=
  match r with
  | .next _ => true
  | _ => false

def faultOf (r : Result) : Option Fault :=
  match r with
  | .fault f => some f
  | _ => none

theorem exists_of_completes {r : Result} (h : completes r = true) : ∃ t, r = .next t := by
  cases r with
  | next t => exact ⟨t, rfl⟩
  | fault _ => cases h
  | refused _ => cases h

/-- `Y` of S1. -/
def rowY : List Byte := 0x0C#8 :: 0x00#8 :: List.replicate 14 0x22#8

/-- `X` of S1: a frame of predictor 0 and shift 12 that gives 28 samples 1. -/
def rowX : List Byte := 0x0C#8 :: 0x00#8 :: List.replicate 14 0x11#8

/-- The frame of N7, with its header byte free for N8. -/
def frameN7 (header : Byte) : List Byte :=
  [header, 0x00#8, 0x04#8, 0x00#8, 0x0C#8, 0x00#8] ++ List.replicate 10 0x11#8

/-- The frame of N5. -/
def frameN5 : List Byte :=
  [0x28#8, 0x00#8, 0x21#8, 0x43#8, 0x65#8, 0x87#8, 0xA9#8, 0xCB#8, 0xED#8, 0x0F#8] ++ List.replicate 6 0x00#8

/-- The table of R152 in the exact domain. -/
def exactConfig : Config :=
  { table := .exact ⟨60 / 64, 0⟩ ⟨115 / 64, -52 / 64⟩ ⟨98 / 64, -55 / 64⟩ ⟨122 / 64, -60 / 64⟩, grain := .perFrame }

/-- The exact domain, frames taken sample by sample. -/
def bySample : Config := { exactConfig with grain := .perSample }

/-- One clip scanned, its stream open, nothing of it decoded yet. -/
def oneClip (clip : List Byte) (cfg : Config) (p : Phase) : State :=
  { State.reset with
    bd := Mem.ofBytes 0 clip, len := clip.length, rpos := clip.length, clips := [clip], pcm := [[]], phase := p, cfg := cfg }

/-- AFD's datapath with its latches set and a stream open. -/
def datapath (shift : Nib) (pred : Fin 5) (h1 h2 : Rat) : State :=
  { State.reset with
    shift := shift, pred := pred, hist1 := .ofRat h1, hist2 := .ofRat h2, pcm := [[]], phase := .samples }

/-- A table whose entry 1 is `(c, 0)` for a binary64 `c`. -/
def coefOne (c : Binary64) : Config :=
  { table := .binary64 ⟨c, ⟨false, 0, 0#52⟩⟩ ⟨c, c⟩ ⟨c, c⟩ ⟨c, c⟩, grain := .perFrame }

/-- The samples a list of integers stands for. -/
def samples (l : List Int) : List Sample := l.map (BitVec.ofInt 16)

/-! ### WellFormed: each check refuses an ill-formed operation -/

theorem test_wf_delim_empty : (Instr.delim 0).wellFormed = false := by decide
theorem test_wf_delim_long : (Instr.delim 17).wellFormed = false := by decide
theorem test_wf_data_empty : (Instr.data []).wellFormed = false := by decide
theorem test_wf_data_long : (Instr.data (List.replicate 17 1#8)).wellFormed = false := by decide
theorem test_wf_data_zero : (Instr.data [0#8, 0#8]).wellFormed = false := by decide
theorem test_wf_dec_sentinel : (Instr.dec ⟨0#4, 0#4, 7#8, Vector.replicate 28 0#4⟩).wellFormed = false := by decide
theorem test_wf_legal :
    (Instr.delim 16).wellFormed = true ∧ (Instr.data [0#8, 1#8]).wellFormed = true ∧
      (Instr.dec ⟨0#4, 0#4, 8#8, Vector.replicate 28 0#4⟩).wellFormed = true := by decide

/-! ### Decode: fields and classes -/

/-- E1, E2, E3, E4. -/
theorem test_header_fields :
    (loNib 0x2C#8, hiNib 0x2C#8) = (12#4, 2#4) ∧ (loNib 0x90#8, hiNib 0x90#8) = (0#4, 9#4) ∧
    (loNib 0xFF#8, hiNib 0xFF#8) = (15#4, 15#4) ∧ (loNib 0x4D#8, hiNib 0x4D#8) = (13#4, 4#4) := by decide

/-- E5. -/
theorem test_pred_clamp :
    ((List.range 16).map fun n => (clampPred (BitVec.ofNat 4 n)).val) = [0, 1, 2, 3, 4, 4, 4, 4, 4, 4, 4, 4, 4, 4, 4, 4] := by
  decide

/-- E6, E7. -/
theorem test_sentinel_whole_byte :
    isSentinel 0x07#8 = true ∧
      [0x00#8, 0x06#8, 0x08#8, 0x0F#8, 0x17#8, 0x87#8, 0xFF#8].all (fun f => !isSentinel f) = true := by decide

/-- R84: the eight disjoint patterns cover exactly the flag bytes other than 7. -/
theorem test_flag_patterns : ∀ f : Byte,
    [(0x80#8, 0x80#8), (0xC0#8, 0x40#8), (0xE0#8, 0x20#8), (0xF0#8, 0x10#8), (0xF8#8, 0x08#8), (0xFC#8, 0x00#8),
      (0xFE#8, 0x04#8), (0xFF#8, 0x06#8)].countP (fun p => f &&& p.1 == p.2) = if isSentinel f then 0 else 1 := by
  decide +kernel

/-- E8, E9. -/
theorem test_residual_order :
    (frameOfBytes ([0x00#8, 0x00#8, 0x10#8, 0x32#8, 0x54#8, 0x76#8, 0x98#8, 0xBA#8, 0xDC#8, 0xFE#8] ++
      List.replicate 6 0#8)).res.toList.map BitVec.toNat = List.range 16 ++ List.replicate 12 0 ∧
    residualAt [0#8, 0#8, 0xF1#8] 0 = 0x1#4 ∧ residualAt [0#8, 0#8, 0xF1#8] 1 = 0xF#4 := by decide +kernel

/-- E10, E12. -/
theorem test_decode_delim :
    decode (.row (List.replicate 16 0#8)) = .ok (.delim 16) ∧ decode (.row [0#8, 0#8, 0#8]) = .ok (.delim 3) := ⟨rfl, rfl⟩

/-- E11, E13. -/
theorem test_decode_data :
    decode (.row (List.replicate 15 0#8 ++ [1#8])) = .ok (.data (List.replicate 15 0#8 ++ [1#8])) ∧
    decode (.row [0#8, 5#8]) = .ok (.data [0#8, 5#8]) := ⟨rfl, rfl⟩

/-- R71: a row of 17 bytes is no row. -/
theorem test_decode_long_row : decode (.row (List.replicate 17 0#8)) = .error .rowTooLong := rfl

/-- R82. -/
theorem test_decode_by_position :
    decode (.row []) = .ok .flush ∧ decode (.clip 3) = .ok (.clipstart 3) ∧ decode (.residual 9#4) = .ok (.smp 9#4) :=
  ⟨rfl, rfl, rfl⟩

/-- R127: 15 bytes are a tail, though the second is 7. -/
theorem test_decode_tail : decode (.frame (0x0C#8 :: List.replicate 14 0x07#8)) = .ok .tail := rfl

/-- `E` of 95_test_vectors.md section 2.3. -/
theorem test_decode_end :
    decode (.frame (0x33#8 :: 0x07#8 :: List.replicate 14 0x55#8)) = .ok (.endClip 3#4 3#4) := rfl

/-- E14: the line `DEC p=1 s=12 r=F000000000000000000000000000`. -/
theorem test_decode_dec :
    encode (.dec { shift := 12#4, pnib := 1#4, flag := 0#8, res := (Vector.replicate 28 0#4).set 0 0xF#4 }) =
      .frame ([0x1C#8, 0x00#8, 0x0F#8] ++ List.replicate 13 0#8) ∧
    (decode (.frame ([0x1C#8, 0x00#8, 0x0F#8] ++ List.replicate 13 0#8))).toOption =
      some (.dec { shift := 12#4, pnib := 1#4, flag := 0#8, res := (Vector.replicate 28 0#4).set 0 0xF#4 }) := by
  decide +kernel

/-- E14 as a line, and R91: an all-zero `DEC` line assembles to the bytes of `ZERO`. -/
theorem test_notation :
    assemble [.dec 1#4 12#4 0#8 ((Vector.replicate 28 0#4).set 0 0xF#4)] = [0x1C#8, 0x00#8, 0x0F#8] ++ List.replicate 13 0#8 ∧
    lineBytes (.dec 0#4 0#4 0#8 (Vector.replicate 28 0#4)) = lineBytes .zero ∧
    lineBytes .endBare = 0x00#8 :: 0x07#8 :: List.replicate 14 0#8 ∧
    lineBytes (.endWith 5#4 3#4 (Vector.replicate 28 0xF#4)) = 0x53#8 :: 0x07#8 :: List.replicate 14 0xFF#8 := by
  decide +kernel

/-- E15, and the word view R73 of the other classes. -/
theorem test_table_words :
    decodeTableWord 128 0x0700 = some (.endClip 0#4 0#4) ∧ decodeTableWord 16 0x0700 = some (.endClip 0#4 0#4) ∧
    decodeTableWord 128 0 = some (.delim 16) ∧ decodeTableWord 0 0 = some .flush ∧
    decodeTableWord 24 0x050000 = some (.data [0#8, 0#8, 5#8]) ∧ decodeTableWord 4 9 = some (.smp 9#4) ∧
    wordOfBytes (0x00#8 :: 0x07#8 :: List.replicate 14 0#8) = 0x0700 := by decide +kernel

/-! ### SMP: integer front end and output conversion -/

/-- R142's table. -/
theorem test_widen_table :
    ((List.range 16).map fun n => ((widen (BitVec.ofNat 4 n)).toNat, (signExtendWide (widen (BitVec.ofNat 4 n))).toInt)) =
    [(0x0000, 0), (0x1000, 4096), (0x2000, 8192), (0x3000, 12288), (0x4000, 16384), (0x5000, 20480), (0x6000, 24576),
      (0x7000, 28672), (0x8000, -32768), (0x9000, -28672), (0xA000, -24576), (0xB000, -20480), (0xC000, -16384),
      (0xD000, -12288), (0xE000, -8192), (0xF000, -4096)] := by decide

/-- M1 to M10. -/
theorem test_raw_values :
    rawValue 7#4 0#4 = 28672 ∧ rawValue 8#4 0#4 = -32768 ∧ rawValue 0xF#4 12#4 = -1 ∧ rawValue 0xF#4 13#4 = -1 ∧
    rawValue 0xF#4 15#4 = -1 ∧ rawValue 7#4 15#4 = 0 ∧ rawValue 3#4 13#4 = 1 ∧ rawValue 0xD#4 13#4 = -2 ∧
    rawValue 8#4 15#4 = -1 ∧ rawValue 8#4 4#4 = -2048 := by decide

/-- R143's columns 13, 14 and 15, where low bits are shifted out. -/
theorem test_shift_table :
    ([13, 14, 15].map fun s => (List.range 16).map fun n => rawValue (BitVec.ofNat 4 n) (BitVec.ofNat 4 s)) =
    [[0, 0, 1, 1, 2, 2, 3, 3, -4, -4, -3, -3, -2, -2, -1, -1], [0, 0, 0, 0, 1, 1, 1, 1, -2, -2, -2, -2, -1, -1, -1, -1],
      [0, 0, 0, 0, 0, 0, 0, 0, -1, -1, -1, -1, -1, -1, -1, -1]] := by decide

/-- O1 to O11. -/
theorem test_to_pcm :
    [(15 / 16 : Rat), -15 / 16, -3 / 2, 27367840576171875 / 100000000000000, 32767, 327679 / 10, 55552, -32768, -65537 / 2,
      -63488, 0].map (fun x => (toPcm x).toInt) =
    [0, 0, -1, 273, 32767, 32767, 32767, -32768, -32768, -32768, 0] := by decide +kernel

/-- R149: ties go to even, at 2^53 and above, and the smallest subnormal rounds as every other value. -/
theorem test_round_ties :
    round64 (2 ^ 53 + 1) = some (2 ^ 53) ∧ round64 (2 ^ 53 + 3) = some (2 ^ 53 + 4) ∧
    round64 (1 / 2 ^ 1075) = some 0 ∧ round64 (3 / 2 ^ 1075) = some (2 / 2 ^ 1074) := by decide +kernel

/-- The signs IEEE 754 gives a zero result (R149): of a product, of an underflow, of sums of zeros, of a cancellation. -/
theorem test_zero_signs :
    mulNum .binary64 (.ofRat (-1)) (.ofRat 0) = some .negZero ∧ mulNum .binary64 .negZero (.ofRat (-1)) = some (.ofRat 0) ∧
    mulNum .binary64 (.ofRat (-1 / 2 ^ 1074)) (.ofRat (1 / 2)) = some .negZero ∧
    addNum .binary64 .negZero .negZero = some .negZero ∧ addNum .binary64 (.ofRat 0) .negZero = some (.ofRat 0) ∧
    addNum .binary64 (.ofRat (-1)) (.ofRat 1) = some (.ofRat 0) ∧ mulNum .exact (.ofRat (-1)) (.ofRat 0) = some (.ofRat 0) := by
  decide +kernel

/-- R152's table, in both domains, and R9's entry 0. -/
theorem test_coefficients :
    ([0, 1, 2, 3, 4].map fun p => ((Config.recommended.coef p).c0.value, (Config.recommended.coef p).c1.value)) =
      [(0, 0), (15 / 16, 0), (1796875 / 1000000, -8125 / 10000), (153125 / 100000, -859375 / 1000000),
        (190625 / 100000, -9375 / 10000)] ∧
    [0, 1, 2, 3, 4].map Config.recommended.coef = [0, 1, 2, 3, 4].map exactConfig.coef := by decide +kernel

/-- R149: the smallest and the largest finite datum, and both zeros. -/
theorem test_binary64_values :
    ofBinary64 ⟨false, 0, 1#52⟩ = .ofRat (1 / 2 ^ 1074) ∧ ofBinary64 ⟨true, 0, 0#52⟩ = .negZero ∧
    ofBinary64 ⟨false, 0, 0#52⟩ = .ofRat 0 ∧
    ofBinary64 ⟨true, 2046, 0xFFFFFFFFFFFFF#52⟩ = .ofRat (-((2 ^ 53 - 1) * 2 ^ 971)) := by decide +kernel

/-- R149: one tenth is the binary64 value 3602879701896397 / 2^55. -/
theorem test_round_tenth : round64 (1 / 10) = some (3602879701896397 / 2 ^ 55) := by decide +kernel

/-! ### One step or one operation each -/

/-- The trace of X8, its second row. -/
theorem test_delim_closes :
    after (exec (.delim 16) { State.reset with rpos := 16, acc := rowX, accNe := true })
      (fun t => (t.clips, t.acc, t.accNe, t.rpos)) = some ([rowX], [], false, 32) := by decide +kernel

/-- The trace of X8, its third row: a second zero row is ignored. -/
theorem test_delim_collapses :
    after (exec (.delim 16) { State.reset with rpos := 32, clips := [rowX] }) (fun t => (t.clips, t.acc, t.accNe, t.rpos)) =
      some ([rowX], [], false, 48) := by decide +kernel

/-- The example of R103. -/
theorem test_data_appends :
    after (exec (.data ([0x0C#8, 0x00#8, 0x21#8, 0x43#8] ++ List.replicate 12 0#8)) State.reset)
      (fun t => (t.acc, t.accNe, t.rpos, t.clips)) =
      some ([0x0C#8, 0x00#8, 0x21#8, 0x43#8] ++ List.replicate 12 0#8, true, 16, []) := by decide +kernel

/-- X11: a short data row is appended as it is, and the cursor moves by its length. -/
theorem test_data_short :
    after (exec (.data [0#8, 0#8, 1#8]) { State.reset with rpos := 16, acc := rowX, accNe := true })
      (fun t => (t.acc, t.rpos)) = some (rowX ++ [0#8, 0#8, 1#8], 19) := by decide +kernel

/-- The example of R104. -/
theorem test_flush_emits :
    after (exec .flush { State.reset with rpos := 16, acc := rowX, accNe := true })
      (fun t => (t.clips, t.acc, t.accNe, t.rpos)) = some ([rowX], [], false, 16) := by decide +kernel

/-- R104: nothing is emitted from an empty accumulator. -/
theorem test_flush_empty : after (exec .flush State.reset) (fun t => t.clips) = some [] := by decide +kernel

/-- The example of R121, and R40: a negative zero becomes the positive one. -/
theorem test_clipstart_clears :
    after (exec (.clipstart 1) { State.reset with hist1 := .ofRat 80752, hist2 := .negZero, fpos := 32, halt := true, pcm := [[5#16]] })
      (fun t => ([t.hist1, t.hist2], t.fpos, t.halt, t.pcm)) = some ([.ofRat 0, .ofRat 0], 0, false, [[5#16], []]) := by
  decide +kernel

/-- F7: a tail of 2 bytes is dropped, its 7 not tested. -/
theorem test_tail_drops :
    after (step { oneClip (rowX ++ [0x0C#8, 0x07#8]) exactConfig .frames with fpos := 16 }) (fun t => (t.pcm, t.halt, t.flag, t.phase)) =
      some ([[]], false, 0#8, .finished) := by decide +kernel

/-- F2: an `END` with junk in its other bytes. -/
theorem test_end_halts :
    after (step (oneClip (0x33#8 :: 0x07#8 :: List.replicate 14 0x55#8) exactConfig .frames))
      (fun t => (t.pcm, t.halt, t.fpos, [t.hist1, t.hist2])) = some ([[]], true, 0, [.ofRat 0, .ofRat 0]) := by decide +kernel

/-- N5, all 28 samples (assumes the table of R152, binary64). -/
theorem test_dec_frame :
    after (step (oneClip frameN5 Config.recommended .frames)) (fun t => (t.pcm, t.fpos, t.k)) =
      some ([samples [16, 60, 144, 273, 454, 690, 983, 1078, 1026, 871, 652, 400, 141, -103, -316, -484, -613, -709, -775,
        -817, -838, -842, -832, -811, -782, -745, -704, -660]], 16, 28) := by decide +kernel

/-- N8: the predictor nibble 15 gives what N7 gives with 4 (assumes the table of R152). -/
theorem test_dec_clamps_predictor :
    after (step (oneClip (frameN7 0xF9#8) Config.recommended .frames)) (fun t => t.pcm) =
      some [samples [32, 61, 86, 107, 91, 74, 55, 35, 24, 21, 25, 36, 54, 76, 103, 133, 165, 197, 230, 261, 290, 316, 339,
        357, 372, 382, 387, 388]] := by decide +kernel

/-- R158, its fourth sample, and N1, its second: the sample is clamped, the history is not (R156). Both assume the table
of R152. A history of `-0.0` gives the sample 0 (R157). -/
theorem test_smp_predicts :
    after (exec (.smp 4#4) (datapath 8#4 2 (14416015625 / 100000000) (243 / 4))) (fun t => (t.hist1, t.hist2, t.pcm, t.k)) =
      some (.ofRat (27367840576171875 / 100000000000000), .ofRat (14416015625 / 100000000), [[273#16]], 1) ∧
    after (exec (.smp 7#4) (datapath 0#4 1 28672 0)) (fun t => (t.hist1, t.hist2, t.pcm)) =
      some (.ofRat 55552, .ofRat 28672, [[32767#16]]) ∧
    after (exec (.smp 0#4) { datapath 0#4 1 0 0 with hist1 := .negZero }) (fun t => (t.hist1, t.hist2, t.pcm)) =
      some (.ofRat 0, .negZero, [[0#16]]) := by decide +kernel

/-- R208: a coefficient of 2 takes 2^1023 out of the finite range. R149, R150: a product that is not representable is
rounded in one domain and not in the other. -/
theorem test_smp_domains :
    faultOf (exec (.smp 0#4) { datapath 0#4 1 (2 ^ 1023) 0 with cfg := coefOne ⟨false, 1024, 0#52⟩ }) =
      some .nonFiniteHistory ∧
    after (exec (.smp 0#4) { datapath 0#4 1 (2 ^ 53 - 1) 0 with cfg := coefOne ⟨false, 1024, 0x8000000000000#52⟩ })
      (fun t => t.hist1) = some (.ofRat (3 * 2 ^ 53 - 4)) ∧
    after (exec (.smp 0#4)
      { datapath 0#4 1 (2 ^ 53 - 1) 0 with cfg := { exactConfig with table := .exact ⟨3, 0⟩ ⟨0, 0⟩ ⟨0, 0⟩ ⟨0, 0⟩ } })
      (fun t => t.hist1) = some (.ofRat (3 * 2 ^ 53 - 3)) := by decide +kernel

/-! ### The functions of the spec -/

/-- X3, X4, X10, X11, X13, X14, as the clips their ranges are. -/
theorem test_split :
    split (List.replicate 5 0#8) = [] ∧ split [1#8] = [[1#8]] ∧ split (rowX ++ List.replicate 3 0#8) = [rowX] ∧
    split (rowX ++ [0#8, 0#8, 1#8]) = [rowX ++ [0#8, 0#8, 1#8]] ∧
    split (List.replicate 16 0#8 ++ [0#8, 5#8]) = [[0#8, 5#8]] ∧
    split ([1#8] ++ List.replicate 30 0#8 ++ [1#8]) = [[1#8] ++ List.replicate 30 0#8 ++ [1#8]] := by decide +kernel

/-- S1 and S2 (R111). -/
theorem test_split_separators :
    split (rowX ++ rowY ++ List.replicate 16 0#8 ++ rowX) = [rowX ++ rowY, rowX] ∧
    split (rowX ++ List.replicate 32 0#8 ++ rowY) = [rowX, rowY] := by decide +kernel

/-- P1: the document's end-to-end scenario. -/
theorem test_decode_program_one :
    decodeBlob Config.recommended ((0x00#8 :: 0x01#8 :: List.replicate 30 0#8) ++ (0x00#8 :: 0x07#8 :: List.replicate 14 0#8)) =
      some [List.replicate 28 0#16, []] := by decide +kernel

/-- F4: a sentinel second frame leaves the 28 samples of the first. -/
theorem test_decode_sentinel_second :
    decodeClip exactConfig (rowX ++ (0x33#8 :: 0x07#8 :: List.replicate 14 0x55#8) ++ rowX) = some (List.replicate 28 1#16) := by
  decide +kernel

/-- A run of the machine, from the start to its end, on `X` (F5's samples). -/
theorem test_run_one_clip :
    after (runSteps 5 (runStart rowX State.reset)) (fun t => (t.pcm, t.phase, t.clips)) =
      some ([List.replicate 28 1#16], .finished, [rowX]) := by decide +kernel

/-! ### Host side -/

/-- The hd buffer of H1. -/
def bufferH1 : List Byte :=
  [0x00#8, 0x00#8, 0x00#8, 0x00#8, 0x69#8, 0x67#8, 0x61#8, 0x56#8, 0x00#8, 0x00#8, 0x00#8, 0x00#8, 0x01#8, 0x00#8, 0x00#8, 0x00#8,
    0x14#8, 0x00#8, 0x00#8, 0x00#8, 0x16#8, 0x00#8, 0x00#8, 0x00#8, 0x3A#8, 0x11#8, 0x60#8, 0x22#8]

/-- The hd buffer of H3. -/
def bufferH3 : List Byte :=
  List.replicate 8 0x00#8 ++ [0x69#8, 0x67#8, 0x61#8, 0x56#8, 0x00#8, 0x00#8, 0x00#8, 0x00#8, 0x01#8, 0x00#8, 0x00#8, 0x00#8,
    0x0C#8, 0x00#8, 0x00#8, 0x00#8, 0x0E#8, 0x00#8, 0x00#8, 0x00#8] ++ List.replicate 4 0x00#8

/-- H1, H2. -/
theorem test_hd_found :
    readHd .little bufferH1 = .found [4410#16, 8800#16] ∧
    readHd .little (List.replicate 12 0#8 ++ bufferH1.drop 4) = .found [4410#16, 8800#16] := by decide +kernel

/-- H3, H4. -/
theorem test_hd_document_scenario :
    readHd .little bufferH3 = .notFound ∧
    readHd .little (List.replicate 4 0#8 ++ (bufferH3.drop 8).take 20) = .found [12#16, 0#16] := by decide +kernel

/-- R173, R179: the other tag order, a negative offset, a table that runs out of the blob, a `maxIndex` of -1
(log entry 18). -/
theorem test_hd_other :
    readHd .big bufferH1 = .notFound ∧
    readHd .little (bufferH1.take 16 ++ [0xFF#8, 0xFF#8, 0xFF#8, 0xFF#8] ++ bufferH1.drop 20) = .outOfRange ∧
    readHd .little (bufferH1.take 20) = .outOfRange ∧
    readHd .little (bufferH1.take 12 ++ [0xFF#8, 0xFF#8, 0xFF#8, 0xFF#8] ++ bufferH1.drop 16) = .outOfRange := by
  decide +kernel

/-- H5 to H10. -/
theorem test_reconciler :
    reconcile .nominal 5 [8000#16, 11025#16, 22050#16] = ([8000, 11025, 22050, 22050, 22050], [.shortTable]) ∧
    reconcile .nominal 2 [8000#16, 11025#16, 22050#16] = ([8000, 11025], []) ∧
    reconcile .nominal 2 [] = ([32000, 32000], [.defaultRateUsed]) ∧
    reconcile { HostConfig.nominal with overrideRate := some 44100 } 3 [8000#16] = ([44100, 44100, 44100], []) ∧
    reconcile .nominal 3 [8000#16, 11025#16, 22050#16] = ([8000, 11025, 22050], []) ∧
    (reconcile .nominal 0 [8000#16]).1 = [] := by decide +kernel

/-- S9: the streams of P1 with no hd file, from its bd blob. R188: no bd blob. -/
theorem test_orchestrator :
    orchestrate .nominal .absent
        (some ((0x00#8 :: 0x01#8 :: List.replicate 30 0#8) ++ (0x00#8 :: 0x07#8 :: List.replicate 14 0#8))) State.reset =
      .streams [⟨List.replicate 28 0#16, 32000, 1, 16⟩, ⟨[], 32000, 1, 16⟩] [.defaultRateUsed] ∧
    orchestrate .nominal .absent none State.reset = .noBlob := by decide +kernel

/-! ### Witnesses: the hypotheses of each obligation that has some are met -/

/-- A `DEC` frame that is not all zero. -/
def someFrame : Frame := frameOfBytes frameN5

/-- A state in the row loop with a clip half gathered. -/
def scanning : State := { runStart (rowX ++ rowY) State.reset with rpos := 16, acc := rowX, accNe := true }

/-- A clip of one row, scanned, its decode under way or over, meets the invariant of a run. -/
theorem runInv_oneClip (cfg : Config) (p : Phase) (hp : p = .frames ∨ p = .finished) :
    RunInv (oneClip rowX cfg p) := by
  have only : ∀ {i : Nat} {c : List Byte}, (oneClip rowX cfg p).clips[i]? = some c → i = 0 ∧ c = rowX := by
    intro i c h
    cases i with
    | zero => exact ⟨rfl, (Option.some.inj h).symm⟩
    | succ i => simp [oneClip] at h
  have empty : ∀ {i : Nat} {q : List Sample}, (oneClip rowX cfg p).pcm[i]? = some q → q = [] := by
    intro i q h
    cases i with
    | zero => exact (Option.some.inj h).symm
    | succ i => simp [oneClip] at h
  have blob : blobRange (oneClip rowX cfg p) 0 16 = rowX := by
    have h : blobRange (oneClip rowX exactConfig .frames) 0 16 = rowX := by decide +kernel
    exact (blobRange_congr rfl rfl 0 16).trans h
  refine ⟨?_, ?_, rfl, fun h => absurd rfl h, ?_, ⟨rfl, Nat.zero_le 28⟩, ?_, ?_, ?_⟩
  · have h : BlobOk (oneClip rowX exactConfig .frames) := ⟨by decide +kernel, by decide +kernel⟩
    exact h
  · exact ⟨Nat.le_refl _, .inr rfl⟩
  · intro c hc
    obtain rfl : c = rowX := by simpa [oneClip] using hc
    exact ⟨by decide, 0, rfl, Nat.le_of_eq (Nat.zero_add _), blob.symm⟩
  · intro i c q _ hq
    simp [empty hq]
  · intro i q hq
    simp [empty hq]
  · rcases hp with rfl | rfl
    · exact ⟨⟨rfl, rfl⟩, rfl, rfl, rowX, [], rfl, rfl, Nat.zero_le _, by simp [oneClip, State.reset]⟩
    · exact ⟨⟨rfl, rfl⟩, rfl⟩

theorem witness_DecodeOfEncodeIsIdentity :
    (Instr.delim 1).wellFormed = true ∧ (Instr.delim 16).wellFormed = true ∧ (Instr.data [1#8]).wellFormed = true ∧
    (Instr.endClip 15#4 15#4).wellFormed = true ∧ (Instr.dec someFrame).wellFormed = true := by decide +kernel

theorem witness_EncodeOfDecodeIsIdentity :
    decode (.row rowX) = .ok (.data rowX) ∧ rowX.length = 16 ∧ rowX.getD 1 0#8 ≠ 7#8 ∧
    decode (.residual 15#4) = .ok (.smp 15#4) ∧ decode (.clip 0) = .ok (.clipstart 0) := by
  exact ⟨rfl, rfl, by decide, rfl, rfl⟩

theorem witness_EveryUnitDecodesWellFormed : ([] : List Byte).length ≤ 16 ∧ rowX.length ≤ 16 := by decide

/-- Each class at its boundary: 15 bytes, a flag of 7 and flags 6 and 8 at 16 bytes. -/
theorem witness_FrameClassByLengthThenFlag :
    (List.replicate 15 7#8).length < 16 ∧
    (16 ≤ (0#8 :: 7#8 :: List.replicate 14 0#8).length ∧ (0#8 :: 7#8 :: List.replicate 14 0#8).getD 1 0#8 = 7#8) ∧
    (16 ≤ (0#8 :: 6#8 :: List.replicate 14 0#8).length ∧ (0#8 :: 6#8 :: List.replicate 14 0#8).getD 1 0#8 ≠ 7#8) ∧
    (16 ≤ (0#8 :: 8#8 :: List.replicate 14 0#8).length ∧ (0#8 :: 8#8 :: List.replicate 14 0#8).getD 1 0#8 ≠ 7#8) := by
  decide

theorem witness_FetchWordIsTheNextUnit :
    decodeTableWord 0 0 = some .flush ∧ decodeTableWord 128 0 = some (.delim 16) ∧
    decodeTableWord 128 (2 ^ 128 - 1) ≠ none ∧ decodeTableWord 4 15 = some (.smp 15#4) := by decide +kernel

/-- Both clauses: one step per operation, and a frame unpacked. -/
theorem witness_StepRunsTheDecodedOperation :
    (fetch (oneClip frameN5 exactConfig .frames) = .item (.frame frameN5) ∧
      decode (.frame frameN5) = .ok (.dec someFrame) ∧ (oneClip frameN5 exactConfig .frames).cfg.grain = .perFrame) ∧
    (fetch (oneClip frameN5 bySample .frames) = .item (.frame frameN5) ∧
      (oneClip frameN5 bySample .frames).cfg.grain = .perSample) ∧
    (fetch State.reset = .item (.row []) ∧ decode (.row []) = .ok .flush ∧ ∀ f, Instr.flush ≠ .dec f) := by
  refine ⟨⟨rfl, rfl, rfl⟩, ⟨rfl, rfl⟩, rfl, rfl, by simp⟩

/-- Inside the blob and at its end. -/
theorem witness_RowFetchStaysInsideTheBlob :
    (scanning.phase = .scan ∧ scanning.rpos < scanning.len) ∧ (State.reset.phase = .scan ∧ State.reset.rpos ≤ State.reset.len) :=
  ⟨⟨rfl, by decide⟩, rfl, by decide⟩

theorem witness_StepKeepsInvariant :
    ∃ t, RunInv (oneClip rowX exactConfig .frames) ∧ step (oneClip rowX exactConfig .frames) = .next t := by
  obtain ⟨t, ht⟩ : ∃ t, step (oneClip rowX exactConfig .frames) = .next t :=
    exists_of_completes (by decide +kernel)
  exact ⟨t, runInv_oneClip _ _ (.inl rfl), ht⟩

theorem witness_InvariantAtRunStart :
    FrameCursorOk State.reset ∧ FrameCursorOk { State.reset with fpos := 16, k := 28 } :=
  ⟨⟨rfl, by decide⟩, rfl, by decide⟩

/-- Both domains. -/
theorem witness_StepTotalButForNumericFault :
    (RunInv (oneClip rowX exactConfig .frames) ∧ (oneClip rowX exactConfig .frames).cfg.num = .exact) ∧
    (RunInv (oneClip rowX Config.recommended .frames) ∧ (oneClip rowX Config.recommended .frames).cfg.num = .binary64) :=
  ⟨⟨runInv_oneClip _ _ (.inl rfl), rfl⟩, runInv_oneClip _ _ (.inl rfl), rfl⟩

/-- A step from a history in the domain, and a table of binary64 values with both zeros. -/
theorem witness_HistoryAndCoefInNum :
    (∃ t, HistoryInNum (datapath 8#4 2 (243 / 4) 16) ∧ step (datapath 8#4 2 (243 / 4) 16) = .next t) ∧
      InNum .binary64 (.ofRat (15 / 16)) ∧ InNum .binary64 .negZero ∧ InNum .exact (.ofRat (1 / 3)) := by
  obtain ⟨t, ht⟩ : ∃ t, step (datapath 8#4 2 (243 / 4) 16) = .next t := exists_of_completes (by decide +kernel)
  refine ⟨⟨t, ⟨?_, ?_⟩, ht⟩, ?_, rfl, rfl⟩
  · show roundNum .binary64 (243 / 4) = some (243 / 4)
    decide +kernel
  · show roundNum .binary64 16 = some 16
    decide +kernel
  · show roundNum .binary64 (15 / 16) = some (15 / 16)
    decide +kernel

theorem witness_InputsAreReadOnly : ∃ t, step scanning = .next t := exists_of_completes (by decide +kernel)

theorem witness_OutputsAppendOnly :
    ∃ t, RunInv (oneClip rowX exactConfig .frames) ∧ step (oneClip rowX exactConfig .frames) = .next t ∧
      (oneClip rowX exactConfig .frames).pcm[0]? = some [] := by
  obtain ⟨t, hi, ht⟩ := witness_StepKeepsInvariant
  exact ⟨t, hi, ht, rfl⟩

/-- Both clauses: the start of a clip, and a step that changes the history. -/
theorem witness_FilterResetOnlyAtClipStart :
    (∃ t, step { State.reset with hist1 := .ofRat 5, phase := .start 0 } = .next t) ∧
    (∃ t, step (datapath 0#4 0 0 0) = .next t) ∧
    ∃ t, step { datapath 0#4 0 0 0 with nib := Vector.replicate 28 1#4 } = .next t ∧
      ¬ SameHistory { datapath 0#4 0 0 0 with nib := Vector.replicate 28 1#4 } t := by
  refine ⟨exists_of_completes (by decide +kernel), exists_of_completes (by decide +kernel), ?_⟩
  obtain ⟨t, ht⟩ : ∃ t, step { datapath 0#4 0 0 0 with nib := Vector.replicate 28 1#4 } = .next t :=
    exists_of_completes (by decide +kernel)
  have h : after (step { datapath 0#4 0 0 0 with nib := Vector.replicate 28 1#4 }) (fun t => t.hist1) = some (.ofRat 4096) := by
    decide +kernel
  rw [ht] at h
  refine ⟨t, ht, fun hs => ?_⟩
  have h1 : t.hist1 = .ofRat 4096 := Option.some.inj h
  have h2 : t.hist1 = .ofRat 0 := hs.1
  rw [h1] at h2
  exact absurd h2 (by decide)

/-- A run over its end on a clip that a sentinel ended, and the scan of the run after it. -/
theorem witness_HaltedClipIsLeft :
    let s := { oneClip rowX exactConfig .finished with halt := true }
    let t := { State.reset with halt := true }
    (RunInv s ∧ s.halt = true ∧ (∀ i, s.phase ≠ .start i) ∧ step s = .next s) ∧
      RunInv t ∧ t.halt = true ∧ (∀ i, t.phase ≠ .start i) ∧ ∃ u, step t = .next u := by
  refine ⟨⟨?_, rfl, by simp [oneClip], rfl⟩, ?_, rfl, by simp [State.reset], exists_of_completes (by decide +kernel)⟩
  · exact { runInv_oneClip exactConfig .finished (.inr rfl) with }
  · exact ⟨⟨rfl, rfl⟩, ⟨le_rfl, .inl rfl⟩, rfl, fun h => absurd rfl h, nofun, ⟨rfl, by decide⟩, nofun, nofun, rfl⟩

/-- The last 16 bytes of a clip, and a clip after it or none. -/
theorem witness_SentinelFrameEndsTheClip :
    let c : List Byte := 0x33#8 :: 0x07#8 :: List.replicate 14 0x55#8
    let s := oneClip c exactConfig .frames
    let t := { s with clips := [c, rowX] }
    (s.halt = false ∧ s.clips[s.cidx]? = some c ∧ 16 ≤ (c.drop s.fpos).length ∧ (c.drop s.fpos).getD 1 0#8 = 7#8) ∧
    (t.clips[t.cidx]? = some c ∧ t.cidx + 1 < t.clips.length) ∧ ¬ s.cidx + 1 < s.clips.length := by
  decide +kernel

/-- A tail of 0 and of 15 bytes. -/
theorem witness_TailEndsTheClip :
    let s := { oneClip rowX exactConfig .frames with fpos := 16 }
    let t := oneClip (rowX.take 15) exactConfig .frames
    (s.halt = false ∧ s.clips[s.cidx]? = some rowX ∧ rowX.length - s.fpos = 0) ∧
    (t.halt = false ∧ t.clips[t.cidx]? = some (rowX.take 15) ∧ (rowX.take 15).length - t.fpos = 15) := by decide +kernel

theorem witness_EveryStepNearsTheEnd :
    ∃ t, RunInv (oneClip rowX exactConfig .frames) ∧ (oneClip rowX exactConfig .frames).phase ≠ .finished ∧
      step (oneClip rowX exactConfig .frames) = .next t := by
  obtain ⟨t, hi, ht⟩ := witness_StepKeepsInvariant
  exact ⟨t, hi, by decide, ht⟩

theorem witness_EveryRunEnds :
    FrameCursorOk { State.reset with cfg := exactConfig } ∧ ({ State.reset with cfg := exactConfig } : State).cfg.num = .exact :=
  ⟨⟨rfl, by decide⟩, rfl⟩

theorem witness_SampleStepsRefineDec :
    (oneClip frameN5 bySample .frames).phase = .frames ∧ (oneClip frameN5 bySample .frames).cfg.grain = .perSample ∧
    fetch (oneClip frameN5 bySample .frames) = .item (.frame frameN5) ∧ decode (.frame frameN5) = .ok (.dec someFrame) :=
  ⟨rfl, rfl, rfl, rfl⟩

/-- A blob of zero bytes, and one without a zero row. -/
theorem witness_SplitEdgeCases :
    (∀ b ∈ List.replicate 17 0#8, b = 0#8) ∧ rowX ≠ [] ∧ ∀ row ∈ rowsOf rowX, ∃ b ∈ row, b ≠ 0#8 := by decide +kernel

/-- The two clips of S1. -/
theorem witness_SplitReproducesClips :
    ∀ c ∈ [rowX ++ rowY, rowX], c ≠ [] ∧ c.length % 16 = 0 ∧ ∀ row ∈ rowsOf c, ∃ b ∈ row, b ≠ 0#8 := by decide +kernel

theorem witness_RunComputesDecode :
    decodeBlob State.reset.cfg rowX = some [List.replicate 28 1#16] ∧ exactConfig.num = .exact := by
  exact ⟨by decide +kernel, rfl⟩

/-- A clip without a sentinel frame, and one whose frame 1 is the first. -/
theorem witness_StreamLength :
    (decodeClip exactConfig rowX = some (List.replicate 28 1#16) ∧
      ∀ j, j < rowX.length / 16 → rowX.getD (16 * j + 1) 0#8 ≠ 7#8) ∧
    let c := rowX ++ (0x33#8 :: 0x07#8 :: List.replicate 14 0x55#8) ++ rowX
    decodeClip exactConfig c = some (List.replicate 28 1#16) ∧ 1 < c.length / 16 ∧ c.getD (16 * 1 + 1) 0#8 = 7#8 ∧
      ∀ j, j < 1 → c.getD (16 * j + 1) 0#8 ≠ 7#8 := by decide +kernel

theorem witness_AccFlagFollowsAcc :
    (Instr.data rowX).wellFormed = true ∧ AccFlagOk State.reset ∧ ∃ t, exec (.data rowX) State.reset = .next t :=
  ⟨by decide, rfl, _, rfl⟩

theorem witness_CdxFrame :
    (∃ t, exec (.delim 16) scanning = .next t) ∧ (∃ t, exec (.data rowY) scanning = .next t) ∧
      ∃ t, exec .flush scanning = .next t := ⟨⟨_, rfl⟩, ⟨_, rfl⟩, _, rfl⟩

/-- Another stream beside the one opened, before it and after it. -/
theorem witness_ClipstartClearsTheFilter :
    let s := { State.reset with pcm := [[1#16], [2#16], [3#16]] }
    (0 ≠ 1 ∧ s.pcm[0]? = some [1#16]) ∧ (2 ≠ 1 ∧ s.pcm[2]? = some [3#16]) := by decide

theorem witness_AfdControlFrame :
    (∃ t, exec (.clipstart 0) State.reset = .next t) ∧ (∃ t, exec .tail State.reset = .next t) ∧
      ∃ t, exec (.endClip 3#4 3#4) State.reset = .next t := ⟨⟨_, rfl⟩, ⟨_, rfl⟩, _, rfl⟩

theorem witness_DecRunsTwentyEightSamples :
    ∃ r, (datapath 0#4 0 0 0).pcm[(datapath 0#4 0 0 0).cidx]? = some [] ∧
      samplesOf Config.recommended someFrame.shift (clampPred someFrame.pnib) someFrame.res.toList (.ofRat 0, .ofRat 0) = some r := by
  have h : (samplesOf Config.recommended someFrame.shift (clampPred someFrame.pnib) someFrame.res.toList (.ofRat 0, .ofRat 0)).isSome := by
    decide +kernel
  exact ⟨_, rfl, Option.eq_some_of_isSome h⟩

/-- For `ExactDecCompletes`, and the exact clause of `SmpComputesThePrediction`. -/
theorem witness_ExactCompletes :
    (oneClip rowX exactConfig .frames).cfg.num = .exact ∧
      (oneClip rowX exactConfig .frames).pcm[(oneClip rowX exactConfig .frames).cidx]? = some [] := ⟨rfl, rfl⟩

theorem witness_PredictorZeroFrame :
    (frameOfBytes rowX).pnib = 0#4 ∧ (datapath 0#4 0 5 3).pcm[(datapath 0#4 0 5 3).cidx]? = some [] := by decide +kernel

/-- The zero frame of R131 that reaches AFD. -/
theorem witness_ZeroFrame :
    let f := frameOfBytes (0x00#8 :: 0x01#8 :: List.replicate 14 0#8)
    f.pnib = 0#4 ∧ f.shift = 0#4 ∧ f.flag ≠ 7#8 ∧ f.res = Vector.replicate 28 0#4 ∧
      (datapath 0#4 0 0 0).hist1 = .ofRat 0 ∧ (datapath 0#4 0 0 0).hist2 = .ofRat 0 ∧
      (datapath 0#4 0 0 0).pcm[(datapath 0#4 0 0 0).cidx]? = some [] := by decide +kernel

theorem witness_PredictorNibbleClamps : 4 ≤ (4#4).toNat ∧ 4 ≤ (15#4).toNat := by decide

theorem witness_DecFlagHasNoEffect : ∃ t, exec (.dec { someFrame with flag := 3#8 }) (datapath 0#4 0 0 0) = .next t :=
  exists_of_completes (by decide +kernel)

theorem witness_FrameDecodeIsPure :
    let s₁ := datapath 0#4 0 5 0
    let s₂ := { datapath 9#4 2 5 3 with hist2 := .negZero, cidx := 1, pcm := [[1#16], [2#16]], rpos := 48 }
    s₁.cfg = s₂.cfg ∧ s₁.hist1.value = s₂.hist1.value ∧ s₁.hist2.value = s₂.hist2.value ∧ s₁.pcm[s₁.cidx]? = some [] ∧ s₂.pcm[s₂.cidx]? = some [2#16] ∧
      ∃ t, exec (.dec someFrame) s₁ = .next t :=
  ⟨rfl, rfl, rfl, rfl, rfl, exists_of_completes (by decide +kernel)⟩

/-- The two inner conditions at their boundaries. -/
theorem witness_RawValueIsFlooredQuotient : (12#4).toNat ≤ 12 ∧ 8 ≤ (8#4).toNat := by decide

theorem witness_SmpAdvancesTheFilter :
    let s := datapath 8#4 2 (243 / 4) 16
    s.pcm[s.cidx]? = some [] ∧
      predict s.cfg.num (.ofRat (rawValue 3#4 s.shift)) s.hist1 s.hist2 (s.cfg.coef s.pred) =
        some (.ofRat (14416015625 / 100000000)) := by
  decide +kernel

theorem witness_PredictorZeroSample :
    (datapath 3#4 0 5 3).pred = 0 ∧ (datapath 3#4 0 5 3).pcm[(datapath 3#4 0 5 3).cidx]? = some [] := ⟨rfl, rfl⟩

/-- The binary64 clause: the third sample of R158, no rounding overflowing, and a first product that does. -/
theorem witness_SmpComputesThePrediction :
    (let s := datapath 8#4 2 (243 / 4) 16
     s.cfg.num = .binary64 ∧ s.pcm[s.cidx]? = some [] ∧
      round64 (s.hist1.value * (s.cfg.coef s.pred).c0.value) = some (10916015625 / 100000000) ∧
      round64 (rawValue 3#4 s.shift + 10916015625 / 100000000) = some (15716015625 / 100000000) ∧
      round64 (s.hist2.value * (s.cfg.coef s.pred).c1.value) = some (-13) ∧
      round64 (15716015625 / 100000000 + -13) = some (14416015625 / 100000000)) ∧
    let s := { datapath 0#4 1 (2 ^ 1023) 0 with cfg := coefOne ⟨false, 1024, 0#52⟩ }
    s.cfg.num = .binary64 ∧ s.pcm[s.cidx]? = some [] ∧
      round64 (s.hist1.value * (s.cfg.coef s.pred).c0.value) = none := by decide +kernel

theorem witness_SmpFaultsOnNonFinite : (datapath 8#4 2 0 0).cidx < (datapath 8#4 2 0 0).pcm.length := by decide

theorem witness_SampleFrame :
    (∃ t, exec (.smp 9#4) (datapath 8#4 2 (243 / 4) 16) = .next t) ∧
      ∃ t, exec (.dec someFrame) (datapath 0#4 0 0 0) = .next t :=
  ⟨exists_of_completes (by decide +kernel), exists_of_completes (by decide +kernel)⟩

/-- A value that is rounded, and a tie whose two neighbours are binary64 values. -/
theorem witness_RoundsToNearestEven :
    round64 (2 ^ 53 + 1) = some (2 ^ 53) ∧ Binary64Value (2 ^ 53 + 2) ∧ (2 ^ 53 + 2 : Rat) ≠ 2 ^ 53 ∧
      |(2 ^ 53 + 1 : Rat) - (2 ^ 53 + 2)| = |(2 ^ 53 + 1 : Rat) - 2 ^ 53| := by
  refine ⟨by decide +kernel, ⟨2 ^ 52 + 1, 1, by norm_num, by norm_num, by norm_num, by norm_num⟩, by norm_num, by norm_num⟩

/-- The midpoint itself overflows, the value one below it does not. -/
theorem witness_RoundingOverflows :
    round64 (((2 ^ 1024 - 2 ^ 970 : Nat) : Int) : Rat) = none ∧
      (round64 (((2 ^ 1024 - 2 ^ 970 - 1 : Nat) : Int) : Rat)).isSome = true := by decide +kernel

theorem witness_NumOfIntegerIsExact : (-32768 : Int) ≤ -32768 ∧ (32768 : Int) ≤ 32768 := by decide

theorem witness_DomainsAgreeWhenRepresentable :
    ∀ x ∈ [(2 : Rat) * (1 / 2), 1 + 2 * (1 / 2), 4 * (-1 / 4), 1 + 2 * (1 / 2) + 4 * (-1 / 4)], Binary64Value x := by
  have one : Binary64Value 1 := ⟨1, 0, by norm_num, by norm_num, by norm_num, by norm_num⟩
  have two : Binary64Value 2 := ⟨2, 0, by norm_num, by norm_num, by norm_num, by norm_num⟩
  have neg : Binary64Value (-1) := ⟨-1, 0, by norm_num, by norm_num, by norm_num, by norm_num⟩
  intro x hx
  norm_num at hx
  rcases hx with rfl | rfl | rfl | rfl <;> assumption

/-- Each case: an override, no rates, a short table, a table of equal and of greater length. -/
theorem witness_ReconcilerCases :
    ({ HostConfig.nominal with overrideRate := some 44100 } : HostConfig).overrideRate = some 44100 ∧
    HostConfig.nominal.overrideRate = none ∧ [8000#16] ≠ [] ∧ [8000#16].length < 2 ∧ 1 ≤ [8000#16].length ∧
    0 ≤ [8000#16].length := by decide

/-- A tag at the first place looked at, one at the second, and none. -/
theorem witness_HdScanFindsFirstTag :
    hdScan .little bufferH1 (bufferH1.length / 8) 0 = some 4 ∧
    hdScan .little (List.replicate 8 0#8 ++ bufferH1) ((List.replicate 8 0#8 ++ bufferH1).length / 8) 0 = some 12 ∧
    hdScan .little bufferH3 (bufferH3.length / 8) 0 = none := by decide +kernel

theorem witness_HdTableLayout :
    readHd .little bufferH1 = .found [4410#16, 8800#16] ∧ [4410#16, 8800#16][0]? = some 4410#16 ∧
      [4410#16, 8800#16][1]? = some 8800#16 := by decide +kernel

/-- A blob with a defined decode, with no hd file, with one, and with one that is refused. -/
theorem witness_OneStreamPerClip :
    FrameCursorOk State.reset ∧ decodeBlob State.reset.cfg rowX = some [List.replicate 28 1#16] ∧
    HostConfig.nominal.overrideRate = none ∧ hdRates .nominal .absent = some ([], []) ∧
    hdRates .nominal (.contents bufferH1) = some ([4410#16, 8800#16], []) ∧
    orchestrate .nominal (.contents bufferH1) (some rowX) State.reset = .streams [⟨List.replicate 28 1#16, 4410, 1, 16⟩] [] ∧
    hdRates .nominal (.contents (bufferH1.take 20)) = none :=
  ⟨⟨rfl, by decide⟩, by decide +kernel⟩

end Sys2Proof.Tests
end

section
/-! ## A run computes `Decode` (R2, R63, R224) -/

namespace Sys2Proof.Machine

/-! ### Sequencing and single steps -/

/-- Two continuations that agree on the next state of the first part give the same sequence. -/
theorem andThen_congr {o : Result} {f g : State → Result} (h : ∀ t, o = .next t → f t = g t) :
    andThen o f = andThen o g := by
  cases o with
  | next t => exact h t rfl
  | fault _ => rfl
  | refused _ => rfl

@[simp] theorem andThen_id (o : Result) : (andThen o fun t => .next t) = o := by cases o <;> rfl

@[simp] theorem runSteps_one (s : State) : runSteps 1 s = step s := by
  rw [runSteps_succ]
  exact andThen_id (step s)

/-- A run cut after its first `j` steps. -/
theorem runSteps_add_of_next {j k : Nat} {s t : State} (h : runSteps j s = .next t) :
    runSteps (j + k) s = runSteps k t := by rw [runSteps_add, h, andThen_next]

theorem setPhase_self {p : Phase} {s : State} (h : s.phase = p) : setPhase p s = s := by
  subst h
  rfl

/-! ### The scan -/

/-- What the accumulator gives where it is closed: one clip, or none if it is empty (R102, R104). -/
def emitted (acc : List Byte) : List (List Byte) := if acc.length = 0 then [] else [acc]

/-- The clips that the rows left, then `FLUSH`, add to `CLIPS` (R101 to R104). -/
def scanClips : List Byte → List (List Byte) → List (List Byte)
  | acc, [] => emitted acc
  | acc, row :: rows =>
    if isZeroRow row then emitted acc ++ scanClips [] rows else scanClips (acc ++ row) rows

/-- `CLIPS` once the rows from `RPOS` on are scanned. -/
def scanResult (s : State) : List (List Byte) := s.clips ++ scanClips s.acc (rowsOf ((blobOf s).drop s.rpos))

/-- The state the scan leaves. -/
def scanned (s : State) : State :=
  { s with rpos := s.len, acc := [], accNe := false, clips := scanResult s, phase := nextClip (scanResult s) 0 }

@[simp] theorem emitted_nil : emitted [] = [] := rfl

theorem closeAcc_clips_eq_emitted (s : State) : (closeAcc s).clips = s.clips ++ emitted s.acc := by
  unfold emitted
  by_cases h : s.acc.length = 0 <;> simp [h]

@[simp] theorem blobOf_advanceRow (n : Nat) (s : State) : blobOf (advanceRow n s) = blobOf s := rfl
@[simp] theorem blobOf_appendAcc (row : List Byte) (s : State) : blobOf (appendAcc row s) = blobOf s := rfl
@[simp] theorem blobOf_closeAcc (s : State) : blobOf (closeAcc s) = blobOf s := rfl

/-- The rows from `RPOS` on: the one fetched, then those after it (R70, R71, R101). -/
theorem rowsOf_drop_rpos {s : State} (h : s.rpos < s.len) :
    rowsOf ((blobOf s).drop s.rpos) =
      blobRange s s.rpos (rowLength s) :: rowsOf ((blobOf s).drop (s.rpos + rowLength s)) := by
  have hne : (blobOf s).drop s.rpos ≠ [] := by simpa using h
  have hrow : ((blobOf s).drop s.rpos).take 16 = blobRange s s.rpos (rowLength s) := by
    simp [blobRange, rowLength, List.take_eq_take_iff]
  have hrest : ((blobOf s).drop s.rpos).drop 16 = (blobOf s).drop (s.rpos + rowLength s) := by
    rw [List.drop_drop, List.drop_eq_drop_iff]
    simp [rowLength]
    omega
  rw [rowsOf_eq_cons _ hne, hrow, hrest]

theorem scanResult_end {s : State} (h : s.rpos = s.len) : scanResult s = (closeAcc s).clips := by
  have hrows : rowsOf ((blobOf s).drop s.rpos) = [] := by
    rw [List.drop_of_length_le (by simp [h]), rowsOf_nil]
  rw [scanResult, hrows, scanClips, closeAcc_clips_eq_emitted]

theorem scanResult_delim {s : State} (h : s.rpos < s.len)
    (hz : isZeroRow (blobRange s s.rpos (rowLength s)) = true) :
    scanResult (advanceRow (rowLength s) (closeAcc s)) = scanResult s := by
  simp [scanResult, rowsOf_drop_rpos h, scanClips, hz, closeAcc_clips_eq_emitted, -closeAcc_clips]

theorem scanResult_data {s : State} (h : s.rpos < s.len)
    (hz : ¬ isZeroRow (blobRange s s.rpos (rowLength s)) = true) :
    scanResult (advanceRow (rowLength s) (appendAcc (blobRange s s.rpos (rowLength s)) s)) = scanResult s := by
  simp [scanResult, rowsOf_drop_rpos h, scanClips, hz]

/-- The row loop and `FLUSH` take one step for each row left and one more (R101, R104). -/
theorem runSteps_scan : ∀ (n : Nat) (s : State), s.phase = .scan → s.rpos ≤ s.len →
    (s.len - s.rpos + 15) / 16 = n → runSteps (n + 1) s = .next (scanned s)
  | 0, s, hp, hle, hn => by
    have hend : s.rpos = s.len := by omega
    rw [runSteps_one, step_flush hp (by omega), scanned, scanResult_end hend]
    simp [setPhase, closeAcc, hend]
  | n + 1, s, hp, hle, hn => by
    have hlt : s.rpos < s.len := by omega
    have hrl : rowLength s = min 16 (s.len - s.rpos) := rfl
    rw [runSteps_succ, step_scan hp hlt]
    split
    case isTrue hz =>
      have ih := runSteps_scan n (advanceRow (rowLength s) (closeAcc s)) hp (by simp; omega) (by simp; omega)
      rw [andThen_next, ih, scanned, scanResult_delim hlt hz]
      rfl
    case isFalse hz =>
      have ih := runSteps_scan n (advanceRow (rowLength s) (appendAcc (blobRange s s.rpos (rowLength s)) s)) hp
        (by simp; omega) (by simp; omega)
      rw [andThen_next, ih, scanned, scanResult_data hlt hz]
      rfl

/-- A run of non-zero rows is closed to its concatenation, or to nothing if it has no row. -/
theorem emitted_flatten {run : List (List Byte)} (h : ∀ row ∈ run, isZeroRow row = false) :
    emitted run.flatten = (([run].filter fun r => !r.isEmpty).map List.flatten) := by
  cases run with
  | nil => rfl
  | cons row rows =>
    have hne : row ≠ [] := fun e => by simpa [e, isZeroRow] using h row
    simp [emitted, hne]

/-- The scan from an accumulator of non-zero rows gives the maximal runs of non-zero rows (R106). `run` holds the rows
of the accumulator, last first. -/
theorem scanClips_eq_runs : ∀ (rows run : List (List Byte)), (∀ row ∈ run, isZeroRow row = false) →
    scanClips run.reverse.flatten rows =
      ((List.splitOnPPrepend isZeroRow rows run).filter fun r => !r.isEmpty).map List.flatten
  | [], run, h => by
    rw [List.splitOnPPrepend_nil]
    exact emitted_flatten (by simpa using h)
  | row :: rows, run, h => by
    cases hz : isZeroRow row with
    | true =>
      have ih := scanClips_eq_runs rows [] (by simp)
      have hrun := emitted_flatten (run := run.reverse) (by simpa using h)
      rw [List.splitOnPPrepend_nil_right] at ih
      rw [List.splitOnPPrepend_cons_pos hz, ← List.singleton_append (x := run.reverse), List.filter_append,
        List.map_append, ← hrun, ← ih]
      simp [scanClips, hz]
    | false =>
      have ih := scanClips_eq_runs rows (row :: run) (by simpa [hz] using h)
      rw [List.splitOnPPrepend_cons_neg hz, ← ih]
      simp [scanClips, hz]

theorem scanClips_rowsOf (blob : List Byte) : scanClips [] (rowsOf blob) = split blob := by
  have h := scanClips_eq_runs (rowsOf blob) [] (by simp)
  rwa [List.splitOnPPrepend_nil_right] at h

/-- The scan of a whole blob (R106). -/
theorem runSteps_scan_runStart (blob : List Byte) (s : State) :
    runSteps ((blob.length + 15) / 16 + 1) (runStart blob s) = .next (scanned (runStart blob s)) :=
  runSteps_scan _ _ rfl (Nat.zero_le _) rfl

theorem scanned_runStart_clips (blob : List Byte) (s : State) : (scanned (runStart blob s)).clips = split blob := by
  show scanClips [] (rowsOf (blobOf (runStart blob s))) = split blob
  rw [blobOf_runStart, scanClips_rowsOf]

/-! ### The cost of the clips of a blob -/

theorem mem_rowsOf_length_le : ∀ (n : Nat) (blob : List Byte), blob.length ≤ n → ∀ row ∈ rowsOf blob, row.length ≤ 16
  | 0, blob, h => by simp [List.eq_nil_of_length_eq_zero (Nat.le_zero.1 h)]
  | n + 1, blob, h => by
    by_cases hb : blob = []
    · simp [hb]
    · rw [rowsOf_eq_cons blob hb, List.forall_mem_cons]
      exact ⟨by simp, mem_rowsOf_length_le n _ (by simp; omega)⟩

theorem rowsOf_length : ∀ (n : Nat) (blob : List Byte), blob.length ≤ n → (rowsOf blob).length = (blob.length + 15) / 16
  | 0, blob, h => by simp [List.eq_nil_of_length_eq_zero (Nat.le_zero.1 h)]
  | n + 1, blob, h => by
    by_cases hb : blob = []
    · simp [hb]
    · have hpos := List.length_pos_iff.2 hb
      rw [rowsOf_eq_cons blob hb, List.length_cons, rowsOf_length n _ (by simp; omega), List.length_drop]
      omega

/-- The cost set aside for the clip an accumulator is the beginning of. -/
def accCost (acc : List Byte) : Nat := if acc.length = 0 then 0 else clipCost (acc.length + 15)

theorem clipsCost_emitted_append (acc : List Byte) (clips : List (List Byte)) :
    clipsCost (emitted acc ++ clips) 0 ≤ accCost acc + clipsCost clips 0 := by
  unfold emitted accCost
  split
  · simp
  · simp only [clipsCost, clipCost, List.drop_zero, List.cons_append, List.nil_append, List.map_cons, List.sum_cons]
    omega

theorem accCost_append_le (acc row : List Byte) (h : row.length ≤ 16) : accCost (acc ++ row) ≤ 32 + accCost acc := by
  unfold accCost clipCost
  rw [List.length_append]
  split
  · omega
  · split <;> omega

/-- The cost of a scan's clips: 32 steps for each row, beside those of the accumulator the rows meet (R233). -/
theorem clipsCost_scanClips : ∀ (rows : List (List Byte)) (acc : List Byte), (∀ row ∈ rows, row.length ≤ 16) →
    clipsCost (scanClips acc rows) 0 ≤ 32 * rows.length + accCost acc
  | [], acc, _ => by simpa [scanClips, clipsCost] using clipsCost_emitted_append acc []
  | row :: rows, acc, hrows => by
    obtain ⟨hrow, hrest⟩ := List.forall_mem_cons.1 hrows
    rw [scanClips, List.length_cons]
    split
    · have hclosed := clipsCost_emitted_append acc (scanClips [] rows)
      have ih := clipsCost_scanClips rows [] hrest
      have hnil : accCost [] = 0 := rfl
      omega
    · have hgrown := accCost_append_le acc row hrow
      have ih := clipsCost_scanClips rows (acc ++ row) hrest
      omega

/-- A whole run fits its bound (R68, R233). -/
theorem scan_and_clips_le_runBound (blob : List Byte) :
    (blob.length + 15) / 16 + 1 + clipsCost (split blob) 0 ≤ runBound blob.length := by
  have h := clipsCost_scanClips (rowsOf blob) [] (mem_rowsOf_length_le _ blob le_rfl)
  rw [scanClips_rowsOf, rowsOf_length _ blob le_rfl] at h
  have hnil : accCost [] = 0 := rfl
  unfold runBound
  omega

end Sys2Proof.Machine
end

section
namespace Sys2Proof.Machine

/-! ### A frame, in either granularity (R125, R126, D28) -/

theorem sample_setPhase (p : Phase) (n : Nib) (s : State) :
    sample n (setPhase p s) = andThen (sample n s) fun t => .next (setPhase p t) := by
  rcases sample_cases n s with ⟨hn, h⟩ | ⟨new, hn, ⟨hq, h⟩ | ⟨q, hq, h⟩⟩
  · simp [sample, hn]
  · simp [sample, appendSample, hn, hq]
  · rw [h]
    simp [sample, appendSample, hn, hq, putSample, setPhase]

/-- The position in the schedule plays no part in the samples. -/
theorem sampleAll_setPhase (p : Phase) : ∀ (ns : List Nib) (s : State),
    sampleAll ns (setPhase p s) = andThen (sampleAll ns s) fun t => .next (setPhase p t)
  | [], _ => rfl
  | n :: ns, s => by
    simp only [sampleAll, sample_setPhase, andThen_assoc, andThen_next]
    exact andThen_congr fun t _ => sampleAll_setPhase p ns t

/-- The steps of the samples left in a frame, then the move past it (R126, R140). -/
theorem runSteps_samples : ∀ (n : Nat) (s : State), s.phase = .samples → s.k + (n + 1) = 28 →
    runSteps (n + 1) s = andThen (sampleAll (s.nib.toList.drop s.k) s) fun t => .next (closeFrame t)
  | n, s, hp, hn => by
    have hk : s.k < 28 := by omega
    have hdrop : s.nib.toList.drop s.k = s.nib[s.k] :: s.nib.toList.drop (s.k + 1) := by
      rw [List.drop_eq_getElem_cons (by simpa using hk), Vector.getElem_toList]
    rw [runSteps_succ, step_smp hp hk, hdrop, sampleAll, andThen_assoc, andThen_assoc]
    refine andThen_congr fun t ht => ?_
    have keeps := sample_keeps ht
    have htk : t.k = s.k + 1 := by
      obtain ⟨_, _, _, _, rfl⟩ := sample_eq_next ht
      rfl
    rw [andThen_next, ← keeps.nib, ← htk]
    cases n with
    | zero =>
      rw [if_neg (by omega), List.drop_of_length_le (by simp; omega)]
      rfl
    | succ n =>
      rw [if_pos (by omega)]
      exact runSteps_samples n t (keeps.phase.trans hp) (by omega)

/-- A frame taken sample by sample: 29 steps do what `DEC` does in one. -/
theorem runSteps_dec_perSample {s : State} {c : List Byte} {f : Frame} (hp : s.phase = .frames)
    (hg : s.cfg.grain = .perSample) (hh : s.halt = false) (hc : s.clips[s.cidx]? = some c)
    (hd : decodeFrame (c.drop s.fpos) = .dec f) : runSteps 29 s = exec (.dec f) s := by
  have hopen : step s = .next (setPhase .samples (latchFrame f s)) := by
    rw [step_frame hp hh hc hd, issue_dec_perSample hg]
    rfl
  rw [runSteps_succ, hopen, andThen_next, runSteps_samples 27 _ rfl rfl, exec_dec]
  simp only [setPhase_nib, setPhase_k, latchFrame_nib, latchFrame_k, List.drop_zero]
  rw [sampleAll_setPhase, andThen_assoc]
  refine andThen_congr fun t ht => ?_
  rw [andThen_next, ← setPhase_self (p := .frames) (s := advanceFrame t) ((sampleAll_keeps ht).phase.trans hp)]
  rfl

/-- A frame taken in one step. -/
theorem step_dec_perFrame {s : State} {c : List Byte} {f : Frame} (hp : s.phase = .frames)
    (hg : s.cfg.grain = .perFrame) (hh : s.halt = false) (hc : s.clips[s.cidx]? = some c)
    (hd : decodeFrame (c.drop s.fpos) = .dec f) : step s = exec (.dec f) s := by
  rw [step_frame hp hh hc hd, issue_eq_exec (.inl hg)]
  exact andThen_id _

/-- The state a `DEC` frame leaves where the stream holds `p`: the frame's fields latched, its samples and the history
after them being `r`. -/
def frameDecoded (f : Frame) (p : List Sample) (r : (NumVal × NumVal) × List Sample) (s : State) : State :=
  { s with
    shift := f.shift, pred := clampPred f.pnib, flag := f.flag, nib := f.res, k := 28,
    hist1 := r.1.1, hist2 := r.1.2, pcm := s.pcm.set s.cidx (p ++ r.2), fpos := s.fpos + 16 }

/-- `DEC` where the stream is open and every prediction finite (R125, R126). -/
theorem exec_dec_of_samplesOf {f : Frame} {s : State} {p : List Sample} {r : (NumVal × NumVal) × List Sample}
    (hp : s.pcm[s.cidx]? = some p)
    (hr : samplesOf s.cfg f.shift (clampPred f.pnib) f.res.toList (s.hist1, s.hist2) = some r) :
    exec (.dec f) s = .next (frameDecoded f p r s) := by
  have hp' : (latchFrame f s).pcm[(latchFrame f s).cidx]? = some p := hp
  rw [exec_dec, sampleAll_eq _ _ p hp']
  simp [hr, frameDecoded, latchFrame, latchResiduals, latchFlag, latchHeader, advanceFrame]

/-! ### A clip (R122, R127, R128) -/

/-- The frame loop on clip `c`, the samples `p` of it decoded so far. -/
structure Decoding (s : State) (c : List Byte) (p : List Sample) : Prop where
  phase : s.phase = .frames
  halt : s.halt = false
  clip : s.clips[s.cidx]? = some c
  stream : s.pcm[s.cidx]? = some p

/-- The clip that was being decoded in `s` is done in `t`, with the samples `p`. -/
structure ClipDone (s t : State) (p : List Sample) : Prop where
  phase : t.phase = nextClip s.clips (s.cidx + 1)
  clips : t.clips = s.clips
  cfg : t.cfg = s.cfg
  pcm : t.pcm = s.pcm.set s.cidx p

theorem framesOf_of_not_dec {cfg : Config} {bytes : List Byte} (h : ∀ f, decodeFrame bytes ≠ .dec f) (fuel : Nat)
    (hist : NumVal × NumVal) : framesOf cfg fuel bytes hist = some [] := by
  cases fuel with
  | zero => rfl
  | succ fuel =>
    rw [framesOf]
    split
    · exact absurd ‹_› (h _)
    · rfl

theorem framesOf_of_dec {cfg : Config} {bytes : List Byte} {f : Frame} (h : decodeFrame bytes = .dec f) (fuel : Nat)
    (hist : NumVal × NumVal) :
    framesOf cfg (fuel + 1) bytes hist =
      (samplesOf cfg f.shift (clampPred f.pnib) f.res.toList hist).bind fun r =>
        (framesOf cfg fuel (bytes.drop 16) r.1).map fun rest => r.2 ++ rest := by
  rw [framesOf, h]

theorem length_le_of_decodeFrame_dec {rest : List Byte} {f : Frame} (h : decodeFrame rest = .dec f) :
    16 ≤ rest.length := by
  rcases decodeFrame_cases rest with ⟨_, hd⟩ | ⟨hl, _, _⟩ | ⟨hl, _, _⟩
  · rw [hd] at h
    cases h
  · exact hl
  · exact hl

/-- A tail or a sentinel frame ends the clip in one step, with no sample (R124, R127). -/
theorem step_endsClip {s : State} {c : List Byte} {p : List Sample} (h : Decoding s c p)
    (hd : ∀ f, decodeFrame (c.drop s.fpos) ≠ .dec f) : ∃ t, step s = .next t ∧ ClipDone s t p := by
  have hpcm : s.pcm = s.pcm.set s.cidx p := (set_getElem?_self h.stream).symm
  rcases decodeFrame_cases (c.drop s.fpos) with ⟨_, hf⟩ | ⟨_, _, hf⟩ | ⟨_, _, hf⟩
  · rw [step_frame h.phase h.halt h.clip hf, issue_eq_exec (.inr (by simp)), exec_tail]
    exact ⟨_, rfl, rfl, rfl, rfl, hpcm⟩
  · rw [step_frame h.phase h.halt h.clip hf, issue_eq_exec (.inr (by simp)), exec_endClip]
    exact ⟨_, rfl, rfl, rfl, rfl, hpcm⟩
  · exact absurd hf (hd _)

/-- A `DEC` frame takes at most 29 steps, in either granularity. -/
theorem runSteps_dec {s : State} {c : List Byte} {p : List Sample} {f : Frame} (h : Decoding s c p)
    (hd : decodeFrame (c.drop s.fpos) = .dec f) : ∃ j ≤ 29, runSteps j s = exec (.dec f) s := by
  cases hg : s.cfg.grain with
  | perFrame => exact ⟨1, by omega, (runSteps_one s).trans (step_dec_perFrame h.phase hg h.halt h.clip hd)⟩
  | perSample => exact ⟨29, le_rfl, runSteps_dec_perSample h.phase hg h.halt h.clip hd⟩

/-- The frame loop on the rest of a clip gives the samples of its frames (R122). -/
theorem runSteps_frames : ∀ (fuel : Nat) {s : State} {c : List Byte} {p out : List Sample}, Decoding s c p →
    (c.drop s.fpos).length / 16 = fuel →
    framesOf s.cfg fuel (c.drop s.fpos) (s.hist1, s.hist2) = some out →
    ∃ j t, j ≤ 29 * fuel + 1 ∧ runSteps j s = .next t ∧ ClipDone s t (p ++ out)
  | fuel, s, c, p, out, h, hfuel, hout => by
    by_cases hd : ∃ f, decodeFrame (c.drop s.fpos) = .dec f
    · obtain ⟨f, hf⟩ := hd
      have hlen := length_le_of_decodeFrame_dec hf
      obtain ⟨fuel, rfl⟩ : ∃ m, fuel = m + 1 := ⟨fuel - 1, by omega⟩
      rw [framesOf_of_dec hf] at hout
      obtain ⟨r, hr, hmap⟩ := Option.bind_eq_some_iff.1 hout
      obtain ⟨rest, hrest, rfl⟩ := Option.map_eq_some_iff.1 hmap
      obtain ⟨i, hi, hrun⟩ := runSteps_dec h hf
      rw [exec_dec_of_samplesOf h.stream hr] at hrun
      have hlt : s.cidx < s.pcm.length := (List.getElem?_eq_some_iff.1 h.stream).1
      have hdec : Decoding (frameDecoded f p r s) c (p ++ r.2) :=
        ⟨h.phase, h.halt, h.clip, by simp [frameDecoded, hlt]⟩
      have hdrop : (c.drop s.fpos).drop 16 = c.drop (frameDecoded f p r s).fpos := List.drop_drop
      rw [hdrop] at hrest
      have hfuel' : (c.drop (frameDecoded f p r s).fpos).length / 16 = fuel := by
        rw [← hdrop, List.length_drop]
        omega
      obtain ⟨j, t, hj, ht, done⟩ := runSteps_frames fuel hdec hfuel' hrest
      refine ⟨i + j, t, by omega, (runSteps_add_of_next hrun).trans ht, done.phase, done.clips, done.cfg, ?_⟩
      rw [done.pcm]
      simp [frameDecoded]
    · obtain ⟨t, ht, done⟩ := step_endsClip h (not_exists.1 hd)
      rw [framesOf_of_not_dec (not_exists.1 hd)] at hout
      obtain rfl := Option.some.inj hout
      exact ⟨1, t, by omega, (runSteps_one s).trans ht, by simpa using done⟩

/-! ### The clips of a blob, in order -/

/-- The start of a clip whose stream is the next one to open (R121). -/
def clipStarted (s : State) : State :=
  { s with
    cidx := s.pcm.length, hist1 := ofInt 0, hist2 := ofInt 0, fpos := 0, halt := false, pcm := s.pcm ++ [[]]
    phase := .frames }

theorem step_clipStarted {s : State} (hp : s.phase = .start s.pcm.length) : step s = .next (clipStarted s) := by
  rw [step_start hp]
  simp [clipStarted, openStream]

/-- One clip takes at most `clipCost` steps and appends one stream, its decode (R122). -/
theorem runSteps_clip {s : State} {c : List Byte} {out : List Sample} (hp : s.phase = .start s.pcm.length)
    (hc : s.clips[s.pcm.length]? = some c) (hout : decodeClip s.cfg c = some out) :
    ∃ j t, j ≤ clipCost c.length ∧ runSteps j s = .next t ∧ t.phase = nextClip s.clips (s.pcm.length + 1) ∧
      t.clips = s.clips ∧ t.cfg = s.cfg ∧ t.pcm = s.pcm ++ [out] := by
  have hdec : Decoding (clipStarted s) c [] := ⟨rfl, rfl, hc, by simp [clipStarted]⟩
  obtain ⟨j, t, hj, ht, done⟩ := runSteps_frames (c.length / 16) hdec (by simp [clipStarted]) hout
  refine ⟨1 + j, t, by unfold clipCost; omega, ?_, done.phase, done.clips, done.cfg, ?_⟩
  · rw [runSteps_add_of_next ((runSteps_one s).trans (step_clipStarted hp)), ht]
  · rw [done.pcm]
    simp [clipStarted]

/-- The clips left are decoded in order and the run is over (R128, R224). -/
theorem runSteps_clips : ∀ (rest : List (List Byte)) {s : State} {outs : List (List Sample)},
    s.clips.drop s.pcm.length = rest → s.phase = nextClip s.clips s.pcm.length →
    rest.mapM (decodeClip s.cfg) = some outs →
    ∃ j t, j ≤ clipsCost s.clips s.pcm.length ∧ runSteps j s = .next t ∧ t.phase = .finished ∧
      t.clips = s.clips ∧ t.pcm = s.pcm ++ outs
  | [], s, outs, hrest, hp, hout => by
    have hle : s.clips.length ≤ s.pcm.length := List.drop_eq_nil_iff.1 hrest
    obtain rfl : outs = [] := by simpa using hout.symm
    exact ⟨0, s, Nat.zero_le _, rfl, by rw [hp, nextClip, if_neg (by omega)], rfl, (List.append_nil _).symm⟩
  | c :: rest, s, outs, hrest, hp, hout => by
    have hc : s.clips[s.pcm.length]? = some c := by rw [← List.head?_drop, hrest]; rfl
    have hlt := (List.getElem?_eq_some_iff.1 hc).1
    have hrest' : s.clips.drop (s.pcm.length + 1) = rest := by rw [← List.tail_drop, hrest]; rfl
    rw [List.mapM_cons] at hout
    obtain ⟨out, ho, hout⟩ := Option.bind_eq_some_iff.1 hout
    obtain ⟨outs, hos, hout⟩ := Option.bind_eq_some_iff.1 hout
    obtain rfl := Option.some.inj hout
    obtain ⟨i, u, hi, hu, hphase, hclips, hcfg, hpcm⟩ :=
      runSteps_clip (by rw [hp, nextClip, if_pos hlt]) hc ho
    have hlen : u.pcm.length = s.pcm.length + 1 := by simp [hpcm]
    obtain ⟨j, t, hj, ht, hfin, htc, htp⟩ := runSteps_clips rest (s := u) (by rw [hclips, hlen, hrest'])
      (by rw [hphase, hclips, hlen]) (by rw [hcfg, hos])
    refine ⟨i + j, t, ?_, (runSteps_add_of_next hu).trans ht, hfin, htc.trans hclips, by simp [htp, hpcm]⟩
    rw [hclips, hlen] at hj
    unfold clipsCost at hj ⊢
    rw [hrest, List.map_cons, List.sum_cons, ← hrest']
    omega

/-! ### The whole run -/

/-- A run on any blob with a defined decode ends within its bound with `CLIPS = Split(B)` and the decodes in `PCM`. -/
theorem run_computes_decode {blob : List Byte} {s : State} {out : List (List Sample)}
    (h : decodeBlob s.cfg blob = some out) :
    ∃ k t, k ≤ runBound blob.length ∧ runSteps k (runStart blob s) = .next t ∧ t.phase = .finished ∧
      t.clips = split blob ∧ t.pcm = out := by
  have hscan := runSteps_scan_runStart blob s
  have hclips := scanned_runStart_clips blob s
  have hdrop : (scanned (runStart blob s)).clips.drop (scanned (runStart blob s)).pcm.length = split blob := hclips
  obtain ⟨j, t, hj, ht, hfin, htc, htp⟩ := runSteps_clips (split blob) hdrop rfl h
  have hbound := scan_and_clips_le_runBound blob
  rw [hclips] at hj
  exact ⟨_, t, (Nat.add_le_add_left hj _).trans hbound, (runSteps_add_of_next hscan).trans ht, hfin, htc.trans hclips, htp⟩

/-! ### With the exact domain every decode exists (R150) -/

theorem framesOf_exact {cfg : Config} (he : cfg.num = .exact) : ∀ (fuel : Nat) (bytes : List Byte)
    (hist : NumVal × NumVal), ∃ out, framesOf cfg fuel bytes hist = some out
  | 0, _, _ => ⟨_, rfl⟩
  | fuel + 1, bytes, hist => by
    by_cases hd : ∃ f, decodeFrame bytes = .dec f
    · obtain ⟨f, hf⟩ := hd
      obtain ⟨r, hr⟩ := samplesOf_exact (shift := f.shift) (pred := clampPred f.pnib) he f.res.toList hist
      obtain ⟨rest, hrest⟩ := framesOf_exact he fuel (bytes.drop 16) r.1
      exact ⟨r.2 ++ rest, by rw [framesOf_of_dec hf, hr, Option.bind_some, hrest, Option.map_some]⟩
    · exact ⟨[], framesOf_of_not_dec (not_exists.1 hd) _ hist⟩

theorem exists_mapM_eq_some {f : α → Option β} (h : ∀ x, ∃ y, f x = some y) :
    ∀ l : List α, ∃ ys, l.mapM f = some ys
  | [] => ⟨[], rfl⟩
  | x :: l => by
    obtain ⟨y, hy⟩ := h x
    obtain ⟨ys, hys⟩ := exists_mapM_eq_some h l
    exact ⟨y :: ys, by simp [hy, hys]⟩

theorem decodeBlob_exact {cfg : Config} (he : cfg.num = .exact) (blob : List Byte) :
    ∃ out, decodeBlob cfg blob = some out :=
  exists_mapM_eq_some (fun clip => framesOf_exact he _ clip _) (split blob)

/-- Settles O27: the scan splits the blob, then the clips are decoded one after the other, whatever the granularity. -/
theorem runComputesDecode : Obligations.RunComputesDecode := by
  refine ⟨fun blob s out h => ?_, fun cfg blob he => decodeBlob_exact he blob⟩
  obtain ⟨k, t, _, hrun, hdone⟩ := run_computes_decode h
  exact ⟨k, t, hrun, hdone⟩

end Sys2Proof.Machine
end

section
/-! ## The host's streams (R185, R186, R188) -/

namespace Sys2Proof.Machine

theorem length_of_mapM_eq_some {f : α → Option β} : ∀ {l : List α} {ys : List β}, l.mapM f = some ys →
    ys.length = l.length
  | [], ys, h => by
    obtain rfl : ys = [] := by simpa using h.symm
    rfl
  | x :: l, ys, h => by
    rw [List.mapM_cons] at h
    obtain ⟨y, _, h⟩ := Option.bind_eq_some_iff.1 h
    obtain ⟨zs, hzs, h⟩ := Option.bind_eq_some_iff.1 h
    obtain rfl := Option.some.inj h
    rw [List.length_cons, List.length_cons, length_of_mapM_eq_some hzs]

/-! ### The reconciler (R180, R181) -/

@[simp] theorem reconcile_length (host : HostConfig) (n : Nat) (rates : List (BitVec 16)) :
    (reconcile host n rates).1.length = n := by
  unfold reconcile
  cases host.overrideRate with
  | some rate => simp
  | none =>
    cases rates.getLast? with
    | none => simp
    | some last => by_cases h : rates.length < n <;> simp [h] <;> omega

/-- An override rate looks at no table (R181). -/
theorem reconcile_of_override {host : HostConfig} {rate : Nat} (h : host.overrideRate = some rate) (n : Nat)
    (rates : List (BitVec 16)) : reconcile host n rates = (List.replicate n rate, []) := by
  simp [reconcile, h]

theorem ratesFor_of_override {host : HostConfig} {rate : Nat} (h : host.overrideRate = some rate) (hd : HdFile) :
    ratesFor host hd = some ([], []) := by
  simp [ratesFor, h]

theorem ratesFor_of_no_override {host : HostConfig} (h : host.overrideRate = none) (hd : HdFile) :
    ratesFor host hd = hdRates host hd := by
  simp [ratesFor, h]

/-- The rates the host resolves are those of any table the hd file may hold, an override looking at none. -/
theorem exists_ratesFor {host : HostConfig} {hd : HdFile} {rates : List (BitVec 16)} {warnings : List Warning}
    (h : host.overrideRate = none → hdRates host hd = some (rates, warnings)) (n : Nat) :
    ∃ rates' warnings', ratesFor host hd = some (rates', warnings') ∧
      reconcile host n rates' = reconcile host n rates := by
  cases ho : host.overrideRate with
  | none => exact ⟨rates, warnings, (ratesFor_of_no_override ho hd).trans (h ho), rfl⟩
  | some rate =>
    exact ⟨[], [], ratesFor_of_override ho hd, by rw [reconcile_of_override ho, reconcile_of_override ho]⟩

/-! ### The streams emitted -/

theorem emit_of_ratesFor {host : HostConfig} {hd : HdFile} {rates : List (BitVec 16)} {warnings : List Warning}
    (h : ratesFor host hd = some (rates, warnings)) (s : State) :
    emit host hd s = .streams (List.zipWith streamOf s.pcm (reconcile host s.clips.length rates).1)
      (warnings ++ (reconcile host s.clips.length rates).2) := by
  simp [emit, h]

theorem emit_of_refused {host : HostConfig} {hd : HdFile} (h : ratesFor host hd = none) (s : State) :
    emit host hd s = .hdRefused := by
  simp [emit, h]

/-- Streams made of as many sample lists as rates hold exactly those, in order. -/
theorem map_zipWith_streamOf : ∀ {pcm : List (List Sample)} {rates : List Nat}, pcm.length = rates.length →
    (List.zipWith streamOf pcm rates).map Stream.samples = pcm ∧
      (List.zipWith streamOf pcm rates).map Stream.sampleRate = rates
  | [], [], _ => ⟨rfl, rfl⟩
  | p :: pcm, r :: rates, h => by
    obtain ⟨hs, hr⟩ := map_zipWith_streamOf (pcm := pcm) (rates := rates) (Nat.succ.inj h)
    exact ⟨congrArg (p :: ·) hs, congrArg (r :: ·) hr⟩

/-- Every stream is mono and of 16-bit samples (R3, R186). -/
theorem mono16_of_mem_zipWith_streamOf : ∀ {pcm : List (List Sample)} {rates : List Nat},
    ∀ st ∈ List.zipWith streamOf pcm rates, st.channelCount = 1 ∧ st.bitsPerSample = 16
  | [], _, _, h => by simp at h
  | _ :: _, [], _, h => by simp at h
  | _ :: _, _ :: _, st, h => by
    rw [List.zipWith_cons_cons, List.mem_cons] at h
    obtain rfl | h := h
    · exact ⟨rfl, rfl⟩
    · exact mono16_of_mem_zipWith_streamOf st h

/-- A block run with a defined decode is over when the orchestrator reads it. -/
theorem runBlob_computes_decode {blob : List Byte} {s : State} {out : List (List Sample)}
    (h : decodeBlob s.cfg blob = some out) :
    ∃ t, runBlob blob s = .next t ∧ t.phase = .finished ∧ t.clips = split blob ∧ t.pcm = out := by
  obtain ⟨k, t, hk, hrun, hfin, hdone⟩ := run_computes_decode h
  exact ⟨t, runSteps_of_finished hrun hfin hk, hfin, hdone⟩

/-- Settles O60: the run ends with the clips and their decodes, and as many rates are resolved as there are clips. -/
theorem oneStreamPerClip : Obligations.OneStreamPerClip := by
  refine ⟨fun _ _ _ => rfl, fun host hd blob s pcm _ hdecode => ?_⟩
  obtain ⟨t, hrun, hfin, hclips, hpcm⟩ := runBlob_computes_decode hdecode
  have hlen : pcm.length = (split blob).length := length_of_mapM_eq_some hdecode
  rw [orchestrate_of_finished hrun hfin]
  refine ⟨fun rates warnings hrates => ?_, fun ho hnone => ?_⟩
  · obtain ⟨rates', warnings', hfor, hrec⟩ := exists_ratesFor hrates (split blob).length
    obtain ⟨hsamples, hrate⟩ := map_zipWith_streamOf (pcm := pcm)
      (rates := (reconcile host (split blob).length rates).1) (by simp [hlen])
    rw [emit_of_ratesFor hfor, hclips, hpcm, hrec]
    exact ⟨_, _, rfl, by simp [hlen], hsamples, hrate, mono16_of_mem_zipWith_streamOf⟩
  · exact emit_of_refused ((ratesFor_of_no_override ho hd).trans hnone) t

end Sys2Proof.Machine
end

section
/-! ## The history and the coefficients stay in `NUM` (R9, R21, R149) -/

namespace Sys2Proof.Machine

/-! ### The rounding of a magnitude -/

/-- A finite binary64 magnitude in normal form: 53 significant bits unless the exponent is the least one (R149). -/
def Magnitude (x : Rat) : Prop :=
  ∃ (m : Nat) (e : Int), m < 2 ^ 53 ∧ -1074 ≤ e ∧ e ≤ 971 ∧ (2 ^ 52 ≤ m ∨ e = -1074) ∧ x = (m : Rat) * (2 : Rat) ^ e

theorem lastPlace_ge (n d : Nat) : -1074 ≤ lastPlace n d := le_max_right _ _

theorem quotient_lt_two_pow_53 (n d : Nat) (hn : 0 < n) (hd : 0 < d) :
    (n : Rat) / d * (2 : Rat) ^ (-lastPlace n d) < 2 ^ 53 := by
  have h : floorLog2 n d + 1 ≤ 53 + lastPlace n d := by
    have := le_max_left (floorLog2 n d - 52) (-1074)
    unfold lastPlace
    omega
  rw [zpow_neg, ← div_eq_mul_inv, div_lt_iff₀ (by positivity)]
  calc (n : Rat) / d < (2 : Rat) ^ (floorLog2 n d + 1) := (floorLog2_spec n d hn hd).2
    _ ≤ (2 : Rat) ^ (53 + lastPlace n d) := zpow_le_zpow_right₀ (by norm_num) h
    _ = 2 ^ 53 * (2 : Rat) ^ lastPlace n d := by rw [zpow_add₀ (by norm_num)]; norm_num

theorem two_pow_52_le_quotient (n d : Nat) (hn : 0 < n) (hd : 0 < d) (h : lastPlace n d ≠ -1074) :
    2 ^ 52 ≤ (n : Rat) / d * (2 : Rat) ^ (-lastPlace n d) := by
  have hl : floorLog2 n d = 52 + lastPlace n d := by
    unfold lastPlace at h ⊢
    omega
  rw [zpow_neg, ← div_eq_mul_inv, le_div_iff₀ (by positivity)]
  calc (2 : Rat) ^ 52 * (2 : Rat) ^ lastPlace n d = (2 : Rat) ^ floorLog2 n d := by
        rw [hl, zpow_add₀ (by norm_num)]; norm_num
    _ ≤ (n : Rat) / d := (floorLog2_spec n d hn hd).1

/-- The quotient in units of the last place, as `roundMagnitude` forms it. -/
theorem quotient_scaled (n d : Nat) (e : Int) :
    ((n * 2 ^ (-e).toNat : Nat) : Rat) / ((d * 2 ^ e.toNat : Nat) : Rat) = (n : Rat) / d * (2 : Rat) ^ (-e) := by
  rcases le_total 0 e with h | h
  · obtain ⟨k, rfl⟩ := Int.eq_ofNat_of_zero_le h
    simp only [Int.toNat_natCast, Int.toNat_neg_natCast, zpow_neg, zpow_natCast]
    push_cast
    ring
  · obtain ⟨k, hk⟩ := Int.eq_ofNat_of_zero_le (show 0 ≤ -e by omega)
    obtain rfl : e = -(k : Int) := by omega
    simp only [Int.toNat_natCast, Int.toNat_neg_natCast, neg_neg, zpow_natCast]
    push_cast
    ring

/-- A magnitude is rounded to the nearest multiple of the last place, the even one on a tie (R149). -/
theorem roundMagnitude_spec (n d : Nat) (hd : 0 < d) :
    ∃ m : Nat, roundMagnitude n d = m * (2 : Rat) ^ lastPlace n d ∧
      |(n : Rat) / d * (2 : Rat) ^ (-lastPlace n d) - m| ≤ 1 / 2 ∧
      (|(n : Rat) / d * (2 : Rat) ^ (-lastPlace n d) - m| = 1 / 2 → m % 2 = 0) := by
  have h := divNearestEven_spec (n * 2 ^ (-lastPlace n d).toNat) (d * 2 ^ (lastPlace n d).toNat) (by positivity)
  rw [quotient_scaled] at h
  exact ⟨_, scaled_eq _ _, h⟩

/-- A natural number within one half of a number below `k` is at most `k`. -/
theorem le_of_near {y : Rat} {m k : Nat} (h : |y - m| ≤ 1 / 2) (hy : y < k) : m ≤ k := by
  have hlt : (m : Rat) < ((k + 1 : Nat) : Rat) := by
    push_cast
    linarith [(abs_le.1 h).1]
  exact Nat.lt_succ_iff.1 (by exact_mod_cast hlt)

/-- A natural number within one half of a number from `k` on is at least `k`. -/
theorem ge_of_near {y : Rat} {m k : Nat} (h : |y - m| ≤ 1 / 2) (hy : k ≤ y) : k ≤ m := by
  have hlt : (k : Rat) < ((m + 1 : Nat) : Rat) := by
    push_cast
    linarith [(abs_le.1 h).2]
  exact Nat.lt_succ_iff.1 (by exact_mod_cast hlt)

/-- What rounding gives is a magnitude of binary64, if it does not overflow. -/
theorem magnitude_roundMagnitude (n d : Nat) (hn : 0 < n) (hd : 0 < d)
    (hlt : roundMagnitude n d < (2 : Rat) ^ (1024 : Int)) : Magnitude (roundMagnitude n d) := by
  obtain ⟨m, hm, hnear, -⟩ := roundMagnitude_spec n d hd
  have hge := lastPlace_ge n d
  have hle : m ≤ 2 ^ 53 := le_of_near hnear (by exact_mod_cast quotient_lt_two_pow_53 n d hn hd)
  have hfull : lastPlace n d ≠ -1074 → 2 ^ 52 ≤ m := fun hp =>
    ge_of_near hnear (by exact_mod_cast two_pow_52_le_quotient n d hn hd hp)
  rw [hm] at hlt ⊢
  set p := lastPlace n d
  -- an exponent whose leading bit fits below `2 ^ 1024`
  have hexp : ∀ k : Nat, 2 ^ k ≤ m → (k : Int) + p < 1024 := by
    intro k hk
    refine (zpow_lt_zpow_iff_right₀ (one_lt_two (α := Rat))).1 (lt_of_le_of_lt ?_ hlt)
    rw [zpow_add₀ (by norm_num), zpow_natCast]
    gcongr
    exact_mod_cast hk
  rcases hle.lt_or_eq with h | h
  · refine ⟨m, p, h, hge, ?_, ?_, rfl⟩
    · by_cases hp : p = -1074
      · omega
      · have := hexp 52 (hfull hp)
        push_cast at this
        omega
    · by_cases hp : p = -1074
      · exact .inr hp
      · exact .inl (hfull hp)
  · have := hexp 53 h.ge
    push_cast at this
    refine ⟨2 ^ 52, p + 1, by norm_num, by omega, by omega, .inl le_rfl, ?_⟩
    rw [h, zpow_add₀ (by norm_num)]
    push_cast
    ring

/-- A quotient that is a binary64 magnitude is rounded to itself. -/
theorem roundMagnitude_of_value {n d m : Nat} {e : Int} (hn : 0 < n) (hd : 0 < d) (hm : m < 2 ^ 53) (he : -1074 ≤ e)
    (hq : (n : Rat) / d = m * (2 : Rat) ^ e) : roundMagnitude n d = (n : Rat) / d := by
  have hfloor : floorLog2 n d < 53 + e := by
    refine (zpow_lt_zpow_iff_right₀ (one_lt_two (α := Rat))).1 (lt_of_le_of_lt (floorLog2_spec n d hn hd).1 ?_)
    rw [hq, zpow_add₀ (by norm_num)]
    gcongr
    exact_mod_cast hm
  have hplace : lastPlace n d ≤ e := max_le (by omega) he
  obtain ⟨k, hk⟩ := Int.eq_ofNat_of_zero_le (show 0 ≤ e - lastPlace n d by omega)
  have hint : (n : Rat) / d * (2 : Rat) ^ (-lastPlace n d) = ((m * 2 ^ k : Nat) : Rat) := by
    rw [hq, mul_assoc, ← zpow_add₀ (by norm_num), ← sub_eq_add_neg, hk]
    push_cast
    rfl
  obtain ⟨r, hr, hnear, -⟩ := roundMagnitude_spec n d hd
  have hmr : r = m * 2 ^ k := by
    rw [hint] at hnear
    have h : |((m * 2 ^ k : Nat) : Int) - (r : Int)| < 1 := by
      have : |(((m * 2 ^ k : Nat) : Int) : Rat) - ((r : Int) : Rat)| < 1 := by
        push_cast at hnear ⊢
        linarith
      exact_mod_cast this
    have := Int.abs_lt_one_iff.1 h
    omega
  rw [hr, hmr, ← hint, mul_assoc, ← zpow_add₀ (by norm_num), neg_add_cancel, zpow_zero, mul_one]

/-! ### `round64` -/

theorem abs_eq_natAbs_div_den (q : Rat) : |q| = (q.num.natAbs : Rat) / q.den := by
  conv_lhs => rw [← Rat.num_div_den q]
  rw [abs_div, Nat.abs_cast, Nat.cast_natAbs, Int.cast_abs]

theorem num_natAbs_pos {q : Rat} (h : q ≠ 0) : 0 < q.num.natAbs := Int.natAbs_pos.2 (Rat.num_ne_zero.2 h)

/-- Rounding a number that is not zero: its magnitude, unless that overflows, with its sign. -/
theorem round64_of_ne_zero {q : Rat} (h : q ≠ 0) :
    round64 q =
      if (2 : Rat) ^ (1024 : Int) ≤ roundMagnitude q.num.natAbs q.den then none
      else some (if q < 0 then -roundMagnitude q.num.natAbs q.den else roundMagnitude q.num.natAbs q.den) := by
  have hcast : ((2 ^ 1024 : Nat) : Rat) = (2 : Rat) ^ (1024 : Int) := by
    rw [Nat.cast_pow]
    rfl
  simp only [round64, Rat.num_eq_zero, h, if_false, hcast, Rat.num_neg]
  split
  · rfl
  · split <;> rfl

theorem magnitude_zero : Magnitude 0 := ⟨0, -1074, by norm_num, le_rfl, by norm_num, .inr rfl, by simp⟩

/-- What `round64` answers has a binary64 magnitude (R149). -/
theorem magnitude_abs_of_round64 {q r : Rat} (h : round64 q = some r) : Magnitude |r| := by
  by_cases hq : q = 0
  · subst hq
    obtain rfl : (0 : Rat) = r := by simpa using h
    simpa using magnitude_zero
  · rw [round64_of_ne_zero hq] at h
    split at h
    case isTrue => cases h
    case isFalse hlt =>
      have hmag := magnitude_roundMagnitude _ _ (num_natAbs_pos hq) q.den_pos (not_le.1 hlt)
      have habs : |r| = roundMagnitude q.num.natAbs q.den := by
        rw [← abs_of_nonneg (roundMagnitude_nonneg q.num.natAbs q.den), ← Option.some.inj h]
        split
        · rw [abs_neg]
        · rfl
      rwa [habs]

/-- A number with a binary64 magnitude is a binary64 value. -/
theorem binary64Value_of_magnitude_abs {x : Rat} (h : Magnitude |x|) : Binary64Value x := by
  obtain ⟨m, e, hm, hlow, hup, -, hx⟩ := h
  rcases abs_choice x with ha | ha
  · exact ⟨m, e, by simpa using hm, hlow, hup, by rw [← ha, hx]; simp⟩
  · exact ⟨-m, e, by simpa using hm, hlow, hup, by rw [← neg_eq_iff_eq_neg.2 ha, hx]; simp⟩

/-- A binary64 value is rounded to itself (R149). -/
theorem round64_of_binary64Value {x : Rat} (h : Binary64Value x) : round64 x = some x := by
  obtain ⟨m, e, hm, hlow, hup, hx⟩ := h
  by_cases h0 : x = 0
  · simp [h0]
  · have habs : |x| = (m.natAbs : Rat) * (2 : Rat) ^ e := by
      rw [hx, abs_mul, abs_of_pos (show (0 : Rat) < (2 : Rat) ^ e by positivity), Nat.cast_natAbs, Int.cast_abs]
    have hround : roundMagnitude x.num.natAbs x.den = |x| := by
      rw [abs_eq_natAbs_div_den x] at habs ⊢
      exact roundMagnitude_of_value (num_natAbs_pos h0) x.den_pos hm hlow habs
    have hlt : |x| < (2 : Rat) ^ (1024 : Int) := by
      calc |x| < ((2 ^ 53 : Nat) : Rat) * (2 : Rat) ^ e := by
            rw [habs]
            gcongr
        _ ≤ ((2 ^ 53 : Nat) : Rat) * (2 : Rat) ^ (971 : Int) := by
            gcongr
            norm_num
        _ = (2 : Rat) ^ (1024 : Int) := by
            rw [Nat.cast_pow, ← zpow_natCast, Nat.cast_two, ← zpow_add₀ (by norm_num)]
            rfl
    rw [round64_of_ne_zero h0, hround, if_neg (not_le.2 hlt)]
    split
    case isTrue hneg => rw [abs_of_neg hneg, neg_neg]
    case isFalse hpos => rw [abs_of_nonneg (not_lt.1 hpos)]

/-- Rounding gives binary64 values only (R149). -/
theorem binary64Value_of_round64 {q r : Rat} (h : round64 q = some r) : Binary64Value r :=
  binary64Value_of_magnitude_abs (magnitude_abs_of_round64 h)

/-- Rounding twice is rounding once. -/
theorem roundNum_of_roundNum {d : NumDomain} {q r : Rat} (h : roundNum d q = some r) : roundNum d r = some r := by
  cases d with
  | exact => rfl
  | binary64 => exact round64_of_binary64Value (binary64Value_of_round64 h)

/-! ### The history (R21) -/

theorem inNum_ofInt_zero (d : NumDomain) : InNum d (ofInt 0) := by
  simp [InNum, ofInt]

/-- A prediction is a value of the domain. -/
theorem inNum_of_predict {d : NumDomain} {raw h1 h2 new : NumVal} {c : CoefPair NumVal}
    (h : predict d raw h1 h2 c = some new) : InNum d new := by
  obtain ⟨_, _, _, _, _, _, hsum⟩ := predict_eq_some h
  obtain ⟨q, hq, rfl⟩ := addNum_eq_some.1 hsum
  exact inNum_withSign _ (roundNum_of_roundNum hq)

theorem historyInNum_sample {n : Nib} {s t : State} (hs : HistoryInNum s) (h : sample n s = .next t) :
    HistoryInNum t := by
  obtain ⟨new, p, hnew, _, rfl⟩ := sample_eq_next h
  exact ⟨inNum_of_predict hnew, hs.1⟩

theorem historyInNum_sampleAll : ∀ {ns : List Nib} {s t : State}, HistoryInNum s → sampleAll ns s = .next t →
    HistoryInNum t
  | [], _, _, hs, h => by
    cases h
    exact hs
  | _ :: _, _, _, hs, h => by
    obtain ⟨u, hu, ht⟩ := andThen_eq_next h
    exact historyInNum_sampleAll (historyInNum_sample hs hu) ht

/-- The history changes at a clip start, to zero, and in a sample, to a prediction. -/
theorem historyInNum_step {s t : State} (hs : HistoryInNum s) (h : step s = .next t) : HistoryInNum t := by
  cases step_cases h with
  | clipstart i hp => exact ⟨inNum_ofInt_zero _, inNum_ofInt_zero _⟩
  | dec c f u hp hh hg hc hl hd hu =>
    have hu' : HistoryInNum u := historyInNum_sampleAll (s := latchFrame f s) hs hu
    exact hu'
  | smp hp hk u hu hn => exact historyInNum_sample hs hu
  | lastSmp hp hk u hu hn =>
    have hu' : HistoryInNum u := historyInNum_sample hs hu
    exact hu'
  | _ => exact hs

/-! ### The coefficients (R9, R26) -/

/-- The magnitude of a binary64 datum. -/
def magnitudeOf (b : Binary64) : Rat :=
  if b.exponent.val = 0 then scaled b.fraction.toNat (-1074)
  else scaled (2 ^ 52 + b.fraction.toNat) ((b.exponent.val : Int) - 1075)

theorem ofBinary64_eq (b : Binary64) :
    ofBinary64 b = withSign .binary64 b.sign (if b.sign then -magnitudeOf b else magnitudeOf b) := rfl

theorem magnitude_magnitudeOf (b : Binary64) : Magnitude (magnitudeOf b) := by
  have hf := b.fraction.isLt
  have he := b.exponent.isLt
  unfold magnitudeOf
  split
  · exact ⟨_, -1074, by omega, le_rfl, by omega, .inr rfl, scaled_eq _ _⟩
  · exact ⟨_, _, by omega, by omega, by omega, .inl (by omega), scaled_eq _ _⟩

/-- Every binary64 magnitude is that of a datum, with either sign. -/
theorem exists_magnitudeOf {x : Rat} (h : Magnitude x) (sign : Bool) :
    ∃ b : Binary64, b.sign = sign ∧ magnitudeOf b = x := by
  obtain ⟨m, e, hm, hlow, hup, hfull, rfl⟩ := h
  by_cases hnormal : 2 ^ 52 ≤ m
  · refine ⟨⟨sign, ⟨(e + 1075).toNat, by omega⟩, BitVec.ofNat 52 (m - 2 ^ 52)⟩, rfl, ?_⟩
    have hexp : ¬ (e + 1075).toNat = 0 := by omega
    have hfrac : 2 ^ 52 + (m - 2 ^ 52) % 2 ^ 52 = m := by omega
    have hplace : ((e + 1075).toNat : Int) - 1075 = e := by omega
    simp only [magnitudeOf, hexp, if_false, BitVec.toNat_ofNat, hfrac, hplace, scaled_eq]
  · obtain rfl := hfull.resolve_left hnormal
    refine ⟨⟨sign, ⟨0, by omega⟩, BitVec.ofNat 52 m⟩, rfl, ?_⟩
    have hfrac : m % 2 ^ 52 = m := by omega
    simp only [magnitudeOf, if_true, BitVec.toNat_ofNat, hfrac, scaled_eq]

theorem inNum_ofBinary64 (b : Binary64) : InNum .binary64 (ofBinary64 b) := by
  rw [ofBinary64_eq]
  refine inNum_withSign _ (round64_of_binary64Value (binary64Value_of_magnitude_abs ?_))
  have hmag := magnitude_magnitudeOf b
  have hnonneg : 0 ≤ magnitudeOf b := by
    obtain ⟨m, e, _, _, _, _, hx⟩ := hmag
    rw [hx]
    positivity
  split
  · rwa [abs_neg, abs_of_nonneg hnonneg]
  · rwa [abs_of_nonneg hnonneg]

/-- Every value of binary64 is that of a datum. -/
theorem exists_ofBinary64 {x : NumVal} (h : InNum .binary64 x) : ∃ b, ofBinary64 b = x := by
  cases x with
  | negZero =>
    obtain ⟨b, hsign, hmag⟩ := exists_magnitudeOf magnitude_zero true
    exact ⟨b, by simp [ofBinary64_eq, hsign, hmag, withSign]⟩
  | ofRat q =>
    obtain ⟨b, hsign, hmag⟩ := exists_magnitudeOf (magnitude_abs_of_round64 h) (decide (q < 0))
    refine ⟨b, ?_⟩
    rw [ofBinary64_eq, hsign, hmag]
    by_cases hq : q < 0
    · simp [hq, abs_of_neg hq, withSign, hq.ne]
    · simp [hq, abs_of_nonneg (not_lt.1 hq), withSign]

theorem inNum_exact_ofRat (q : Rat) : InNum .exact (.ofRat q) := rfl

/-- Every value of the exact domain is a rational. -/
theorem exists_ofRat {x : NumVal} (h : InNum .exact x) : ∃ q, NumVal.ofRat q = x := by
  cases x with
  | negZero => cases h
  | ofRat q => exact ⟨q, rfl⟩

/-- A pair of values of the domain. -/
def PairInNum (d : NumDomain) (c : CoefPair NumVal) : Prop := InNum d c.c0 ∧ InNum d c.c1

theorem pairInNum_mapPair {d : NumDomain} {f : α → NumVal} (hf : ∀ a, InNum d (f a)) (c : CoefPair α) :
    PairInNum d (mapPair f c) := ⟨hf c.c0, hf c.c1⟩

theorem pairInNum_coefEntry {d : NumDomain} {f : α → NumVal} (hf : ∀ a, InNum d (f a)) (e1 e2 e3 e4 : CoefPair α) :
    ∀ p, PairInNum d (coefEntry f e1 e2 e3 e4 p)
  | 0 => ⟨inNum_ofInt_zero d, inNum_ofInt_zero d⟩
  | 1 => pairInNum_mapPair hf e1
  | 2 => pairInNum_mapPair hf e2
  | 3 => pairInNum_mapPair hf e3
  | 4 => pairInNum_mapPair hf e4

/-- Every entry of the table is a pair of values of the domain (R9). -/
theorem pairInNum_coef (cfg : Config) (p : Fin 5) : PairInNum cfg.num (cfg.coef p) := by
  unfold Config.num Config.coef
  cases cfg.table with
  | binary64 e1 e2 e3 e4 => exact pairInNum_coefEntry inNum_ofBinary64 e1 e2 e3 e4 p
  | exact e1 e2 e3 e4 => exact pairInNum_coefEntry inNum_exact_ofRat e1 e2 e3 e4 p

theorem exists_mapPair {d : NumDomain} {f : α → NumVal} (hf : ∀ {x}, InNum d x → ∃ a, f a = x) {c : CoefPair NumVal}
    (hc : PairInNum d c) : ∃ c', mapPair f c' = c := by
  obtain ⟨a0, h0⟩ := hf hc.1
  obtain ⟨a1, h1⟩ := hf hc.2
  exact ⟨⟨a0, a1⟩, by rw [mapPair, h0, h1]⟩

/-- Any pairs of values of the domain are entries 1 to 4 of a table. -/
theorem exists_coefEntry {d : NumDomain} {f : α → NumVal} (hf : ∀ {x}, InNum d x → ∃ a, f a = x)
    {e : Fin 5 → CoefPair NumVal} (he : ∀ p, PairInNum d (e p)) :
    ∃ e1 e2 e3 e4, ∀ p, p ≠ 0 → coefEntry f e1 e2 e3 e4 p = e p := by
  obtain ⟨e1, h1⟩ := exists_mapPair hf (he 1)
  obtain ⟨e2, h2⟩ := exists_mapPair hf (he 2)
  obtain ⟨e3, h3⟩ := exists_mapPair hf (he 3)
  obtain ⟨e4, h4⟩ := exists_mapPair hf (he 4)
  refine ⟨e1, e2, e3, e4, fun p hp => ?_⟩
  match p, hp with
  | 0, hp => exact absurd rfl hp
  | 1, _ => exact h1
  | 2, _ => exact h2
  | 3, _ => exact h3
  | 4, _ => exact h4

theorem exists_config_of_pairs (d : NumDomain) {e : Fin 5 → CoefPair NumVal} (he : ∀ p, PairInNum d (e p)) :
    ∃ cfg : Config, cfg.num = d ∧ ∀ p, p ≠ 0 → cfg.coef p = e p := by
  cases d with
  | binary64 =>
    obtain ⟨e1, e2, e3, e4, h⟩ := exists_coefEntry exists_ofBinary64 he
    exact ⟨⟨.binary64 e1 e2 e3 e4, .perFrame⟩, rfl, h⟩
  | exact =>
    obtain ⟨e1, e2, e3, e4, h⟩ := exists_coefEntry exists_ofRat he
    exact ⟨⟨.exact e1 e2 e3 e4, .perFrame⟩, rfl, h⟩

/-- Settles O14: predictions are rounded values, rounding is idempotent, and the binary64 data are exactly its values. -/
theorem historyAndCoefInNum : Obligations.HistoryAndCoefInNum :=
  ⟨fun _ _ => historyInNum_step, pairInNum_coef, coef_zero, fun d _ => exists_config_of_pairs d⟩

end Sys2Proof.Machine
end

section
/-! ## Every step keeps the invariant of a run (R20 to R35, R107, R108, R129) -/

namespace Sys2Proof.Machine

@[simp] theorem frameDecoded_fpos (f : Frame) (p : List Sample) (r : (NumVal × NumVal) × List Sample) (s : State) :
    (frameDecoded f p r s).fpos = s.fpos + 16 := rfl

@[simp] theorem closeFrame_fpos (s : State) : (closeFrame s).fpos = s.fpos + 16 := rfl

/-! ### A frame that completes -/

/-- Samples that complete, at least one of them, have an open stream and finite predictions (R126, R208). -/
theorem sampleAll_cons_eq_next {n : Nib} {ns : List Nib} {s t : State} (h : sampleAll (n :: ns) s = .next t) :
    ∃ p r, s.pcm[s.cidx]? = some p ∧ samplesOf s.cfg s.shift s.pred (n :: ns) (s.hist1, s.hist2) = some r := by
  obtain ⟨_, hfirst, _⟩ := andThen_eq_next h
  obtain ⟨_, p, _, hp, _⟩ := sample_eq_next hfirst
  rw [sampleAll_eq _ s p hp] at h
  cases hr : samplesOf s.cfg s.shift s.pred (n :: ns) (s.hist1, s.hist2) with
  | none =>
    rw [hr] at h
    cases h
  | some r => exact ⟨p, r, hp, rfl⟩

theorem exec_dec_of_sampleAll {f : Frame} {s u : State} (h : sampleAll f.res.toList (latchFrame f s) = .next u) :
    exec (.dec f) s = .next (advanceFrame u) := by rw [exec_dec, h, andThen_next]

/-- `DEC` completes only where the stream is open and every prediction finite (R125, R126, R208). -/
theorem exec_dec_eq_next {f : Frame} {s t : State} (h : exec (.dec f) s = .next t) :
    ∃ p r, s.pcm[s.cidx]? = some p ∧
      samplesOf s.cfg f.shift (clampPred f.pnib) f.res.toList (s.hist1, s.hist2) = some r ∧
      t = frameDecoded f p r s := by
  obtain ⟨u, hu, _⟩ := andThen_eq_next (exec_dec f s ▸ h)
  obtain ⟨n, ns, hns⟩ := List.exists_cons_of_length_pos (l := f.res.toList) (by simp)
  rw [hns] at hu
  obtain ⟨p, r, hp, hr⟩ := sampleAll_cons_eq_next hu
  rw [← hns] at hr
  rw [exec_dec_of_samplesOf (s := s) hp hr] at h
  cases h
  exact ⟨p, r, hp, hr, rfl⟩

/-! ### The part of the invariant that speaks of CDX -/

/-- What the invariant says of the blob and of CDX's registers (R27 to R30, R107, R108). -/
structure CdxOk (s : State) : Prop where
  blob : BlobOk s
  row : RowCursorOk s
  flag : AccFlagOk s
  acc : AccIsRange s
  clips : ClipsAreRanges s

theorem RunInv.cdx {s : State} (h : RunInv s) : CdxOk s := ⟨h.blob, h.row, h.flag, h.acc, h.clips⟩

theorem CdxOk.runInv {s : State} (h : CdxOk s) (hframe : FrameCursorOk s) (hbounded : StreamsBounded s)
    (hwhole : StreamsWhole s) (hphase : PhaseOk s) : RunInv s :=
  ⟨h.blob, h.row, h.flag, h.acc, h.clips, hframe, hbounded, hwhole, hphase⟩

/-- No more than the blob and CDX's registers decides that part. -/
theorem CdxOk.congr {s t : State} (h : CdxOk s) (hb : t.bd = s.bd) (hl : t.len = s.len) (hc : SameCdx s t) :
    CdxOk t := by
  obtain ⟨hrpos, hacc, hne, hclips⟩ := hc
  have hrange := blobRange_congr hb hl
  refine ⟨?_, ?_, ?_, ?_, ?_⟩
  · simpa only [BlobOk, hb, hl] using h.blob
  · simpa only [RowCursorOk, hrpos, hl] using h.row
  · simpa only [AccFlagOk, hne, hacc] using h.flag
  · simpa only [AccIsRange, hacc, hrpos, hrange] using h.acc
  · simpa only [ClipsAreRanges, hclips, hrpos, hrange] using h.clips

theorem mem_emitted {acc c : List Byte} : c ∈ emitted acc ↔ c = acc ∧ acc ≠ [] := by
  unfold emitted
  split <;> simp_all

theorem accFlagOk_closeAcc (s : State) : AccFlagOk (closeAcc s) := rfl

/-- A row appended leaves the accumulator non-empty (R103). -/
theorem accFlagOk_appendAcc {row : List Byte} (h : 1 ≤ row.length) (s : State) : AccFlagOk (appendAcc row s) := by
  have hpos : 0 < (s.acc ++ row).length := by
    rw [List.length_append]
    omega
  exact (decide_eq_true hpos).symm

/-- Closing the accumulator emits a range of the blob (R102, R104, R107). -/
theorem CdxOk.closeAcc {s : State} (h : CdxOk s) : CdxOk (closeAcc s) := by
  refine ⟨h.blob, h.row, rfl, fun hne => absurd rfl hne, fun c hc => ?_⟩
  rw [closeAcc_clips_eq_emitted, List.mem_append] at hc
  rcases hc with hc | hc
  · exact h.clips c hc
  · obtain ⟨rfl, hne⟩ := mem_emitted.1 hc
    obtain ⟨a, ha, hle, hacc⟩ := h.acc hne
    have hlen : s.acc.length = s.rpos - a := by
      have hrow := h.row.1
      rw [hacc, blobRange_length]
      omega
    refine ⟨hne, a, ha, ?_, ?_⟩
    · rw [hlen, closeAcc_rpos]
      omega
    · rw [hlen]
      exact hacc

/-- A row's length keeps the row cursor on a row or at the end of the blob (R27). -/
theorem rowCursorOk_advanceRow {s : State} (h : RowCursorOk s) (hr : s.rpos < s.len) :
    RowCursorOk (advanceRow (rowLength s) s) := by
  obtain ⟨hle, hpos⟩ := h
  have hrow : rowLength s = min 16 (s.len - s.rpos) := rfl
  simp only [RowCursorOk, advanceRow_rpos, advanceRow_len]
  omega

theorem clipsAreRanges_advanceRow {s : State} (h : ClipsAreRanges s) (n : Nat) : ClipsAreRanges (advanceRow n s) := by
  intro c hc
  obtain ⟨hne, a, ha, hle, hrange⟩ := h c hc
  exact ⟨hne, a, ha, hle.trans (Nat.le_add_right _ _), hrange⟩

/-- A zero row (R102). -/
theorem CdxOk.delim {s : State} (h : CdxOk s) (hr : s.rpos < s.len) :
    CdxOk (advanceRow (rowLength s) (Machine.closeAcc s)) where
  blob := h.blob
  row := rowCursorOk_advanceRow h.closeAcc.row hr
  flag := rfl
  acc := fun hne => absurd rfl hne
  clips := clipsAreRanges_advanceRow h.closeAcc.clips _

/-- A row that is not all zero goes on the range the accumulator holds, or begins one (R103, R107). -/
theorem CdxOk.data {s : State} (h : CdxOk s) (hr : s.rpos < s.len) :
    CdxOk (advanceRow (rowLength s) (appendAcc (blobRange s s.rpos (rowLength s)) s)) := by
  obtain ⟨hlen, hpos⟩ := row_length s hr
  obtain ⟨-, hrow⟩ := h.row
  have hflag : AccFlagOk (appendAcc (blobRange s s.rpos (rowLength s)) s) := accFlagOk_appendAcc (by omega) s
  refine ⟨h.blob, rowCursorOk_advanceRow h.row hr, hflag, fun _ => ?_, clipsAreRanges_advanceRow h.clips _⟩
  have hacc : ∃ a, a % 16 = 0 ∧ a ≤ s.rpos ∧ s.acc = blobRange s a (s.rpos - a) := by
    by_cases hnil : s.acc = []
    · exact ⟨s.rpos, by omega, le_rfl, by simp [hnil, blobRange]⟩
    · exact h.acc hnil
  obtain ⟨a, ha, hle, hrange⟩ := hacc
  refine ⟨a, ha, hle.trans (Nat.le_add_right _ _), ?_⟩
  show s.acc ++ blobRange s s.rpos (rowLength s) = blobRange s a (s.rpos + rowLength s - a)
  rw [← blobRange_append s a s.rpos _ hle, ← hrange]

/-! ### The position in the schedule, and the streams -/

theorem phaseOk_scan {s : State} (hp : s.phase = .scan) : PhaseOk s ↔ s.pcm = [] := by simp [PhaseOk, hp]

theorem phaseOk_start {s : State} {i : Nat} (hp : s.phase = .start i) :
    PhaseOk s ↔ Scanned s ∧ i < s.clips.length ∧ s.pcm.length = i := by simp [PhaseOk, hp]

theorem phaseOk_frames {s : State} (hp : s.phase = .frames) : PhaseOk s ↔ Scanned s ∧ DecodingOk s 0 := by
  simp [PhaseOk, hp]

theorem phaseOk_samples {s : State} (hp : s.phase = .samples) :
    PhaseOk s ↔ Scanned s ∧ DecodingOk s s.k ∧ s.k < 28 ∧
      ∃ c, s.clips[s.cidx]? = some c ∧ s.fpos + 16 ≤ c.length := by simp [PhaseOk, hp]

/-- After the scan and after a clip, with a stream for each clip before it, the position is right (R128, R224). -/
theorem phaseOk_nextClip {s : State} {i : Nat} (hp : s.phase = nextClip s.clips i) (hs : Scanned s)
    (hlen : s.pcm.length = i) (hle : i ≤ s.clips.length) : PhaseOk s := by
  unfold nextClip at hp
  split at hp
  case isTrue hlt => exact (phaseOk_start hp).2 ⟨hs, hlt, hlen⟩
  case isFalse hge =>
    simp only [PhaseOk, hp]
    exact ⟨hs, by omega⟩

/-- While a clip is decoded its stream holds 28 samples for each frame before `FPOS`, and those of a frame begun
(R129). -/
theorem stream_length_of_decodingOk {s : State} {extra : Nat} (h : DecodingOk s extra) {p : List Sample}
    (hp : s.pcm[s.cidx]? = some p) : p.length = 28 * (s.fpos / 16) + extra := by
  obtain ⟨_, _, _, p', _, hp', _, hlen⟩ := h
  rw [hp] at hp'
  cases hp'
  exact hlen

/-- The samples appended, the clip's position is right again if `FPOS` and the samples of a frame begun account for
them (R126, R129). -/
theorem DecodingOk.append {s t : State} {e e' : Nat} {p q : List Sample} (h : DecodingOk s e)
    (hp : s.pcm[s.cidx]? = some p) (hpcm : t.pcm = s.pcm.set s.cidx (p ++ q)) (hclips : t.clips = s.clips)
    (hcidx : t.cidx = s.cidx) (hhalt : t.halt = s.halt)
    (hfpos : ∀ c, s.clips[s.cidx]? = some c → t.fpos ≤ c.length)
    (hlen : 28 * (t.fpos / 16) + e' = 28 * (s.fpos / 16) + e + q.length) : DecodingOk t e' := by
  have hplen := stream_length_of_decodingOk h hp
  have hlt := (List.getElem?_eq_some_iff.1 hp).1
  obtain ⟨hpcmLen, hh, c, _, hc, _, _, _⟩ := h
  refine ⟨by rw [hpcm, List.length_set, hcidx, hpcmLen], hhalt.trans hh, c, p ++ q, ?_, ?_, hfpos c hc, ?_⟩
  · rw [hclips, hcidx, hc]
  · rw [hpcm, hcidx, List.getElem?_set_self hlt]
  · rw [List.length_append]
    omega

/-- In the loops over a clip its samples never outnumber those of its full frames, and make whole frames between two of
them (R129). -/
theorem exists_decodingOk {s : State} (h : PhaseOk s) (hp : s.phase = .frames ∨ s.phase = .samples) :
    ∃ e, DecodingOk s e ∧ (s.phase = .samples ∨ e = 0) ∧
      ∀ c, s.clips[s.cidx]? = some c → 28 * (s.fpos / 16) + e ≤ 28 * (c.length / 16) := by
  rcases hp with hp | hp
  · obtain ⟨-, hd⟩ := (phaseOk_frames hp).1 h
    refine ⟨0, hd, .inr rfl, fun c hc => ?_⟩
    obtain ⟨_, _, c', _, hc', _, hle, _⟩ := hd
    cases hc.symm.trans hc'
    omega
  · obtain ⟨-, hd, hk, c', hc', hle⟩ := (phaseOk_samples hp).1 h
    refine ⟨s.k, hd, .inl hp, fun c hc => ?_⟩
    cases hc.symm.trans hc'
    omega

/-- A step into the decoding of a clip, or on in it, keeps the invariant where the position is right and no other stream
is touched. -/
theorem runInv_of_decoding {s t : State} (h : RunInv s) (hp : t.phase = .frames ∨ t.phase = .samples)
    (hcdx : CdxOk t) (hframe : FrameCursorOk t) (hphase : PhaseOk t) (hclips : t.clips = s.clips)
    (hcidx : s.phase = .samples → t.cidx = s.cidx) (hothers : ∀ j, j ≠ t.cidx → t.pcm[j]? = s.pcm[j]?) :
    RunInv t := by
  obtain ⟨e, hd, hwhole, hroom⟩ := exists_decodingOk hphase hp
  refine hcdx.runInv hframe (fun i c p hc hq => ?_) (fun i p hq => ?_) hphase
  · by_cases hi : i = t.cidx
    · subst hi
      exact (stream_length_of_decodingOk hd hq).trans_le (hroom c hc)
    · exact h.bounded i c p (hclips ▸ hc) (hothers i hi ▸ hq)
  · by_cases hi : i = t.cidx
    · subst hi
      refine hwhole.imp (fun hs => ⟨hs, rfl⟩) fun he => ?_
      rw [stream_length_of_decodingOk hd hq, he]
      omega
    · rcases h.whole i p (hothers i hi ▸ hq) with ⟨hs, hi'⟩ | hw
      · exact absurd (hi'.trans (hcidx hs).symm) hi
      · exact .inr hw

/-! ### Each step -/

/-- Where no stream is open the streams are as they should be. -/
theorem CdxOk.runInv_of_pcm_nil {s : State} (h : CdxOk s) (hpcm : s.pcm = []) (hframe : FrameCursorOk s)
    (hphase : PhaseOk s) : RunInv s :=
  h.runInv hframe (by simp [StreamsBounded, hpcm]) (by simp [StreamsWhole, hpcm]) hphase

/-- A row of the row loop (R101). -/
theorem runInv_row {s t : State} (h : RunInv s) (hp : s.phase = .scan) (hcdx : CdxOk t) (hpcm : t.pcm = s.pcm)
    (hframe : FrameCursorOk t) (ht : t.phase = .scan) : RunInv t := by
  have hnil : t.pcm = [] := hpcm.trans ((phaseOk_scan hp).1 h.phase)
  exact hcdx.runInv_of_pcm_nil hnil hframe ((phaseOk_scan ht).2 hnil)

/-- `FLUSH` (R104). -/
theorem runInv_flush {s : State} (h : RunInv s) (hp : s.phase = .scan) (hr : ¬ s.rpos < s.len) :
    RunInv (setPhase (nextClip (closeAcc s).clips 0) (closeAcc s)) := by
  have hnil : s.pcm = [] := (phaseOk_scan hp).1 h.phase
  obtain ⟨hle, -⟩ := h.row
  have hend : s.rpos = s.len := by omega
  exact CdxOk.runInv_of_pcm_nil (h.cdx.closeAcc.congr rfl rfl ⟨rfl, rfl, rfl, rfl⟩) hnil h.frame
    (phaseOk_nextClip rfl ⟨hend, rfl⟩ (congrArg List.length hnil) (Nat.zero_le _))

/-- `CLIPSTART` (R121) opens the next stream. -/
theorem runInv_clipStarted {s : State} (h : RunInv s) (hp : s.phase = .start s.pcm.length) :
    RunInv (clipStarted s) := by
  obtain ⟨hs, hlt, -⟩ := (phaseOk_start hp).1 h.phase
  have hd : DecodingOk (clipStarted s) 0 :=
    ⟨by simp [clipStarted], rfl, s.clips[s.pcm.length], [], List.getElem?_eq_getElem hlt, by simp [clipStarted],
      Nat.zero_le _, by simp [clipStarted]⟩
  refine runInv_of_decoding h (.inl rfl) (h.cdx.congr rfl rfl ⟨rfl, rfl, rfl, rfl⟩) ⟨rfl, h.frame.2⟩
    ((phaseOk_frames rfl).2 ⟨hs, hd⟩) rfl (fun hs => ?_) fun j hj => ?_
  · rw [hp] at hs
    cases hs
  · have hj' : j ≠ s.pcm.length := hj
    simp only [clipStarted, List.getElem?_append]
    split
    · rfl
    · rw [List.getElem?_eq_none (by simp; omega), List.getElem?_eq_none (by omega)]

/-- The clip ends with its stream as it is (R124, R127, R128). -/
theorem runInv_clipEnd {s t : State} (h : RunInv s) (hp : s.phase = .frames) (hcdx : CdxOk t)
    (hframe : FrameCursorOk t) (hscan : Scanned s → Scanned t) (hclips : t.clips = s.clips) (hpcm : t.pcm = s.pcm)
    (ht : t.phase = nextClip s.clips (s.cidx + 1)) : RunInv t := by
  obtain ⟨hs, hlen, _, c, _, hc, _⟩ := (phaseOk_frames hp).1 h.phase
  have hlt : s.cidx < s.clips.length := (List.getElem?_eq_some_iff.1 hc).1
  refine hcdx.runInv hframe ?_ (fun i p hq => ?_)
    (phaseOk_nextClip (by rw [ht, hclips]) (hscan hs) (by rw [hpcm, hlen]) (by rw [hclips]; exact hlt))
  · simpa only [StreamsBounded, hclips, hpcm] using h.bounded
  · refine (h.whole i p (hpcm ▸ hq)).imp (fun hs => ?_) id
    rw [hp] at hs
    cases hs.1

/-- A frame decoded in one step (R125, R126). -/
theorem runInv_dec {s t : State} {c : List Byte} {f : Frame} (h : RunInv s) (hp : s.phase = .frames)
    (hc : s.clips[s.cidx]? = some c) (hl : 16 ≤ (c.drop s.fpos).length) (ht : exec (.dec f) s = .next t) :
    RunInv t := by
  obtain ⟨p, r, hpcm, hr, rfl⟩ := exec_dec_eq_next ht
  obtain ⟨hs, hd⟩ := (phaseOk_frames hp).1 h.phase
  obtain ⟨hmod, -⟩ := h.frame
  have hr28 : r.2.length = 28 := by simpa using samplesOf_length hr
  rw [List.length_drop] at hl
  have hd' : DecodingOk (frameDecoded f p r s) 0 := by
    refine hd.append hpcm rfl rfl rfl rfl (fun c' hc' => ?_) ?_
    · cases hc.symm.trans hc'
      rw [frameDecoded_fpos]
      omega
    · rw [frameDecoded_fpos]
      omega
  exact runInv_of_decoding h (.inl hp) (h.cdx.congr rfl rfl ⟨rfl, rfl, rfl, rfl⟩)
    ⟨(Nat.add_mod_right _ _).trans hmod, le_rfl⟩
    ((phaseOk_frames (s := frameDecoded f p r s) hp).2 ⟨hs, hd'⟩) rfl (fun _ => rfl)
    fun j hj => List.getElem?_set_ne (Ne.symm hj)

/-- A frame unpacked (R125). -/
theorem runInv_openFrame {s : State} {c : List Byte} {f : Frame} (h : RunInv s) (hp : s.phase = .frames)
    (hc : s.clips[s.cidx]? = some c) (hl : 16 ≤ (c.drop s.fpos).length) : RunInv (openFrame f s) := by
  obtain ⟨hs, hd⟩ := (phaseOk_frames hp).1 h.phase
  have hfull : s.fpos + 16 ≤ c.length := by
    rw [List.length_drop] at hl
    omega
  exact runInv_of_decoding h (.inr rfl) (h.cdx.congr rfl rfl ⟨rfl, rfl, rfl, rfl⟩) ⟨h.frame.1, Nat.zero_le _⟩
    ((phaseOk_samples rfl).2 ⟨hs, hd, Nat.succ_pos 27, c, hc, hfull⟩) rfl (fun _ => rfl) fun _ _ => rfl

/-- One sample of a frame, not its last (R140). -/
theorem runInv_smp {s t : State} {n : Nib} (h : RunInv s) (hp : s.phase = .samples) (ht : sample n s = .next t)
    (hk : t.k < 28) : RunInv t := by
  obtain ⟨new, p, _, hpcm, rfl⟩ := sample_eq_next ht
  obtain ⟨hs, hd, _, c, hc, hle⟩ := (phaseOk_samples hp).1 h.phase
  have hd' : DecodingOk (putSample new (s.pcm.set s.cidx (p ++ [toPcm new.value])) s) (s.k + 1) := by
    refine hd.append hpcm rfl rfl rfl rfl (fun c' hc' => ?_) rfl
    cases hc.symm.trans hc'
    exact (Nat.le_add_right _ _).trans hle
  exact runInv_of_decoding h (.inr hp) (h.cdx.congr rfl rfl ⟨rfl, rfl, rfl, rfl⟩) ⟨h.frame.1, hk.le⟩
    ((phaseOk_samples (s := putSample _ _ s) hp).2 ⟨hs, hd', hk, c, hc, hle⟩) rfl (fun _ => rfl)
    fun j hj => List.getElem?_set_ne (Ne.symm hj)

/-- The last sample of a frame (R140, R126). -/
theorem runInv_lastSmp {s t : State} {n : Nib} (h : RunInv s) (hp : s.phase = .samples) (ht : sample n s = .next t)
    (hk : ¬ t.k < 28) : RunInv (closeFrame t) := by
  obtain ⟨new, p, _, hpcm, rfl⟩ := sample_eq_next ht
  obtain ⟨hs, hd, hlt, c, hc, hle⟩ := (phaseOk_samples hp).1 h.phase
  rw [putSample_k] at hk
  obtain ⟨hmod, -⟩ := h.frame
  have hd' : DecodingOk (closeFrame (putSample new (s.pcm.set s.cidx (p ++ [toPcm new.value])) s)) 0 := by
    refine hd.append hpcm rfl rfl rfl rfl (fun c' hc' => ?_) ?_
    · cases hc.symm.trans hc'
      exact hle
    · rw [closeFrame_fpos, putSample_fpos, List.length_singleton]
      omega
  exact runInv_of_decoding h (.inl rfl) (h.cdx.congr rfl rfl ⟨rfl, rfl, rfl, rfl⟩)
    ⟨(Nat.add_mod_right _ _).trans hmod, hlt⟩ ((phaseOk_frames rfl).2 ⟨hs, hd'⟩) rfl (fun _ => rfl)
    fun j hj => List.getElem?_set_ne (Ne.symm hj)

/-- Every step keeps the invariant. -/
theorem runInv_step {s t : State} (h : RunInv s) (ht : step s = .next t) : RunInv t := by
  cases step_cases ht with
  | finished hp => exact h
  | delim hp hr hz => exact runInv_row h hp (h.cdx.delim hr) rfl h.frame hp
  | data hp hr hz => exact runInv_row h hp (h.cdx.data hr) rfl h.frame hp
  | flush hp hr => exact runInv_flush h hp hr
  | clipstart i hp =>
    obtain ⟨-, -, rfl⟩ := (phaseOk_start hp).1 h.phase
    rw [Host.Outcome.next.inj (ht.symm.trans (step_clipStarted hp))]
    exact runInv_clipStarted h hp
  | halted hp hh =>
    exact runInv_clipEnd h hp (h.cdx.congr rfl rfl ⟨rfl, rfl, rfl, rfl⟩) h.frame id rfl rfl rfl
  | tail c hp hh hc hl =>
    exact runInv_clipEnd h hp (h.cdx.congr rfl rfl ⟨rfl, rfl, rfl, rfl⟩) h.frame id rfl rfl rfl
  | endClip c shift pnib hp hh hc hl hf hd =>
    exact runInv_clipEnd h hp (h.cdx.congr rfl rfl ⟨rfl, rfl, rfl, rfl⟩) h.frame id rfl rfl rfl
  | dec c f u hp hh hg hc hl hd hu => exact runInv_dec h hp hc hl (exec_dec_of_sampleAll hu)
  | openFrame c f hp hh hg hc hl hd => exact runInv_openFrame h hp hc hl
  | smp hp hk u hu hn => exact runInv_smp h hp hu hn
  | lastSmp hp hk u hu hn => exact runInv_lastSmp h hp hu hn
  | frameDone hp hk =>
    obtain ⟨-, -, hlt, -⟩ := (phaseOk_samples hp).1 h.phase
    exact absurd hlt hk

/-- Settles O10: CDX's registers change in the row loop only, where no stream is open, and the stream of the clip being
decoded is the only one that grows. -/
theorem stepKeepsInvariant : Obligations.StepKeepsInvariant := fun _ _ => runInv_step

end Sys2Proof.Machine
end

section
/-! ## Run start, inputs, output, history and HALT (R26, R30, R33, R35, R39, R40, R220, R221) -/

namespace Sys2Proof.Machine

/-! ### Reset and run start (R39, R221) -/

theorem runInv_runStart (blob : List Byte) {s : State} (h : FrameCursorOk s) : RunInv (runStart blob s) := by
  have hbelow : (Mem.ofBytes 0 blob).below blob.length = true := by simpa using Mem.ofBytes_below blob 0
  have hcdx : CdxOk (runStart blob s) :=
    ⟨⟨runStart_mem_wf blob s, hbelow⟩, ⟨Nat.zero_le _, .inl rfl⟩, rfl, fun hne => absurd rfl hne,
      fun c hc => absurd hc List.not_mem_nil⟩
  exact hcdx.runInv_of_pcm_nil rfl h ((phaseOk_scan rfl).2 rfl)

/-- Reset is the run start on an empty blob (log entry 2). -/
theorem runStart_nil_reset : runStart [] State.reset = State.reset := rfl

/-- Settles O11: at a run start nothing is scanned, accumulated or decoded yet. -/
theorem invariantAtRunStart : Obligations.InvariantAtRunStart := by
  refine ⟨?_, fun blob s h => runInv_runStart blob h⟩
  rw [← runStart_nil_reset]
  exact runInv_runStart [] ⟨rfl, Nat.zero_le 28⟩

/-- The reads of BD after a load (R52). -/
theorem memRead_runStart (blob : List Byte) (s : State) (a : Nat) : memRead (runStart blob s) a = blob[a]? := by
  rw [← blobOf_getElem?, blobOf_runStart]

theorem memRead_reset (a : Nat) : memRead State.reset a = none := by
  rw [← runStart_nil_reset, memRead_runStart, List.getElem?_nil]

/-- Settles O12: a load reads back, and reset is the run start on the empty blob. -/
theorem runStartState : Obligations.RunStartState := fun blob s =>
  ⟨rfl, rfl, rfl, rfl, rfl, rfl, rfl, blobOf_runStart blob s, memRead_runStart blob s, rfl, rfl, rfl, rfl, rfl, rfl,
    memRead_reset⟩

/-! ### The inputs (R26, R51, R66) -/

/-- Settles O15: no update a step makes names the blob, its length or the configuration. -/
theorem inputsAreReadOnly : Obligations.InputsAreReadOnly := by
  intro s t h
  cases step_cases h with
  | dec c f u hp hh hg hc hl hd hu =>
    have keeps := sampleAll_keeps hu
    exact ⟨keeps.bd, keeps.len, keeps.cfg⟩
  | smp hp hk u hu hn =>
    have keeps := sample_keeps hu
    exact ⟨keeps.bd, keeps.len, keeps.cfg⟩
  | lastSmp hp hk u hu hn =>
    have keeps := sample_keeps hu
    exact ⟨keeps.bd, keeps.len, keeps.cfg⟩
  | _ => exact ⟨rfl, rfl, rfl⟩

/-! ### The output (R30, R35) -/

/-- Every stream of `s` begins the one at its place in `t` (R35). -/
def StreamsGrow (s t : State) : Prop :=
  ∀ (i : Nat) (p : List Sample), s.pcm[i]? = some p → ∃ q, t.pcm[i]? = some (p ++ q)

theorem streamsGrow_of_eq {s t : State} (h : t.pcm = s.pcm) : StreamsGrow s t := fun i p hp =>
  ⟨[], by rw [h, hp, List.append_nil]⟩

/-- Samples appended to one stream. -/
theorem streamsGrow_of_append {s t : State} {i : Nat} {p q : List Sample} (hp : s.pcm[i]? = some p)
    (h : t.pcm = s.pcm.set i (p ++ q)) : StreamsGrow s t := by
  intro j p' hp'
  by_cases hj : j = i
  · subst hj
    cases hp.symm.trans hp'
    exact ⟨q, by rw [h, List.getElem?_set_self (List.getElem?_eq_some_iff.1 hp).1]⟩
  · exact ⟨[], by rw [h, List.getElem?_set_ne (Ne.symm hj), hp', List.append_nil]⟩

theorem streamsGrow_sample {n : Nib} {s t : State} (h : sample n s = .next t) : StreamsGrow s t := by
  obtain ⟨_, _, _, hp, rfl⟩ := sample_eq_next h
  exact streamsGrow_of_append hp rfl

theorem streamsGrow_dec {f : Frame} {s t : State} (h : exec (.dec f) s = .next t) : StreamsGrow s t := by
  obtain ⟨_, _, hp, _, rfl⟩ := exec_dec_eq_next h
  exact streamsGrow_of_append hp rfl

/-- A new stream opened after the others. -/
theorem streamsGrow_clipStarted (s : State) : StreamsGrow s (clipStarted s) := fun i p hp =>
  ⟨[], by rw [List.append_nil]; exact (List.getElem?_append_left (List.getElem?_eq_some_iff.1 hp).1).trans hp⟩

theorem clips_prefix_of_eq {s t : State} (h : t.clips = s.clips) : s.clips <+: t.clips := by rw [h]

theorem clips_prefix_closeAcc (s : State) : s.clips <+: (closeAcc s).clips := by
  rw [closeAcc_clips_eq_emitted]
  exact List.prefix_append _ _

/-- Settles O16: the accumulator is closed to the end of `CLIPS`, samples are appended to one stream, and in a run the
stream a clip start opens is a new one. -/
theorem outputsAppendOnly : Obligations.OutputsAppendOnly := by
  intro s t hinv h
  cases step_cases h with
  | delim hp hr hz => exact ⟨clips_prefix_closeAcc s, streamsGrow_of_eq rfl⟩
  | flush hp hr => exact ⟨clips_prefix_closeAcc s, streamsGrow_of_eq rfl⟩
  | clipstart i hp =>
    obtain ⟨-, -, rfl⟩ := (phaseOk_start hp).1 hinv.phase
    rw [Host.Outcome.next.inj (h.symm.trans (step_clipStarted hp))]
    exact ⟨clips_prefix_of_eq rfl, streamsGrow_clipStarted s⟩
  | dec c f u hp hh hg hc hl hd hu =>
    exact ⟨clips_prefix_of_eq (sampleAll_keeps hu).clips, streamsGrow_dec (exec_dec_of_sampleAll hu)⟩
  | smp hp hk u hu hn => exact ⟨clips_prefix_of_eq (sample_keeps hu).clips, streamsGrow_sample hu⟩
  | lastSmp hp hk u hu hn =>
    have hgrow : StreamsGrow s u := streamsGrow_sample hu
    exact ⟨clips_prefix_of_eq (sample_keeps hu).clips, hgrow⟩
  | _ => exact ⟨clips_prefix_of_eq rfl, streamsGrow_of_eq rfl⟩

/-! ### The history (R40, R220) -/

theorem fetch_residual {s : State} (hp : s.phase = .samples) (hk : s.k < 28) :
    fetch s = .item (.residual s.nib[s.k]) := by simp [fetch, hp, fetchResidual, hk]

/-- Settles O17: of the steps a position allows, only those of `CLIPSTART`, `DEC` and `SMP` write the history. -/
theorem filterResetOnlyAtClipStart : Obligations.FilterResetOnlyAtClipStart := by
  intro s t h
  refine ⟨fun i hp => ?_, fun hchange => ?_⟩
  · rw [step_start hp] at h
    cases h
    exact ⟨rfl, rfl⟩
  · cases step_cases h with
    | clipstart i hp => exact .inl ⟨i, hp⟩
    | dec c f u hp hh hg hc hl hd hu =>
      exact .inr ⟨_, _, fetch_frame hp hh hc, congrArg Except.ok hd, .inl ⟨f, rfl⟩⟩
    | smp hp hk u hu hn => exact .inr ⟨_, _, fetch_residual hp hk, rfl, .inr ⟨_, rfl⟩⟩
    | lastSmp hp hk u hu hn => exact .inr ⟨_, _, fetch_residual hp hk, rfl, .inr ⟨_, rfl⟩⟩
    | _ => exact absurd ⟨rfl, rfl⟩ hchange

/-! ### HALT (R33) -/

/-- In a run a clip being decoded is not halted (R122, R124). -/
theorem phase_of_halted {s : State} (h : RunInv s) (hh : s.halt = true) : s.phase ≠ .frames ∧ s.phase ≠ .samples := by
  refine ⟨fun hp => ?_, fun hp => ?_⟩
  · obtain ⟨-, -, hno, -⟩ := (phaseOk_frames hp).1 h.phase
    simp [hh] at hno
  · obtain ⟨-, ⟨-, hno, -⟩, -⟩ := (phaseOk_samples hp).1 h.phase
    simp [hh] at hno

theorem fetch_scan {s : State} (hp : s.phase = .scan) : ∃ row, fetch s = .item (.row row) := by
  by_cases hr : s.rpos < s.len
  · exact ⟨_, by rw [fetch, hp]; exact fetchRow_lt s hr⟩
  · exact ⟨_, by rw [fetch, hp]; exact fetchRow_ge s hr⟩

/-- In a run a halted clip leaves nothing to present but a row, the start of a clip, or nothing (R33). -/
theorem fetch_of_halted {s : State} (h : RunInv s) (hh : s.halt = true) :
    (∃ row, fetch s = .item (.row row)) ∨ (∃ i, fetch s = .item (.clip i)) ∨ fetch s = .idle := by
  obtain ⟨hframes, hsamples⟩ := phase_of_halted h hh
  cases hp : s.phase with
  | scan => exact .inl (fetch_scan hp)
  | start i => exact .inr (.inl ⟨i, by rw [fetch, hp]⟩)
  | frames => exact absurd hp hframes
  | samples => exact absurd hp hsamples
  | finished => exact .inr (.inr (by rw [fetch, hp]))

/-- Settles O18: a halted clip's position is outside the loops over it, and the steps of the other positions but
`CLIPSTART` are CDX's, or none. -/
theorem haltedClipIsLeft : Obligations.HaltedClipIsLeft := by
  intro s hinv hh
  obtain ⟨hframes, hsamples⟩ := phase_of_halted hinv hh
  refine ⟨hframes, hsamples, fun rest h => ?_, fun n h => ?_, fun t hstart h => ?_⟩
  · rcases fetch_of_halted hinv hh with ⟨_, hf⟩ | ⟨_, hf⟩ | hf <;> simp [hf] at h
  · rcases fetch_of_halted hinv hh with ⟨_, hf⟩ | ⟨_, hf⟩ | hf <;> simp [hf] at h
  · cases step_cases h with
    | finished hp => exact ⟨⟨rfl, rfl⟩, rfl, rfl, hh⟩
    | delim hp hr hz => exact ⟨⟨rfl, rfl⟩, rfl, rfl, hh⟩
    | data hp hr hz => exact ⟨⟨rfl, rfl⟩, rfl, rfl, hh⟩
    | flush hp hr => exact ⟨⟨rfl, rfl⟩, rfl, rfl, hh⟩
    | clipstart i hp => exact absurd hp (hstart i)
    | halted hp => exact absurd hp hframes
    | tail c hp => exact absurd hp hframes
    | endClip c shift pnib hp => exact absurd hp hframes
    | dec c f u hp => exact absurd hp hframes
    | openFrame c f hp => exact absurd hp hframes
    | smp hp => exact absurd hp hsamples
    | lastSmp hp => exact absurd hp hsamples
    | frameDone hp => exact absurd hp hsamples

end Sys2Proof.Machine
end

section
/-! ## What each operation leaves unchanged (R20, R29, R121 to R127, R140) -/

namespace Sys2Proof.Machine

/-- The reads of BD are decided by its cells and its length (R52). -/
theorem sameInputs_of_eq {s t : State} (hb : t.bd = s.bd) (hl : t.len = s.len) (hc : t.cfg = s.cfg) : SameInputs s t :=
  ⟨fun a => by simp [memRead, hb, hl], hl, hc⟩

/-- `SMP`'s and `DEC`'s appends touch one stream (R54). -/
theorem sameStreamsBut_of_set {s t : State} {i : Nat} {p : List Sample} (h : t.pcm = s.pcm.set i p) :
    SameStreamsBut i s t :=
  ⟨by rw [h, List.length_set], fun j hj => by rw [h, List.getElem?_set_ne (Ne.symm hj)]⟩

/-! ### CDX -/

/-- Settles O33: the three operations write CDX's registers alone. -/
theorem cdxFrame : Obligations.CdxFrame := by
  rintro i s t (⟨n, rfl⟩ | ⟨row, rfl⟩ | rfl) h
  · cases exec_delim n s ▸ h
    exact ⟨sameInputs_of_eq rfl rfl rfl, ⟨rfl, rfl⟩, ⟨rfl, rfl, rfl, rfl⟩, rfl, rfl, rfl, rfl, rfl, rfl,
      nofun, nofun⟩
  · cases exec_data row s ▸ h
    exact ⟨sameInputs_of_eq rfl rfl rfl, ⟨rfl, rfl⟩, ⟨rfl, rfl, rfl, rfl⟩, rfl, rfl, rfl, rfl, rfl, rfl,
      nofun, fun _ => rfl⟩
  · cases exec_flush s ▸ h
    exact ⟨sameInputs_of_eq rfl rfl rfl, ⟨rfl, rfl⟩, ⟨rfl, rfl, rfl, rfl⟩, rfl, rfl, rfl, rfl, rfl, rfl,
      fun _ => rfl, nofun⟩

/-- An operation that touches neither the accumulator nor its flag. -/
theorem accFlagOk_of_sameCdx {s t : State} (h : SameCdx s t) (hs : AccFlagOk s) : AccFlagOk t := by
  obtain ⟨-, hacc, hne, -⟩ := h
  rw [AccFlagOk, hacc, hne]
  exact hs

/-! ### AFD, frame level -/

/-- Settles O34: opening a stream leaves every other that exists. -/
theorem clipstartClearsTheFilter : Obligations.ClipstartClearsTheFilter := by
  refine fun i s => ⟨_, exec_clipstart i s, rfl, rfl, rfl, rfl, rfl, ?_, fun j p hj hp => ?_⟩
  · rw [openStream_getElem?, if_pos rfl]
  · rw [openStream_getElem?, if_neg hj, if_pos (List.getElem?_eq_some_iff.1 hp).1, hp]

/-- Settles O37: none of the three writes BD, CDX's registers or the residuals. -/
theorem afdControlFrame : Obligations.AfdControlFrame := by
  rintro i s t (⟨c, rfl⟩ | rfl | ⟨a, b, rfl⟩) h
  · cases exec_clipstart c s ▸ h
    exact ⟨sameInputs_of_eq rfl rfl rfl, ⟨rfl, rfl, rfl, rfl⟩, rfl, rfl, rfl, fun hno => absurd ⟨c, rfl⟩ hno,
      fun _ => ⟨rfl, rfl, rfl, rfl⟩⟩
  · cases exec_tail s ▸ h
    exact ⟨sameInputs_of_eq rfl rfl rfl, ⟨rfl, rfl, rfl, rfl⟩, rfl, rfl, rfl, fun _ => ⟨⟨rfl, rfl⟩, rfl, rfl, rfl⟩,
      fun _ => ⟨rfl, rfl, rfl, rfl⟩⟩
  · cases exec_endClip a b s ▸ h
    exact ⟨sameInputs_of_eq rfl rfl rfl, ⟨rfl, rfl, rfl, rfl⟩, rfl, rfl, rfl, fun _ => ⟨⟨rfl, rfl⟩, rfl, rfl, rfl⟩,
      fun hno => absurd ⟨a, b, rfl⟩ hno⟩

/-! ### Samples -/

/-- Settles O51: a sample writes the history, `K` and one stream, and `DEC` the latches and `FPOS` beside. -/
theorem sampleFrame : Obligations.SampleFrame := by
  rintro i s t (⟨n, rfl⟩ | ⟨f, rfl⟩) h
  · obtain ⟨new, p, -, -, rfl⟩ := sample_eq_next (exec_smp n s ▸ h)
    exact ⟨sameInputs_of_eq rfl rfl rfl, ⟨rfl, rfl, rfl, rfl⟩, rfl, rfl, rfl, sameStreamsBut_of_set rfl,
      fun _ => ⟨⟨rfl, rfl, rfl, rfl⟩, rfl⟩⟩
  · obtain ⟨p, r, -, -, rfl⟩ := exec_dec_eq_next h
    exact ⟨sameInputs_of_eq rfl rfl rfl, ⟨rfl, rfl, rfl, rfl⟩, rfl, rfl, rfl, sameStreamsBut_of_set rfl, nofun⟩

/-- Settles O32: `DELIM` and `FLUSH` empty the accumulator, `DATA` appends a row that is not empty, and no other
operation touches it. -/
theorem accFlagFollowsAcc : Obligations.AccFlagFollowsAcc := by
  intro i s t hwf hs h
  cases i with
  | delim n =>
    cases h
    exact accFlagOk_closeAcc s
  | data row =>
    cases h
    have hlen : 1 ≤ row.length := by
      simp only [Instr.wellFormed, rowLengthOk, Bool.and_eq_true, decide_eq_true_eq] at hwf
      omega
    exact accFlagOk_appendAcc hlen s
  | flush =>
    cases h
    exact accFlagOk_closeAcc s
  | clipstart c =>
    obtain ⟨-, hcdx, -⟩ := afdControlFrame _ s t (.inl ⟨c, rfl⟩) h
    exact accFlagOk_of_sameCdx hcdx hs
  | tail =>
    obtain ⟨-, hcdx, -⟩ := afdControlFrame _ s t (.inr (.inl rfl)) h
    exact accFlagOk_of_sameCdx hcdx hs
  | endClip a b =>
    obtain ⟨-, hcdx, -⟩ := afdControlFrame _ s t (.inr (.inr ⟨a, b, rfl⟩)) h
    exact accFlagOk_of_sameCdx hcdx hs
  | dec f =>
    obtain ⟨-, hcdx, -⟩ := sampleFrame _ s t (.inr ⟨f, rfl⟩) h
    exact accFlagOk_of_sameCdx hcdx hs
  | smp n =>
    obtain ⟨-, hcdx, -⟩ := sampleFrame _ s t (.inl ⟨n, rfl⟩) h
    exact accFlagOk_of_sameCdx hcdx hs

/-- Settles O43: the samples of a frame are computed from its header and residuals, never from its flag. -/
theorem decFlagHasNoEffect : Obligations.DecFlagHasNoEffect := by
  intro f s v w t h
  obtain ⟨p, r, hp, hr, rfl⟩ := exec_dec_eq_next h
  exact exec_dec_of_samplesOf (f := { f with flag := w }) hp hr

end Sys2Proof.Machine
end

section
/-! ## The sign of a zero plays no part in a frame (R130, R157) -/

namespace Sys2Proof.Machine

/-! ### Rounding to zero -/

/-- The least binary64 magnitude (R149). -/
theorem two_zpow_le_abs_of_binary64Value {x : Rat} (h : Binary64Value x) (h0 : x ≠ 0) :
    (2 : Rat) ^ (-1074 : Int) ≤ |x| := by
  obtain ⟨m, e, -, hlow, -, rfl⟩ := h
  have hm : m ≠ 0 := fun hm => h0 (by simp [hm])
  have hone : (1 : Rat) ≤ |(m : Rat)| := by exact_mod_cast Int.one_le_abs hm
  rw [abs_mul, abs_of_pos (show (0 : Rat) < (2 : Rat) ^ e by positivity)]
  calc (2 : Rat) ^ (-1074 : Int) ≤ (2 : Rat) ^ e := zpow_le_zpow_right₀ (by norm_num) hlow
    _ ≤ |(m : Rat)| * (2 : Rat) ^ e := le_mul_of_one_le_left (by positivity) hone

/-- Only a number below the least binary64 magnitude is rounded to zero (R149). -/
theorem abs_lt_of_round64_eq_zero {q : Rat} (h : round64 q = some 0) : |q| < (2 : Rat) ^ (-1074 : Int) := by
  by_cases hq : q = 0
  · rw [hq, abs_zero]
    positivity
  have hn := num_natAbs_pos hq
  obtain ⟨m, hm, hnear, -⟩ := roundMagnitude_spec q.num.natAbs q.den q.den_pos
  have hm0 : m = 0 := by
    rw [round64_of_ne_zero hq] at h
    split at h
    case isTrue => cases h
    case isFalse =>
      have hmag : roundMagnitude q.num.natAbs q.den = 0 := by
        have h' := Option.some.inj h
        split at h'
        · exact neg_eq_zero.1 h'
        · exact h'
      rw [hm] at hmag
      have := (mul_eq_zero.1 hmag).resolve_right (by positivity)
      exact_mod_cast this
  rw [hm0, ← abs_eq_natAbs_div_den, Nat.cast_zero, sub_zero, abs_of_nonneg (by positivity)] at hnear
  have hplace : lastPlace q.num.natAbs q.den = -1074 := by
    by_contra hne
    have hfull := two_pow_52_le_quotient q.num.natAbs q.den hn q.den_pos hne
    rw [← abs_eq_natAbs_div_den] at hfull
    linarith
  rw [hplace, zpow_neg, ← div_eq_mul_inv, div_le_iff₀ (by positivity)] at hnear
  have hpos : (0 : Rat) < (2 : Rat) ^ (-1074 : Int) := by positivity
  linarith

/-- A number at or below a negative value of the domain is not rounded to zero. -/
theorem roundNum_ne_zero_of_le {d : NumDomain} {q x : Rat} (hx : roundNum d x = some x) (hneg : x < 0) (hle : q ≤ x) :
    roundNum d q ≠ some 0 := by
  intro h
  cases d with
  | exact =>
    obtain rfl : q = 0 := Option.some.inj h
    exact absurd hneg (not_lt.2 hle)
  | binary64 =>
    have hq := abs_lt_of_round64_eq_zero h
    have hleast := two_zpow_le_abs_of_binary64Value (binary64Value_of_round64 hx) hneg.ne
    rw [abs_of_neg hneg] at hleast
    rw [abs_of_nonpos (hle.trans hneg.le)] at hq
    linarith

/-! ### A sum is `-0.0` only where both terms are -/

/-- A value of `NUM` other than `-0.0`. -/
def PlainNum (d : NumDomain) (x : NumVal) : Prop := InNum d x ∧ x ≠ .negZero

/-- A value that is not `-0.0` is the rational it stands for. -/
theorem eq_ofRat_value {x : NumVal} (h : x ≠ .negZero) : x = .ofRat x.value := by
  cases x with
  | ofRat q => rfl
  | negZero => exact absurd rfl h

/-- A sum whose first term is not `-0.0` is not `-0.0`: where both terms are negative it does not underflow (R149). -/
theorem plainNum_addNum {d : NumDomain} {a b c : NumVal} (ha : PlainNum d a) (h : addNum d a b = some c) :
    PlainNum d c := by
  obtain ⟨hin, hplain⟩ := ha
  obtain ⟨x, rfl⟩ : ∃ x, a = .ofRat x := ⟨_, eq_ofRat_value hplain⟩
  obtain ⟨q, hq, rfl⟩ := addNum_eq_some.1 h
  refine ⟨inNum_withSign _ (roundNum_of_roundNum hq), ?_⟩
  have hsign : q = 0 → ((NumVal.ofRat x).negative && b.negative) = false := by
    rintro rfl
    by_contra hneg
    obtain ⟨hx, hb⟩ : x < 0 ∧ b.negative = true := by simpa using hneg
    exact roundNum_ne_zero_of_le hin hx (add_le_of_nonpos_right (value_nonpos_of_negative hb)) hq
  rw [withSign_eq_ofRat hsign]
  exact nofun

/-! ### The prediction as a function of numbers -/

theorem rawValue_natAbs_lt (n shift : Nib) : (rawValue n shift).natAbs < 2 ^ 53 := by
  have hlow := BitVec.le_toInt (arithShift (signExtendWide (widen n)) shift)
  have hhigh := BitVec.toInt_lt (x := arithShift (signExtendWide (widen n)) shift)
  unfold rawValue
  omega

/-- A raw value is exact in both domains (R144). -/
theorem plainNum_rawValue (d : NumDomain) (n shift : Nib) : PlainNum d (ofInt (rawValue n shift)) := by
  refine ⟨?_, nofun⟩
  cases d with
  | exact => rfl
  | binary64 => exact round64_of_binary64Value ⟨_, 0, rawValue_natAbs_lt n shift, by norm_num, by norm_num, by simp⟩

/-- A prediction from a raw value that is not `-0.0` is not `-0.0`. -/
theorem plainNum_predict {d : NumDomain} {raw h1 h2 new : NumVal} {c : CoefPair NumVal} (hraw : PlainNum d raw)
    (h : predict d raw h1 h2 c = some new) : PlainNum d new := by
  obtain ⟨_, _, _, _, ha, _, hnew⟩ := predict_eq_some h
  exact plainNum_addNum (plainNum_addNum hraw ha) hnew

/-- The number a prediction stands for, with no sign of a zero (R145, R149). -/
def predictValue (d : NumDomain) (raw h1 h2 c0 c1 : Rat) : Option Rat :=
  (roundNum d (h1 * c0)).bind fun p0 =>
    (roundNum d (raw + p0)).bind fun a =>
      (roundNum d (h2 * c1)).bind fun p1 => roundNum d (a + p1)

theorem map_value_predict (d : NumDomain) (raw h1 h2 : NumVal) (c : CoefPair NumVal) :
    (predict d raw h1 h2 c).map NumVal.value =
      predictValue d raw.value h1.value h2.value c.c0.value c.c1.value := by
  simp [predict, predictValue, mulNum, addNum, Option.map_bind, Option.bind_map, Function.comp_def]

/-- From a raw value that is not `-0.0` the prediction is its number. -/
theorem predict_eq_map_predictValue {d : NumDomain} {raw : NumVal} (hraw : PlainNum d raw) (h1 h2 : NumVal)
    (c : CoefPair NumVal) :
    predict d raw h1 h2 c = (predictValue d raw.value h1.value h2.value c.c0.value c.c1.value).map .ofRat := by
  rw [← map_value_predict]
  cases h : predict d raw h1 h2 c with
  | none => rfl
  | some new => exact congrArg some (eq_ofRat_value (plainNum_predict hraw h).2)

/-- The prediction from a raw value depends on the numbers in the history alone (R157). -/
theorem predict_rawValue_congr {d : NumDomain} {h1 h2 h1' h2' : NumVal} (e1 : h1.value = h1'.value)
    (e2 : h2.value = h2'.value) (n shift : Nib) (c : CoefPair NumVal) :
    predict d (ofInt (rawValue n shift)) h1 h2 c = predict d (ofInt (rawValue n shift)) h1' h2' c := by
  have hraw := plainNum_rawValue d n shift
  rw [predict_eq_map_predictValue hraw, predict_eq_map_predictValue hraw, e1, e2]

/-! ### The samples of a frame -/

/-- After two samples nothing of the history met is left, and both depended on its numbers alone (R146, R157). -/
theorem samplesOf_congr {cfg : Config} {shift : Nib} {pred : Fin 5} {h1 h2 h1' h2' : NumVal}
    (e1 : h1.value = h1'.value) (e2 : h2.value = h2'.value) : ∀ {ns : List Nib}, 2 ≤ ns.length →
    samplesOf cfg shift pred ns (h1, h2) = samplesOf cfg shift pred ns (h1', h2')
  | n :: m :: ns, _ => by
    simp only [samplesOf, sampleOf, predict_rawValue_congr e1 e2]
    cases predict cfg.num (ofInt (rawValue n shift)) h1' h2' (cfg.coef pred) with
    | none => rfl
    | some new => simp only [Option.map_some, Option.bind_some, predict_rawValue_congr rfl e1]

/-- Settles O44: a frame's samples are a function of numbers, and its last two predictions are the history it leaves. -/
theorem frameDecodeIsPure : Obligations.FrameDecodeIsPure := by
  intro f s₁ s₂ p₁ p₂ t₁ hcfg e1 e2 hp₁ hp₂ h
  obtain ⟨p, r, hp, hr, rfl⟩ := exec_dec_eq_next h
  cases hp.symm.trans hp₁
  have hr₂ : samplesOf s₂.cfg f.shift (clampPred f.pnib) f.res.toList (s₂.hist1, s₂.hist2) = some r := by
    rw [← hcfg, ← samplesOf_congr e1 e2 (by simp), hr]
  refine ⟨frameDecoded f p₂ r s₂, r.2, exec_dec_of_samplesOf hp₂ hr₂, ⟨rfl, rfl⟩, ?_, ?_⟩
  · exact List.getElem?_set_self (List.getElem?_eq_some_iff.1 hp₁).1
  · exact List.getElem?_set_self (List.getElem?_eq_some_iff.1 hp₂).1

end Sys2Proof.Machine
end

section
/-! ## The unit a step runs, and the end of a run (R52, R62, R68, R101, R122, R233) -/

namespace Sys2Proof.Machine

/-! ### The unit presented (R62, R101, R122) -/

/-- A step on a unit that decodes runs its operation and goes on to the next position. -/
theorem step_of_fetch {s : State} {u : Fetched} {i : Instr} (hf : fetch s = .item u) (hd : decode u = .ok i) :
    step s = andThen (issue i s) fun t => .next (sequence i t) := by
  rw [step, hf]
  exact runUnit_ok s hd

/-- Settles O8: the granularity plays a part in a `DEC` frame alone (D28). -/
theorem stepRunsTheDecodedOperation : Obligations.StepRunsTheDecodedOperation := by
  refine fun s u i hf hd => ⟨fun hg => ?_, fun f hi hg => ?_⟩
  · rw [step_of_fetch hf hd, issue_eq_exec hg]
  · subst hi
    rw [step_of_fetch hf hd, issue_dec_perSample hg]
    rfl

/-! ### The row fetched (R52, R101) -/

/-- Settles O9: before the end of the blob the reads of a row succeed, and at its end the row is empty. -/
theorem rowFetchStaysInsideTheBlob : Obligations.RowFetchStaysInsideTheBlob := by
  intro s hp hle
  rw [fetch, hp]
  by_cases hr : s.rpos < s.len
  · exact fetchRow_lt s hr
  · have hempty : blobRange s s.rpos (min 16 (s.len - s.rpos)) = [] := by
      rw [show s.len - s.rpos = 0 by omega]
      rfl
    rw [hempty]
    exact fetchRow_ge s hr

/-! ### The cost of the clips left -/

theorem clipsCost_append (clips more : List (List Byte)) :
    clipsCost (clips ++ more) 0 = clipsCost clips 0 + clipsCost more 0 := by simp [clipsCost]

theorem clipsCost_eq_add {clips : List (List Byte)} {i : Nat} (h : i < clips.length) :
    clipsCost clips i = clipCost clips[i].length + clipsCost clips (i + 1) := by
  rw [clipsCost, List.drop_eq_getElem_cons h, List.map_cons, List.sum_cons, clipsCost]

/-- What was set aside for the accumulator pays for the clip it becomes (R102, R104). -/
theorem clipsCost_closeAcc_le (s : State) : clipsCost (closeAcc s).clips 0 ≤ clipsCost s.clips 0 + accCost s.acc := by
  have hemitted : clipsCost (emitted s.acc) 0 ≤ accCost s.acc := by
    simpa [clipsCost] using clipsCost_emitted_append s.acc []
  rw [closeAcc_clips_eq_emitted, clipsCost_append]
  omega

/-! ### The bound at each position of the schedule -/

theorem stepsLeft_scan {s : State} (hp : s.phase = .scan) :
    stepsLeft s = 40 * ((s.len - s.rpos + 15) / 16) + clipsCost s.clips 0 + accCost s.acc + 2 := by
  rw [stepsLeft, hp]
  rfl

theorem stepsLeft_start {s : State} {i : Nat} (hp : s.phase = .start i) : stepsLeft s = clipsCost s.clips i + 1 := by
  rw [stepsLeft, hp]

theorem stepsLeft_frames {s : State} (hp : s.phase = .frames) :
    stepsLeft s = 29 * (bytesLeft s / 16) + 2 + clipsCost s.clips (s.cidx + 1) := by rw [stepsLeft, hp]

theorem stepsLeft_samples {s : State} (hp : s.phase = .samples) :
    stepsLeft s = 29 * (bytesLeft s / 16 - 1) + (28 - s.k) + 2 + clipsCost s.clips (s.cidx + 1) := by
  rw [stepsLeft, hp]

/-- After the scan and after a clip, the clips left and one step at most (R128, R224). -/
theorem stepsLeft_nextClip_le {t : State} {i : Nat} (hp : t.phase = nextClip t.clips i) :
    stepsLeft t ≤ clipsCost t.clips i + 1 := by
  unfold nextClip at hp
  split at hp
  case isTrue => exact (stepsLeft_start hp).le
  case isFalse =>
    rw [stepsLeft, hp]
    exact Nat.zero_le _

theorem bytesLeft_eq {s : State} {c : List Byte} (hc : s.clips[s.cidx]? = some c) :
    bytesLeft s = (c.drop s.fpos).length := by
  rw [bytesLeft, List.getD_eq_getElem?_getD, hc, List.length_drop]
  rfl

/-- In the frame loop at the frame after that of `s` (R126). -/
theorem stepsLeft_nextFrame {s t : State} (hp : t.phase = .frames) (hclips : t.clips = s.clips)
    (hcidx : t.cidx = s.cidx) (hfpos : t.fpos = s.fpos + 16) :
    stepsLeft t = 29 * (bytesLeft s / 16 - 1) + 2 + clipsCost s.clips (s.cidx + 1) := by
  have hbytes : bytesLeft t = bytesLeft s - 16 := by
    rw [bytesLeft, hclips, hcidx, hfpos, bytesLeft]
    omega
  rw [stepsLeft_frames hp, hbytes, hclips, hcidx]
  omega

/-! ### Each step -/

/-- A row of the row loop takes its 40 steps off the bound and adds at most 32 to the cost of the clips (R101, R233). -/
theorem stepsLeft_row_lt {s t : State} (hp : s.phase = .scan) (ht : t.phase = .scan) (hr : s.rpos < s.len)
    (hlen : t.len = s.len) (hrpos : t.rpos = s.rpos + rowLength s)
    (hcost : clipsCost t.clips 0 + accCost t.acc ≤ clipsCost s.clips 0 + accCost s.acc + 32) :
    stepsLeft t < stepsLeft s := by
  have hrow : rowLength s = min 16 (s.len - s.rpos) := rfl
  rw [stepsLeft_scan hp, stepsLeft_scan ht, hlen, hrpos]
  omega

/-- `FLUSH` (R104). -/
theorem stepsLeft_flush_lt {s : State} (hp : s.phase = .scan) :
    stepsLeft (setPhase (nextClip (closeAcc s).clips 0) (closeAcc s)) < stepsLeft s := by
  have hnext : stepsLeft (setPhase (nextClip (closeAcc s).clips 0) (closeAcc s)) ≤ clipsCost (closeAcc s).clips 0 + 1 :=
    stepsLeft_nextClip_le rfl
  have hcost := clipsCost_closeAcc_le s
  rw [stepsLeft_scan hp]
  omega

/-- `CLIPSTART` (R121). -/
theorem stepsLeft_clipstart_lt {s t : State} {i : Nat} (hp : s.phase = .start i) (hi : i < s.clips.length)
    (ht : t.phase = .frames) (hclips : t.clips = s.clips) (hcidx : t.cidx = i) : stepsLeft t < stepsLeft s := by
  have hbytes : bytesLeft t ≤ s.clips[i].length := by
    rw [bytesLeft_eq (c := s.clips[i]) (by rw [hclips, hcidx, List.getElem?_eq_getElem hi]), List.length_drop]
    exact Nat.sub_le _ _
  rw [stepsLeft_start hp, stepsLeft_frames ht, clipsCost_eq_add hi, hclips, hcidx, clipCost]
  omega

/-- The end of a clip (R124, R127, R128). -/
theorem stepsLeft_clipEnd_lt {s t : State} (hp : s.phase = .frames) (hclips : t.clips = s.clips)
    (ht : t.phase = nextClip s.clips (s.cidx + 1)) : stepsLeft t < stepsLeft s := by
  have hnext := stepsLeft_nextClip_le (hclips.symm ▸ ht)
  rw [hclips] at hnext
  rw [stepsLeft_frames hp]
  omega

/-- A frame in one step (R126). -/
theorem stepsLeft_dec_lt {s u : State} {c : List Byte} {f : Frame} (hp : s.phase = .frames)
    (hc : s.clips[s.cidx]? = some c) (hl : 16 ≤ (c.drop s.fpos).length)
    (hu : sampleAll f.res.toList (latchFrame f s) = .next u) : stepsLeft (advanceFrame u) < stepsLeft s := by
  have keeps := sampleAll_keeps hu
  rw [stepsLeft_nextFrame (s := s) (t := advanceFrame u) (keeps.phase.trans hp) keeps.clips keeps.cidx
    (congrArg (· + 16) keeps.fpos), stepsLeft_frames hp, bytesLeft_eq hc]
  omega

/-- A frame unpacked: 28 samples are left of its 29 steps (R125). -/
theorem stepsLeft_openFrame_lt {s : State} {c : List Byte} (f : Frame) (hp : s.phase = .frames)
    (hc : s.clips[s.cidx]? = some c) (hl : 16 ≤ (c.drop s.fpos).length) : stepsLeft (openFrame f s) < stepsLeft s := by
  have hopen : stepsLeft (openFrame f s) = 29 * (bytesLeft s / 16 - 1) + 28 + 2 + clipsCost s.clips (s.cidx + 1) :=
    stepsLeft_samples rfl
  rw [hopen, stepsLeft_frames hp, bytesLeft_eq hc]
  omega

/-- A sample of a frame, not its last (R140). -/
theorem stepsLeft_smp_lt {s u : State} {n : Nib} (hp : s.phase = .samples) (hk : s.k < 28)
    (hu : sample n s = .next u) : stepsLeft u < stepsLeft s := by
  obtain ⟨new, p, _, _, rfl⟩ := sample_eq_next hu
  have hnext : stepsLeft (putSample new (s.pcm.set s.cidx (p ++ [toPcm new.value])) s) =
      29 * (bytesLeft s / 16 - 1) + (28 - (s.k + 1)) + 2 + clipsCost s.clips (s.cidx + 1) := stepsLeft_samples hp
  rw [hnext, stepsLeft_samples hp]
  omega

/-- The last sample of a frame (R126, R140). -/
theorem stepsLeft_lastSmp_lt {s u : State} {n : Nib} (hp : s.phase = .samples) (hk : s.k < 28)
    (hu : sample n s = .next u) : stepsLeft (closeFrame u) < stepsLeft s := by
  have keeps := sample_keeps hu
  rw [stepsLeft_nextFrame (s := s) (t := closeFrame u) rfl keeps.clips keeps.cidx (congrArg (· + 16) keeps.fpos),
    stepsLeft_samples hp]
  omega

/-- Settles O21: a row, the scan, a clip, a frame and a sample each have a share of the bound, and the step that ends one
uses its share up. -/
theorem everyStepNearsTheEnd : Obligations.EveryStepNearsTheEnd := by
  intro s t hinv hover h
  cases step_cases h with
  | finished hp => exact absurd hp hover
  | delim hp hr hz =>
    have hcost := clipsCost_closeAcc_le s
    exact stepsLeft_row_lt hp hp hr rfl rfl (hcost.trans (Nat.le_add_right _ 32))
  | data hp hr hz =>
    have hcost := accCost_append_le s.acc (blobRange s s.rpos (rowLength s)) ((row_length s hr).1.trans_le (rowLength_le s))
    refine stepsLeft_row_lt hp hp hr rfl rfl ?_
    simp only [advanceRow_clips, advanceRow_acc, appendAcc_clips, appendAcc_acc]
    omega
  | flush hp hr => exact stepsLeft_flush_lt hp
  | clipstart i hp =>
    obtain ⟨-, hi, -⟩ := (phaseOk_start hp).1 hinv.phase
    exact stepsLeft_clipstart_lt hp hi rfl rfl rfl
  | halted hp hh => exact stepsLeft_clipEnd_lt hp rfl rfl
  | tail c hp hh hc hl => exact stepsLeft_clipEnd_lt hp rfl rfl
  | endClip c shift pnib hp hh hc hl hf hd => exact stepsLeft_clipEnd_lt hp rfl rfl
  | dec c f u hp hh hg hc hl hd hu => exact stepsLeft_dec_lt hp hc hl hu
  | openFrame c f hp hh hg hc hl hd => exact stepsLeft_openFrame_lt f hp hc hl
  | smp hp hk u hu hn => exact stepsLeft_smp_lt hp hk hu
  | lastSmp hp hk u hu hn => exact stepsLeft_lastSmp_lt hp hk hu
  | frameDone hp hk =>
    obtain ⟨-, -, hlt, -⟩ := (phaseOk_samples hp).1 hinv.phase
    exact absurd hlt hk

/-! ### The whole run -/

/-- Settles O22: with the exact domain the blob has a decode, and the run that computes it keeps within its bound. -/
theorem everyRunEnds : Obligations.EveryRunEnds := by
  intro blob s _ he
  obtain ⟨out, hout⟩ := decodeBlob_exact he blob
  obtain ⟨k, t, hk, hrun, hfin, -⟩ := run_computes_decode hout
  exact ⟨k, t, hk, hrun, hfin⟩

end Sys2Proof.Machine
end

section
/-! ## Decoder and encoder (R71 to R77, R80 to R83, R86) -/

namespace Sys2Proof.Machine

/-! ### Nibbles (R74, R77) -/

@[simp] theorem loNib_packNibs (lo hi : Nib) : loNib (packNibs lo hi) = lo := by
  unfold loNib packNibs
  exact BitVec.extractLsb'_append_eq_right

@[simp] theorem hiNib_packNibs (lo hi : Nib) : hiNib (packNibs lo hi) = hi := by
  unfold hiNib packNibs
  exact BitVec.extractLsb'_append_eq_left

@[simp] theorem packNibs_loNib_hiNib (b : Byte) : packNibs (loNib b) (hiNib b) = b := by
  unfold packNibs loNib hiNib
  rw [BitVec.extractLsb'_append_extractLsb'_eq_extractLsb' (by omega)]
  exact BitVec.extractLsb'_eq_self

theorem loNib_toNat (b : Byte) : (loNib b).toNat = b.toNat % 16 := by simp [loNib]

theorem hiNib_toNat (b : Byte) : (hiNib b).toNat = b.toNat / 16 := by
  have hb := b.isLt
  simp only [hiNib, BitVec.extractLsb'_toNat, Nat.shiftRight_eq_div_pow]
  omega

theorem residualAt_even (F : List Byte) (k : Nat) : residualAt F (2 * k) = loNib (F.getD (2 + k) 0#8) := by
  simp [residualAt]

theorem residualAt_odd (F : List Byte) (k : Nat) : residualAt F (2 * k + 1) = hiNib (F.getD (2 + k) 0#8) := by
  rw [residualAt, if_neg (by omega), show (2 * k + 1) / 2 = k by omega]

/-! ### The fields of a frame and its bytes (R72) -/

@[simp] theorem frameOfBytes_shift (F : List Byte) : (frameOfBytes F).shift = loNib (F.getD 0 0#8) := rfl

@[simp] theorem frameOfBytes_pnib (F : List Byte) : (frameOfBytes F).pnib = hiNib (F.getD 0 0#8) := rfl

@[simp] theorem frameOfBytes_flag (F : List Byte) : (frameOfBytes F).flag = F.getD 1 0#8 := rfl

@[simp] theorem frameOfBytes_res_getElem (F : List Byte) {i : Nat} (h : i < 28) :
    (frameOfBytes F).res[i] = residualAt F i := by simp [frameOfBytes]

@[simp] theorem bytesOfFrame_length (f : Frame) : (bytesOfFrame f).length = 16 := by simp [bytesOfFrame]

theorem bytesOfFrame_getD_residual (f : Frame) {k : Nat} (h : k < 14) :
    (bytesOfFrame f).getD (2 + k) 0#8 = packNibs f.res[2 * k] f.res[2 * k + 1] := by
  rw [Nat.add_comm 2 k, bytesOfFrame, List.getD_cons_succ, List.getD_cons_succ,
    List.getD_eq_getElem _ _ (by rwa [List.length_ofFn]), List.getElem_ofFn]

/-- A residual read back from the bytes of a frame (R77). -/
theorem residualAt_bytesOfFrame (f : Frame) {i : Nat} (h : i < 28) : residualAt (bytesOfFrame f) i = f.res[i] := by
  obtain ⟨k, rfl | rfl⟩ := Nat.even_or_odd' i
  · rw [residualAt_even, bytesOfFrame_getD_residual f (by omega), loNib_packNibs]
  · rw [residualAt_odd, bytesOfFrame_getD_residual f (by omega), hiNib_packNibs]

/-- The fields of a frame are read back from its bytes (R72). -/
@[simp] theorem frameOfBytes_bytesOfFrame (f : Frame) : frameOfBytes (bytesOfFrame f) = f := by
  have hres : (frameOfBytes (bytesOfFrame f)).res = f.res :=
    Vector.ext fun i h => (frameOfBytes_res_getElem _ h).trans (residualAt_bytesOfFrame f h)
  exact (Frame.mk.injEq ..).mpr ⟨loNib_packNibs f.shift f.pnib, hiNib_packNibs f.shift f.pnib, rfl, hres⟩

/-- Every bit of 16 frame bytes stands in a field (R72). -/
theorem bytesOfFrame_frameOfBytes {F : List Byte} (h : F.length = 16) : bytesOfFrame (frameOfBytes F) = F := by
  refine List.ext_getElem (by rw [bytesOfFrame_length, h]) fun i hi hi' => ?_
  rw [← List.getD_eq_getElem _ 0#8 hi, ← List.getD_eq_getElem _ 0#8 hi']
  match i with
  | 0 => exact packNibs_loNib_hiNib _
  | 1 => rfl
  | k + 2 =>
    rw [Nat.add_comm k 2, bytesOfFrame_getD_residual _ (by omega), frameOfBytes_res_getElem, frameOfBytes_res_getElem,
      residualAt_even, residualAt_odd, packNibs_loNib_hiNib]

/-- Settles O6: byte `2+k` holds the residuals `2k` and `2k+1`. -/
theorem residualsLowNibbleFirst : Obligations.ResidualsLowNibbleFirst := fun F k =>
  ⟨by rw [frameOfBytes_res_getElem, residualAt_even, loNib_toNat],
    by rw [frameOfBytes_res_getElem, residualAt_odd, hiNib_toNat]⟩

/-! ### Rows (R71, R80) -/

theorem isZeroRow_iff {row : List Byte} : isZeroRow row = true ↔ row = List.replicate row.length 0#8 := by
  simp [isZeroRow, List.eq_replicate_iff]

theorem isZeroRow_replicate (n : Nat) : isZeroRow (List.replicate n 0#8) = true :=
  isZeroRow_iff.2 (by rw [List.length_replicate])

theorem rowLengthOk_iff {n : Nat} : rowLengthOk n = true ↔ 1 ≤ n ∧ n ≤ 16 := by simp [rowLengthOk]

/-- A row carried by `DATA` has a byte that is not 0 (R80, R103). -/
theorem wellFormed_data_iff {row : List Byte} :
    (Instr.data row).wellFormed = true ↔ (1 ≤ row.length ∧ row.length ≤ 16) ∧ isZeroRow row = false := by
  simp [Instr.wellFormed, rowLengthOk_iff, isZeroRow]

/-- What a row of legal length decodes to is well-formed and encodes to it again (R80). -/
theorem decodeRow_ok {row : List Byte} (h : row.length ≤ 16) :
    ∃ i, decodeRow row = .ok i ∧ i.wellFormed = true ∧ encode i = .row row := by
  by_cases h0 : row.length = 0
  · cases List.length_eq_zero_iff.1 h0
    exact ⟨.flush, rfl, rfl, rfl⟩
  · have hpos : 1 ≤ row.length := Nat.one_le_iff_ne_zero.2 h0
    rcases decodeRow_cases row hpos h with ⟨hz, hd⟩ | ⟨hz, hd⟩
    · exact ⟨_, hd, rowLengthOk_iff.2 ⟨hpos, h⟩, congrArg Fetched.row (isZeroRow_iff.1 hz).symm⟩
    · exact ⟨_, hd, wellFormed_data_iff.2 ⟨⟨hpos, h⟩, hz⟩, rfl⟩

/-- A row that decodes has a legal length (R71). -/
theorem length_le_of_decodeRow {row : List Byte} {i : Instr} (h : decodeRow row = .ok i) : row.length ≤ 16 := by
  by_contra hlong
  have h0 : row.length ≠ 0 := by omega
  rw [decodeRow, if_neg h0, if_pos (not_le.1 hlong)] at h
  cases h

/-! ### The rest of a clip (R76, R81) -/

theorem getD_take_of_lt (l : List Byte) {i n : Nat} (h : i < n) : (l.take n).getD i 0#8 = l.getD i 0#8 := by
  simp [List.getD_eq_getElem?_getD, List.getElem?_take_of_lt h]

theorem decodeFrame_tail {rest : List Byte} (h : rest.length < 16) : decodeFrame rest = .tail := if_pos h

/-- A sentinel frame, whatever its residual bytes (R76, R87). -/
theorem decodeFrame_end {rest : List Byte} (h : 16 ≤ rest.length) (hf : rest.getD 1 0#8 = 7#8) :
    decodeFrame rest = .endClip (loNib (rest.getD 0 0#8)) (hiNib (rest.getD 0 0#8)) := by
  rcases decodeFrame_cases rest with ⟨hl, _⟩ | ⟨_, _, hd⟩ | ⟨_, hno, _⟩
  · omega
  · rw [hd, frameOfBytes_shift, frameOfBytes_pnib, getD_take_of_lt rest (by omega)]
  · rw [frameOfBytes_flag, getD_take_of_lt rest (by omega)] at hno
    exact absurd hf hno

theorem decodeFrame_dec {rest : List Byte} (h : 16 ≤ rest.length) (hf : rest.getD 1 0#8 ≠ 7#8) :
    decodeFrame rest = .dec (frameOfBytes (rest.take 16)) := by
  rcases decodeFrame_cases rest with ⟨hl, _⟩ | ⟨_, hflag, _⟩ | ⟨_, _, hd⟩
  · omega
  · rw [frameOfBytes_flag, getD_take_of_lt rest (by omega)] at hflag
    exact absurd hflag hf
  · exact hd

/-- Exactly a frame's bytes. -/
theorem decodeFrame_of_length_eq {F : List Byte} (h : F.length = 16) (hf : F.getD 1 0#8 ≠ 7#8) :
    decodeFrame F = .dec (frameOfBytes F) := by
  rw [decodeFrame_dec h.ge hf, List.take_of_length_le h.le]

theorem decodeFrame_wellFormed (rest : List Byte) : (decodeFrame rest).wellFormed = true := by
  rcases decodeFrame_cases rest with ⟨_, hd⟩ | ⟨_, _, hd⟩ | ⟨_, hf, hd⟩
  · rw [hd]
    rfl
  · rw [hd]
    rfl
  · rw [hd]
    exact bne_iff_ne.2 hf

/-! ### The round trips and the classes (R81, R83, R85, R86) -/

/-- Settles O2: a row of zero bytes, a row that is not, the fixed bytes of `END`, and the fields of a frame. -/
theorem decodeOfEncodeIsIdentity : Obligations.DecodeOfEncodeIsIdentity := by
  intro i hwf
  cases i with
  | delim n =>
    obtain ⟨hpos, hle⟩ := rowLengthOk_iff.1 hwf
    have hlen : (List.replicate n 0#8).length = n := List.length_replicate
    rcases decodeRow_cases (List.replicate n 0#8) (hpos.trans_eq hlen.symm) (hlen.trans_le hle) with ⟨_, hd⟩ | ⟨hz, _⟩
    · rwa [hlen] at hd
    · exact absurd (isZeroRow_replicate n) (by simp [hz])
  | data row =>
    obtain ⟨⟨hpos, hle⟩, hno⟩ := wellFormed_data_iff.1 hwf
    rcases decodeRow_cases row hpos hle with ⟨hz, _⟩ | ⟨_, hd⟩
    · exact absurd hz (by simp [hno])
    · exact hd
  | flush => rfl
  | clipstart c => rfl
  | tail => rfl
  | endClip shift pnib =>
    simp [encode, decode, decodeFrame_end]
  | dec f =>
    have hflag : (bytesOfFrame f).getD 1 0#8 ≠ 7#8 := bne_iff_ne.1 hwf
    rw [encode, decode, decodeFrame_of_length_eq (bytesOfFrame_length f) hflag, frameOfBytes_bytesOfFrame]
  | smp n => rfl

/-- Settles O3: a row is the encoding of its operation, and a `DEC` frame the bytes of its fields. -/
theorem encodeOfDecodeIsIdentity : Obligations.EncodeOfDecodeIsIdentity := by
  refine ⟨fun row i h => ?_, fun F hlen hf => ?_, fun n i h => ?_, fun c i h => ?_⟩
  · obtain ⟨j, hj, -, henc⟩ := decodeRow_ok (length_le_of_decodeRow h)
    cases hj.symm.trans h
    exact henc
  · exact ⟨_, congrArg Except.ok (decodeFrame_of_length_eq hlen hf), congrArg Fetched.frame (bytesOfFrame_frameOfBytes hlen)⟩
  · cases h
    rfl
  · cases h
    rfl

/-- Settles O4: a row has a class at every length, and the rest of a clip whatever it holds. -/
theorem everyUnitDecodesWellFormed : Obligations.EveryUnitDecodesWellFormed := by
  refine ⟨fun row h => ?_, fun rest => ⟨_, rfl, decodeFrame_wellFormed rest⟩, fun _ => rfl, fun _ => rfl⟩
  obtain ⟨i, hd, hwf, -⟩ := decodeRow_ok h
  exact ⟨i, hd, hwf⟩

/-- Settles O5: header and flag are the first two bytes of what stands at the cursor. -/
theorem frameClassByLengthThenFlag : Obligations.FrameClassByLengthThenFlag := by
  refine fun rest => ⟨fun h => congrArg Except.ok (decodeFrame_tail h), fun h hf => ?_, fun h hf => ?_⟩
  · exact ⟨_, _, congrArg Except.ok (decodeFrame_end h hf), loNib_toNat _, hiNib_toNat _⟩
  · refine ⟨_, congrArg Except.ok (decodeFrame_dec h hf), getD_take_of_lt rest (by omega), ?_, ?_⟩
    · rw [frameOfBytes_shift, getD_take_of_lt rest (by omega), loNib_toNat]
    · rw [frameOfBytes_pnib, getD_take_of_lt rest (by omega), hiNib_toNat]

/-- Settles O1: the decoder run on each word. -/
theorem specWordsDecode : Obligations.SpecWordsDecode := ⟨rfl, rfl, rfl, rfl, rfl, rfl, rfl, rfl⟩

end Sys2Proof.Machine
end

section
/-! ## The predictor clamp and the outcomes of a step (R75, R86, R87, R200, R208) -/

namespace Sys2Proof.Machine

/-! ### The predictor nibble (R75) -/

theorem clampPred_of_four_le {pnib : Nib} (h : 4 ≤ pnib.toNat) : clampPred pnib = 4 := Fin.ext (Nat.min_eq_right h)

/-- The predictor nibble reaches `PRED` alone, after the clamp (R75, R123). -/
theorem latchFrame_pnib_congr {a b : Nib} (h : clampPred a = clampPred b) (f : Frame) (s : State) :
    latchFrame { f with pnib := a } s = latchFrame { f with pnib := b } s := by
  simp only [latchFrame, latchHeader, h]

/-- Settles O42: the nibbles from 4 on latch the same predictor. -/
theorem predictorNibbleClamps : Obligations.PredictorNibbleClamps := by
  refine ⟨fun _ => rfl, fun f s a b ha hb => ?_⟩
  rw [exec_dec, exec_dec, latchFrame_pnib_congr ((clampPred_of_four_le ha).trans (clampPred_of_four_le hb).symm)]

/-! ### No step is refused (R86, R200) -/

/-- The row loop is the one position that presents a row, of 16 bytes at most (R71, R101). -/
theorem length_le_of_fetch_row {s : State} {row : List Byte} (h : fetch s = .item (.row row)) : row.length ≤ 16 := by
  cases hp : s.phase with
  | scan =>
    rw [fetch, hp] at h
    by_cases hr : s.rpos < s.len
    · cases (fetchRow_lt s hr).symm.trans h
      exact (row_length s hr).1.trans_le (rowLength_le s)
    · cases (fetchRow_ge s hr).symm.trans h
      exact Nat.zero_le _
  | start i => simp [fetch, hp] at h
  | frames =>
    simp only [fetch, hp, fetchFrame] at h
    split at h
    · cases h
    · split at h <;> cases h
  | samples =>
    simp only [fetch, hp, fetchResidual] at h
    split at h <;> cases h
  | finished => simp [fetch, hp] at h

/-- What a position presents has a decoding (R86). -/
theorem exists_decode_of_fetch {s : State} {u : Fetched} (h : fetch s = .item u) : ∃ i, decode u = .ok i := by
  cases u with
  | row row =>
    obtain ⟨i, hd, -⟩ := decodeRow_ok (length_le_of_fetch_row h)
    exact ⟨i, hd⟩
  | clip c => exact ⟨_, rfl⟩
  | frame rest => exact ⟨_, rfl⟩
  | residual n => exact ⟨_, rfl⟩

/-- The operation is run, or is a `DEC` frame taken sample by sample and unpacked (D28). -/
theorem issue_cases (i : Instr) (s : State) :
    issue i s = exec i s ∨ ∃ f, i = .dec f ∧ issue i s = .next (openFrame f s) := by
  by_cases hi : ∃ f, i = .dec f
  · obtain ⟨f, rfl⟩ := hi
    cases hg : s.cfg.grain with
    | perFrame => exact .inl (issue_eq_exec (.inl hg))
    | perSample => exact .inr ⟨f, rfl, issue_dec_perSample hg⟩
  · exact .inl (issue_eq_exec (.inr (not_exists.1 hi)))

theorem issue_ne_refused (i : Instr) (s : State) (r : Refusal) : issue i s ≠ .refused r := by
  rcases issue_cases i s with h | ⟨f, -, h⟩ <;> rw [h]
  · exact exec_ne_refused i s r
  · exact nofun

theorem andThen_next_ne_refused {o : Result} {r : Refusal} (h : o ≠ .refused r) (g : State → State) :
    (andThen o fun t => .next (g t)) ≠ .refused r := by
  cases o with
  | next t => exact nofun
  | fault q => exact nofun
  | refused q => exact h

theorem step_ne_refused (s : State) (r : Refusal) : step s ≠ .refused r := by
  cases hf : fetch s with
  | item u =>
    obtain ⟨i, hd⟩ := exists_decode_of_fetch hf
    rw [step_of_fetch hf hd]
    exact andThen_next_ne_refused (issue_ne_refused i s r) _
  | move done p => simp [step, hf, act]
  | idle => simp [step, hf, act]
  | broken q => simp [step, hf, act]

/-! ### The one stop of a run (R205, R208) -/

/-- A next state, or with binary64 the numeric fault (R208). -/
def CompletesOrNumericFault (d : NumDomain) (o : Result) : Prop :=
  (∃ t, o = .next t) ∨ (d = .binary64 ∧ o = .fault .nonFiniteHistory)

theorem completesOrNumericFault_next (d : NumDomain) (t : State) : CompletesOrNumericFault d (.next t) := .inl ⟨t, rfl⟩

theorem CompletesOrNumericFault.andThen_next {d : NumDomain} {o : Result} (h : CompletesOrNumericFault d o)
    (g : State → State) : CompletesOrNumericFault d (andThen o fun t => .next (g t)) := by
  rcases h with ⟨t, rfl⟩ | ⟨hd, rfl⟩
  · exact completesOrNumericFault_next d (g t)
  · exact .inr ⟨hd, rfl⟩

/-- On an open stream nothing but the numeric fault stops the samples (R126, R208). -/
theorem sampleAll_completesOrNumericFault {s : State} {p : List Sample} (hp : s.pcm[s.cidx]? = some p) (ns : List Nib) :
    CompletesOrNumericFault s.cfg.num (sampleAll ns s) := by
  rw [sampleAll_eq ns s p hp]
  cases hr : samplesOf s.cfg s.shift s.pred ns (s.hist1, s.hist2) with
  | some r => exact completesOrNumericFault_next _ _
  | none =>
    cases hd : s.cfg.num with
    | binary64 => exact .inr ⟨rfl, rfl⟩
    | exact =>
      obtain ⟨r, hr'⟩ := samplesOf_exact hd ns (s.hist1, s.hist2)
      cases hr.symm.trans hr'

theorem sample_completesOrNumericFault {s : State} {p : List Sample} (hp : s.pcm[s.cidx]? = some p) (n : Nib) :
    CompletesOrNumericFault s.cfg.num (sample n s) := by
  rw [← andThen_id (sample n s)]
  exact sampleAll_completesOrNumericFault hp [n]

theorem exec_completesOrNumericFault {s : State} {p : List Sample} (hp : s.pcm[s.cidx]? = some p) (i : Instr) :
    CompletesOrNumericFault s.cfg.num (exec i s) := by
  cases i with
  | dec f =>
    have hp' : (latchFrame f s).pcm[(latchFrame f s).cidx]? = some p := hp
    rw [exec_dec]
    exact (sampleAll_completesOrNumericFault hp' f.res.toList).andThen_next advanceFrame
  | smp n => exact sample_completesOrNumericFault hp n
  | _ => exact completesOrNumericFault_next _ _

theorem issue_completesOrNumericFault {s : State} {p : List Sample} (hp : s.pcm[s.cidx]? = some p) (i : Instr) :
    CompletesOrNumericFault s.cfg.num (issue i s) := by
  rcases issue_cases i s with h | ⟨f, -, h⟩ <;> rw [h]
  · exact exec_completesOrNumericFault hp i
  · exact completesOrNumericFault_next _ _

/-- In a run the clip and the stream a step needs are there. -/
theorem step_completesOrNumericFault {s : State} (h : RunInv s) : CompletesOrNumericFault s.cfg.num (step s) := by
  cases hp : s.phase with
  | scan =>
    by_cases hr : s.rpos < s.len
    · rw [step_scan hp hr]
      split <;> exact completesOrNumericFault_next _ _
    · rw [step_flush hp hr]
      exact completesOrNumericFault_next _ _
  | start i =>
    rw [step_start hp]
    exact completesOrNumericFault_next _ _
  | frames =>
    obtain ⟨-, -, hh, c, p, hc, hpcm, -⟩ := (phaseOk_frames hp).1 h.phase
    rw [step_frame hp hh hc rfl]
    exact (issue_completesOrNumericFault hpcm _).andThen_next _
  | samples =>
    obtain ⟨-, ⟨-, -, c, p, -, hpcm, -⟩, hk, -⟩ := (phaseOk_samples hp).1 h.phase
    rw [step_smp hp hk]
    exact (sample_completesOrNumericFault hpcm _).andThen_next _
  | finished =>
    rw [step_over hp]
    exact completesOrNumericFault_next _ _

/-- Settles O13: every unit fetched decodes and no operation is refused, and in a run samples are the only part of a step
that can stop. -/
theorem stepTotalButForNumericFault : Obligations.StepTotalButForNumericFault := by
  refine fun s => ⟨step_ne_refused s, fun h he => ?_, fun h _ => ?_⟩
  · rcases step_completesOrNumericFault h with ht | ⟨hb, -⟩
    · exact ht
    · cases he.symm.trans hb
  · exact (step_completesOrNumericFault h).imp_right And.right

end Sys2Proof.Machine
end

section
/-! ## The placing of a unit (R73, R83, log entry 9) -/

namespace Sys2Proof.Machine

/-! ### Rows -/

theorem placeRow_len (bytes : List Byte) (s : State) :
    (placeRow bytes s).len =
      if bytes.length = 16 then max s.len (s.rpos + bytes.length) else s.rpos + bytes.length := rfl

theorem le_placeRow_len (bytes : List Byte) (s : State) : s.rpos + bytes.length ≤ (placeRow bytes s).len := by
  rw [placeRow_len]
  split <;> omega

/-- A row placed is read back (R52). -/
theorem memRead_placeRow {bytes : List Byte} {s : State} (hwf : s.bd.wf = true) {k : Nat} (hk : k < bytes.length) :
    memRead (placeRow bytes s) (s.rpos + k) = bytes[k]? := by
  have hlt : s.rpos + k < (placeRow bytes s).len := by
    have hle := le_placeRow_len bytes s
    omega
  have hread : (placeRow bytes s).bd.read (s.rpos + k) = (s.bd.writeBytes s.rpos bytes).read (s.rpos + k) :=
    Mem.read_filter_lt _ _ _ hlt
  rw [memRead, if_pos hlt, hread, Mem.read_writeBytes bytes s.bd s.rpos _ hwf, if_pos (by omega)]
  simp [hk]

theorem blobRange_placeRow {bytes : List Byte} {s : State} (hwf : s.bd.wf = true) :
    blobRange (placeRow bytes s) s.rpos bytes.length = bytes := by
  refine List.ext_getElem? fun k => ?_
  by_cases hk : k < bytes.length
  · rw [blobRange, List.getElem?_take_of_lt hk, List.getElem?_drop, blobOf_getElem?, memRead_placeRow hwf hk]
  · rw [List.getElem?_eq_none (not_lt.1 hk), List.getElem?_eq_none]
    rw [blobRange_length]
    omega

/-- A row placed is the next unit (R71, R101). -/
theorem fetch_placeRow {bytes : List Byte} {s : State} (hwf : s.bd.wf = true) (hle : bytes.length ≤ 16) :
    fetch (placeRow bytes s) = .item (.row bytes) := by
  have hfetch : fetch (placeRow bytes s) = fetchRow (placeRow bytes s) := rfl
  have hrpos : (placeRow bytes s).rpos = s.rpos := rfl
  have hlen := placeRow_len bytes s
  rw [hfetch]
  by_cases h0 : bytes.length = 0
  · cases List.length_eq_zero_iff.1 h0
    exact fetchRow_ge _ (Nat.lt_irrefl _)
  · have hrow : rowLength (placeRow bytes s) = bytes.length := by
      rw [rowLength, hrpos, hlen, Size.rowBytes]
      split <;> omega
    have hlt : (placeRow bytes s).rpos < (placeRow bytes s).len := by
      have hend := le_placeRow_len bytes s
      omega
    rw [fetchRow_lt _ hlt, hrow, hrpos, blobRange_placeRow hwf]

/-! ### Frames and residuals -/

theorem putEntry_getElem?_self (l : List (List α)) (i : Nat) (v : List α) : (putEntry l i v)[i]? = some v := by
  rw [putEntry, List.getElem?_set_self]
  rw [List.length_append, List.length_replicate]
  omega

/-- The bytes laid over a list stand at their offset, and the list's own follow. -/
theorem drop_overlay (old bytes : List Byte) (n : Nat) :
    (overlay old n bytes).drop n = bytes ++ old.drop (n + bytes.length) := by
  have hlen : ((old ++ List.replicate (n - old.length) 0#8).take n).length = n := by
    simp
    omega
  rw [overlay, List.append_assoc, List.drop_append_of_le_length hlen.ge, List.drop_of_length_le hlen.le, List.nil_append]

/-- A frame placed stands at the frame cursor, before the rest of the clip (R122). -/
theorem fetch_placeFrame (bytes : List Byte) (s : State) :
    fetch (placeFrame bytes s) =
      .item (.frame (bytes ++ (s.clips.getD s.cidx []).drop (s.fpos + bytes.length))) := by
  rw [fetch_frame rfl rfl (putEntry_getElem?_self _ _ _)]
  exact congrArg (fun rest => Presented.item (.frame rest)) (drop_overlay _ _ _)

/-- A residual placed is the next unit (R126). -/
theorem fetch_placeResidual (n : Nib) (s : State) : fetch (placeResidual n s) = .item (.residual n) := by
  have hk : (placeResidual n s).k < 28 := by
    simp only [placeResidual]
    split <;> omega
  rw [fetch_residual rfl hk]
  simp [placeResidual]

/-! ### Table words (R73) -/

/-- After reset a unit that decodes is fetched where it is placed. -/
theorem fetch_place_reset {u : Fetched} {i : Instr} (h : decode u = .ok i) : fetch (place u State.reset) = .item u := by
  cases u with
  | row row => exact fetch_placeRow rfl (length_le_of_decodeRow h)
  | clip c => rfl
  | frame rest => exact (fetch_placeFrame rest State.reset).trans (by simp [State.reset])
  | residual n => exact fetch_placeResidual n State.reset

theorem decodeTableWord_eq_some {nbits w : Nat} {i : Instr} (h : decodeTableWord nbits w = some i) :
    ∃ u, fetchedOfWord nbits w = some u ∧ decode u = .ok i := by
  unfold decodeTableWord at h
  split at h
  · cases h
  · rename_i u hu
    split at h
    · cases h
      exact ⟨u, hu, ‹_›⟩
    · cases h

theorem withFetchWord_of_some {nbits w : Nat} {u : Fetched} (h : fetchedOfWord nbits w = some u) (s : State) :
    s.withFetchWord nbits w = place u s := by
  simp [State.withFetchWord, h]

/-- Settles O7: the unit of a table word that decodes is the one placed, and the one placed is fetched. -/
theorem fetchWordIsTheNextUnit : Obligations.FetchWordIsTheNextUnit := by
  intro nbits w i h
  obtain ⟨u, hu, hd⟩ := decodeTableWord_eq_some h
  exact ⟨u, by rw [withFetchWord_of_some hu, fetch_place_reset hd], hd⟩

end Sys2Proof.Machine
end

section
/-! ## CDX's operations, and what the scan makes of a blob (R101 to R106, R111) -/

namespace Sys2Proof.Machine

/-! ### The three operations (R102 to R104) -/

/-- A non-empty accumulator is emitted, and it is empty after that (R102, R104). -/
theorem closeAcc_eq (s : State) :
    closeAcc s = { s with clips := if s.acc = [] then s.clips else s.clips ++ [s.acc], acc := [], accNe := false } := by
  simp only [closeAcc, List.length_eq_zero_iff]

/-- Settles O29: `DELIM` closes the accumulator, then moves past the row. -/
theorem delimClosesTheAccumulator : Obligations.DelimClosesTheAccumulator := fun n s => by
  rw [exec_delim, closeAcc_eq, advanceRow]

/-- Settles O30: `DATA` appends the row, then moves past it. -/
theorem dataAppendsTheRow : Obligations.DataAppendsTheRow := exec_data

/-- Settles O31: `FLUSH` closes the accumulator and does no more. -/
theorem flushEmitsTheLastClip : Obligations.FlushEmitsTheLastClip := fun s => by
  rw [exec_flush, closeAcc_eq]

/-! ### The scan of a whole blob (R101, R106) -/

/-- Settles O24: the rows left from any position are scanned to their runs, here from position 0 of the blob. -/
theorem scanComputesSplit : Obligations.ScanComputesSplit := fun blob s =>
  ⟨_, runSteps_scan_runStart blob s, scanned_runStart_clips blob s, rfl, rfl, rfl⟩

/-! ### Rows of a blob (R70, R71) -/

@[simp] theorem flatten_rowsOf (blob : List Byte) : (rowsOf blob).flatten = blob := by
  by_cases hb : blob = []
  · simp [hb]
  · rw [rowsOf_eq_cons blob hb, List.flatten_cons, flatten_rowsOf (blob.drop 16), List.take_append_drop]
termination_by blob.length
decreasing_by
  have hpos := List.length_pos_iff.2 hb
  rw [List.length_drop]
  omega

/-- After whole rows the rows of what follows begin afresh. -/
theorem rowsOf_append {whole : List Byte} (h : whole.length % 16 = 0) (rest : List Byte) :
    rowsOf (whole ++ rest) = rowsOf whole ++ rowsOf rest := by
  by_cases hw : whole = []
  · simp [hw]
  · have hpos := List.length_pos_iff.2 hw
    have hle : 16 ≤ whole.length := by omega
    have hdrop : (whole.drop 16).length % 16 = 0 := by
      rw [List.length_drop]
      omega
    rw [rowsOf_eq_cons _ (List.append_ne_nil_of_left_ne_nil hw rest), rowsOf_eq_cons whole hw,
      List.take_append_of_le_length hle, List.drop_append_of_le_length hle, rowsOf_append hdrop, List.cons_append]
termination_by whole.length
decreasing_by
  rw [List.length_drop]
  omega

theorem rowsOf_ne_nil {blob : List Byte} (h : blob ≠ []) : rowsOf blob ≠ [] := by simp [rowsOf_eq_cons blob h]

/-- A row that is not all zero, as the claims write it (R80). -/
theorem isZeroRow_eq_false_iff {row : List Byte} : isZeroRow row = false ↔ ∃ b ∈ row, b ≠ 0#8 := by
  simp [isZeroRow]

/-- Every row of zero bytes is a zero row. -/
theorem isZeroRow_of_mem_rowsOf {blob : List Byte} (h : ∀ b ∈ blob, b = 0#8) :
    ∀ row ∈ rowsOf blob, isZeroRow row = true := by
  intro row hrow
  have hsub : ∀ b ∈ row, b ∈ blob := fun b hb => flatten_rowsOf blob ▸ List.mem_flatten_of_mem hrow hb
  simpa [isZeroRow] using fun b hb => h b (hsub b hb)

/-! ### Stretches of rows of one kind (R102, R103) -/

/-- Rows that are not all zero all go on the accumulator. -/
theorem scanClips_append_of_nonzero (rest : List (List Byte)) : ∀ {rows : List (List Byte)} (acc : List Byte),
    (∀ row ∈ rows, isZeroRow row = false) → scanClips acc (rows ++ rest) = scanClips (acc ++ rows.flatten) rest
  | [], acc, _ => by simp
  | row :: rows, acc, h => by
    obtain ⟨hrow, hrows⟩ := List.forall_mem_cons.1 h
    rw [List.cons_append, scanClips, hrow, if_neg Bool.false_ne_true, scanClips_append_of_nonzero rest _ hrows]
    simp

/-- Zero rows meeting an empty accumulator are ignored. -/
theorem scanClips_nil_append_of_zero (rest : List (List Byte)) : ∀ {rows : List (List Byte)},
    (∀ row ∈ rows, isZeroRow row = true) → scanClips [] (rows ++ rest) = scanClips [] rest
  | [], _ => rfl
  | row :: rows, h => by
    obtain ⟨hrow, hrows⟩ := List.forall_mem_cons.1 h
    rw [List.cons_append, scanClips, if_pos hrow, emitted_nil, List.nil_append, scanClips_nil_append_of_zero rest hrows]

/-- One zero row or more close the accumulator once. -/
theorem scanClips_append_of_zero (acc : List Byte) {rows : List (List Byte)} (rest : List (List Byte))
    (hne : rows ≠ []) (h : ∀ row ∈ rows, isZeroRow row = true) :
    scanClips acc (rows ++ rest) = emitted acc ++ scanClips [] rest := by
  obtain ⟨row, rows, rfl⟩ := List.exists_cons_of_ne_nil hne
  obtain ⟨hrow, hrows⟩ := List.forall_mem_cons.1 h
  rw [List.cons_append, scanClips, if_pos hrow, scanClips_nil_append_of_zero rest hrows]

/-! ### `Split` of blobs of one kind, and of clips set apart (R105, R111) -/

theorem emitted_of_ne_nil {acc : List Byte} (h : acc ≠ []) : emitted acc = [acc] := by simp [emitted, h]

/-- A blob of zero bytes has no clip (R105). -/
theorem split_of_zero {blob : List Byte} (h : ∀ b ∈ blob, b = 0#8) : split blob = [] := by
  rw [← scanClips_rowsOf, ← List.append_nil (rowsOf blob), scanClips_nil_append_of_zero [] (isZeroRow_of_mem_rowsOf h),
    scanClips, emitted_nil]

/-- A blob without a zero row is one clip (R105). -/
theorem split_of_nonzero {blob : List Byte} (hne : blob ≠ []) (h : ∀ row ∈ rowsOf blob, isZeroRow row = false) :
    split blob = [blob] := by
  rw [← scanClips_rowsOf, ← List.append_nil (rowsOf blob), scanClips_append_of_nonzero [] [] h, flatten_rowsOf,
    List.nil_append, scanClips, emitted_of_ne_nil hne]

/-- A clip of whole rows that are not zero, as an encoder lays it down (R111). -/
def WholeClip (c : List Byte) : Prop := c ≠ [] ∧ c.length % 16 = 0 ∧ ∀ row ∈ rowsOf c, isZeroRow row = false

/-- A clip followed by zero rows, one or more, is cut off in front (R111). -/
theorem split_append_zeros {c zeros : List Byte} (hc : WholeClip c) (hne : zeros ≠ []) (hlen : zeros.length % 16 = 0)
    (hzero : ∀ b ∈ zeros, b = 0#8) (rest : List Byte) : split (c ++ (zeros ++ rest)) = c :: split rest := by
  obtain ⟨hcne, hclen, hrows⟩ := hc
  rw [← scanClips_rowsOf, rowsOf_append hclen, rowsOf_append hlen, scanClips_append_of_nonzero _ [] hrows,
    scanClips_append_of_zero _ _ (rowsOf_ne_nil hne) (isZeroRow_of_mem_rowsOf hzero), scanClips_rowsOf, flatten_rowsOf,
    List.nil_append, emitted_of_ne_nil hcne, List.singleton_append]

/-- Clips set apart by zero rows are split off one after the other (R111). -/
theorem split_intersperse {zeros : List Byte} (hne : zeros ≠ []) (hlen : zeros.length % 16 = 0)
    (hzero : ∀ b ∈ zeros, b = 0#8) : ∀ {clips : List (List Byte)}, (∀ c ∈ clips, WholeClip c) →
    split (clips.intersperse zeros).flatten = clips
  | [], _ => rfl
  | [c], h => by
    obtain ⟨hcne, -, hrows⟩ := h c (List.mem_singleton_self c)
    simpa using split_of_nonzero hcne hrows
  | c :: d :: clips, h => by
    obtain ⟨hc, hrest⟩ := List.forall_mem_cons.1 h
    rw [List.intersperse_cons_cons, List.flatten_cons, List.flatten_cons, split_append_zeros hc hne hlen hzero,
      split_intersperse hne hlen hzero hrest]

/-- Settles O25: the machine's scan is `Split`. Zero rows emit nothing from an empty accumulator, and without a zero row the
whole blob is accumulated and then flushed. -/
theorem splitEdgeCases : Obligations.SplitEdgeCases := by
  refine fun blob s => ⟨_, runSteps_scan_runStart blob s, ?_⟩
  rw [scanned_runStart_clips]
  exact ⟨split_of_zero, fun hne h => split_of_nonzero hne fun row hrow => isZeroRow_eq_false_iff.2 (h row hrow)⟩

/-- Settles O26: the scan is `Split`, and the gap after a clip closes the accumulator once, whatever the number of its rows. -/
theorem splitReproducesClips : Obligations.SplitReproducesClips := by
  intro clips extra s hclips blob
  refine ⟨_, runSteps_scan_runStart blob s, ?_⟩
  have hwhole : ∀ c ∈ clips, WholeClip c := fun c hc => by
    obtain ⟨hne, hlen, hrows⟩ := hclips c hc
    exact ⟨hne, hlen, fun row hrow => isZeroRow_eq_false_iff.2 (hrows row hrow)⟩
  rw [scanned_runStart_clips]
  exact split_intersperse (by simp) (by simp) (fun b hb => List.eq_of_mem_replicate hb) hwhole

end Sys2Proof.Machine
end

section
/-! ## AFD's operations on a whole frame (R122 to R132, R154) -/

namespace Sys2Proof.Machine

/-! ### A frame taken sample by sample (R126, D28) -/

/-- The frame loop presents the rest of the clip being decoded, unless `HALT` ended it (R122). -/
theorem fetch_frames_eq_item {s : State} {u : Fetched} (hp : s.phase = .frames) (h : fetch s = .item u) :
    s.halt = false ∧ ∃ c, s.clips[s.cidx]? = some c ∧ u = .frame (c.drop s.fpos) := by
  cases hh : s.halt with
  | true => simp [fetch, hp, fetchFrame, hh] at h
  | false =>
    cases hc : s.clips[s.cidx]? with
    | none => simp [fetch, hp, fetchFrame, hh, hc] at h
    | some c =>
      cases (fetch_frame hp hh hc).symm.trans h
      exact ⟨rfl, c, rfl, rfl⟩

/-- Settles O23: the unpack step opens the frame, and the samples left run down by induction, a fault among them stopping
both alike (`runSteps_samples`). -/
theorem sampleStepsRefineDec : Obligations.SampleStepsRefineDec := by
  intro s u f hp hg hf hd
  obtain ⟨hh, c, hc, rfl⟩ := fetch_frames_eq_item hp hf
  exact runSteps_dec_perSample hp hg hh hc (Except.ok.inj hd)

/-! ### The end of a clip (R123, R124, R127, R132) -/

/-- Settles O35: `TAIL` is the identity. -/
theorem tailWritesNothing : Obligations.TailWritesNothing := exec_tail

/-- Settles O36: the latches of the header and the flag, then `HALT`. -/
theorem endSetsHalt : Obligations.EndSetsHalt := exec_endClip

/-- Settles O20: the length test comes first, whatever the bytes are. -/
theorem tailEndsTheClip : Obligations.TailEndsTheClip := by
  intro s c hp hh hc hl
  rw [← List.length_drop] at hl
  rw [step_frame hp hh hc (decodeFrame_tail hl), issue_eq_exec (.inr (by simp)), exec_tail]
  rfl

/-- Settles O19: the frame is an `END`, whose latches and `HALT` are all it writes, and the position moves on at once. -/
theorem sentinelFrameEndsTheClip : Obligations.SentinelFrameEndsTheClip := by
  intro s c hp hh hc hl hf
  rw [step_frame hp hh hc (decodeFrame_end hl hf), issue_eq_exec (.inr (by simp)), exec_endClip]
  exact ⟨_, rfl, rfl, rfl, rfl, ⟨rfl, rfl⟩, rfl, rfl, rfl⟩

/-! ### The length of a stream (R129) -/

theorem framesBeforeEnd_of_dec {bytes : List Byte} {f : Frame} (h : decodeFrame bytes = .dec f) (fuel : Nat) :
    framesBeforeEnd (fuel + 1) bytes = framesBeforeEnd fuel (bytes.drop 16) + 1 := by
  rw [framesBeforeEnd, h]

theorem framesBeforeEnd_of_not_dec {bytes : List Byte} (h : ∀ f, decodeFrame bytes ≠ .dec f) (fuel : Nat) :
    framesBeforeEnd fuel bytes = 0 := by
  cases fuel with
  | zero => rfl
  | succ fuel =>
    rw [framesBeforeEnd]
    split
    · exact absurd ‹_› (h _)
    · rfl

theorem framesBeforeEnd_le : ∀ (fuel : Nat) (bytes : List Byte), framesBeforeEnd fuel bytes ≤ fuel
  | 0, _ => le_rfl
  | fuel + 1, bytes => by
    by_cases hd : ∃ f, decodeFrame bytes = .dec f
    · obtain ⟨f, hf⟩ := hd
      rw [framesBeforeEnd_of_dec hf]
      exact Nat.succ_le_succ (framesBeforeEnd_le fuel _)
    · rw [framesBeforeEnd_of_not_dec (not_exists.1 hd)]
      exact Nat.zero_le _

/-- Each frame before the end gives 28 samples (R126). -/
theorem framesOf_length {cfg : Config} : ∀ (fuel : Nat) {bytes : List Byte} {hist : NumVal × NumVal}
    {out : List Sample}, framesOf cfg fuel bytes hist = some out → out.length = 28 * framesBeforeEnd fuel bytes
  | 0, _, _, _, h => by
    cases h
    rfl
  | fuel + 1, bytes, hist, out, h => by
    by_cases hd : ∃ f, decodeFrame bytes = .dec f
    · obtain ⟨f, hf⟩ := hd
      rw [framesOf_of_dec hf] at h
      obtain ⟨r, hr, hmap⟩ := Option.bind_eq_some_iff.1 h
      obtain ⟨rest, hrest, rfl⟩ := Option.map_eq_some_iff.1 hmap
      have hr28 : r.2.length = 28 := by simpa using samplesOf_length hr
      rw [List.length_append, hr28, framesOf_length fuel hrest, framesBeforeEnd_of_dec hf]
      omega
    · rw [framesOf_of_not_dec (not_exists.1 hd)] at h
      cases h
      rw [framesBeforeEnd_of_not_dec (not_exists.1 hd)]
      rfl

/-- The flag byte of frame `j` after the first frame is that of frame `j + 1`. -/
theorem getD_flag_drop_frame (bytes : List Byte) (j : Nat) :
    (bytes.drop 16).getD (16 * j + 1) 0#8 = bytes.getD (16 * (j + 1) + 1) 0#8 := by
  rw [List.getD_eq_getElem?_getD, List.getElem?_drop, ← List.getD_eq_getElem?_getD,
    show 16 + (16 * j + 1) = 16 * (j + 1) + 1 by omega]

/-- The frames before the end are those before the first with flag byte 7, or all of them (R129). -/
theorem framesBeforeEnd_eq : ∀ {fuel e : Nat} {bytes : List Byte}, 16 * fuel ≤ bytes.length → e ≤ fuel →
    (∀ j, j < e → bytes.getD (16 * j + 1) 0#8 ≠ 7#8) → (e < fuel → bytes.getD (16 * e + 1) 0#8 = 7#8) →
    framesBeforeEnd fuel bytes = e
  | 0, 0, _, _, _, _, _ => rfl
  | fuel + 1, 0, bytes, hlen, _, _, hend => by
    have hd := decodeFrame_end (by omega) (hend (Nat.succ_pos fuel))
    exact framesBeforeEnd_of_not_dec (fun f hf => by cases hd.symm.trans hf) _
  | fuel + 1, e + 1, bytes, hlen, hle, hno, hend => by
    have hd := decodeFrame_dec (by omega) (hno 0 (Nat.succ_pos e))
    rw [framesBeforeEnd_of_dec hd, framesBeforeEnd_eq (e := e)]
    · rw [List.length_drop]
      omega
    · omega
    · intro j hj
      rw [getD_flag_drop_frame]
      exact hno (j + 1) (Nat.succ_lt_succ hj)
    · intro he
      rw [getD_flag_drop_frame]
      exact hend (Nat.succ_lt_succ he)

/-- Settles O28: 28 samples for each frame before the end, which the flag bytes alone decide. -/
theorem streamLength : Obligations.StreamLength := by
  intro cfg clip out h
  have hlen : out.length = 28 * framesBeforeEnd (clip.length / 16) clip := framesOf_length _ h
  have hfull : 16 * (clip.length / 16) ≤ clip.length := Nat.mul_div_le _ _
  refine ⟨fun e he hend hno => ?_, fun hno => ?_, hlen, ?_⟩
  · rw [hlen, framesBeforeEnd_eq hfull he.le hno fun _ => hend]
  · rw [hlen, framesBeforeEnd_eq hfull le_rfl hno fun hlt => absurd hlt (lt_irrefl _)]
  · have hle := framesBeforeEnd_le (clip.length / 16) clip
    omega

/-! ### `DEC` (R125, R126, R150) -/

/-- Settles O38: the samples are those of `samplesOf` from the history met, one for each residual. -/
theorem decRunsTwentyEightSamples : Obligations.DecRunsTwentyEightSamples := fun f s p r hp hr =>
  ⟨by simpa using samplesOf_length hr, exec_dec_of_samplesOf hp hr⟩

/-- Settles O39: with the exact domain the samples of a frame always exist. -/
theorem exactDecCompletes : Obligations.ExactDecCompletes := by
  intro f s p he hp
  obtain ⟨r, hr⟩ := samplesOf_exact (shift := f.shift) (pred := clampPred f.pnib) he f.res.toList (s.hist1, s.hist2)
  obtain ⟨hlen, hexec⟩ := decRunsTwentyEightSamples f s p r hp hr
  exact ⟨_, r.2, hexec, hlen, rfl, rfl⟩

/-! ### Predictor 0 (R131, R154) -/

/-- Widening and sign extension give a signed 16-bit value, and the raw value is its shift (R141 to R143). -/
theorem rawValue_eq_shiftRight (n shift : Nib) : rawValue n shift = (widen n).toInt >>> shift.toNat := by
  rw [rawValue, arithShift, BitVec.toInt_sshiftRight, signExtendWide, BitVec.toInt_signExtend_of_le (by omega)]

/-- A raw value is in the range of a sample (R153). -/
theorem rawValue_mem_pcmRange (n shift : Nib) : -32768 ≤ rawValue n shift ∧ rawValue n shift ≤ 32767 := by
  have hlow := BitVec.le_toInt (widen n)
  have hhigh := BitVec.toInt_lt (x := widen n)
  rw [rawValue_eq_shiftRight]
  rcases le_total 0 (widen n).toInt with hpos | hneg
  · have hle := Int.shiftRight_le_of_nonneg (s := shift.toNat) hpos
    have hge := Int.le_shiftRight_of_nonneg (s := shift.toNat) hpos
    omega
  · have hle := Int.shiftRight_le_of_nonpos (s := shift.toNat) hneg
    have hge := Int.le_shiftRight_of_nonpos (s := shift.toNat) hneg
    omega

/-- An integer in the range of a sample is its own output (R147). -/
theorem toPcm_intCast {t : Int} (h : -32768 ≤ t ∧ t ≤ 32767) : toPcm t = BitVec.ofInt 16 t := by
  obtain ⟨hlow, hhigh⟩ := h
  have hmin : ¬ (t : Rat) < (Size.pcmMin : Rat) := not_lt.2 (by exact_mod_cast hlow)
  have hmax : ¬ (Size.pcmMax : Rat) < (t : Rat) := not_lt.2 (by exact_mod_cast hhigh)
  rw [toPcm, clampPcm, if_neg hmin, if_neg hmax]
  simp [truncRat]

/-- With predictor 0 a sample is the raw value, whatever the history and the domain (R154). -/
theorem sampleOf_pred_zero (cfg : Config) (shift n : Nib) (h : NumVal × NumVal) :
    sampleOf cfg shift 0 n h = some ((ofInt (rawValue n shift), h.1), BitVec.ofInt 16 (rawValue n shift)) := by
  have hraw := (plainNum_rawValue cfg.num n shift).1
  have hnew : predict cfg.num (ofInt (rawValue n shift)) h.1 h.2 (cfg.coef 0) = some (ofInt (rawValue n shift)) := by
    rw [coef_zero]
    exact predict_zero_coef _ _ _ _ hraw
  rw [sampleOf, hnew, Option.map_some, value_ofInt, toPcm_intCast (rawValue_mem_pcmRange n shift)]

/-- With predictor 0 the samples are the raw values, and the last two of them the history (R131). -/
theorem samplesOf_pred_zero (cfg : Config) (shift a b : Nib) : ∀ (ns : List Nib) (h : NumVal × NumVal),
    samplesOf cfg shift 0 (ns ++ [a, b]) h =
      some ((ofInt (rawValue b shift), ofInt (rawValue a shift)),
        (ns ++ [a, b]).map fun n => BitVec.ofInt 16 (rawValue n shift))
  | [], h => by simp [samplesOf, sampleOf_pred_zero]
  | n :: ns, h => by simp [samplesOf, sampleOf_pred_zero, samplesOf_pred_zero cfg shift a b ns]

/-- The residuals of a frame, the last two set apart. -/
theorem residuals_eq_append (res : Vector Nib 28) : res.toList = res.toList.take 26 ++ [res[26], res[27]] := by
  have hlast : res.toList.drop 26 = [res[26], res[27]] := by
    rw [List.drop_eq_getElem_cons (by simp), List.drop_eq_getElem_cons (by simp), List.drop_of_length_le (by simp)]
    rfl
  rw [← hlast, List.take_append_drop]

/-- Settles O40: each of the 28 predictions is the raw value itself. -/
theorem predictorZeroFrame : Obligations.PredictorZeroFrame := by
  intro f s p hpnib hp
  have hpred : clampPred f.pnib = 0 := by
    rw [hpnib]
    rfl
  have hr := samplesOf_pred_zero s.cfg f.shift f.res[26] f.res[27] (f.res.toList.take 26) (s.hist1, s.hist2)
  rw [← residuals_eq_append, ← hpred] at hr
  rw [exec_dec_of_samplesOf hp hr, frameDecoded, hpred]
  rfl

/-- Settles O41: a predictor-0 frame whose raw values are all zero. -/
theorem zeroFrame : Obligations.ZeroFrame := by
  intro f s p hpnib hshift _ hres _ _ hp
  have hraw : rawValue 0#4 0#4 = 0 := rfl
  refine ⟨_, predictorZeroFrame f s p hpnib hp, ?_, ?_, ?_⟩ <;> simp [hres, hshift, hraw]

end Sys2Proof.Machine
end

section
/-! ## Rounding to binary64 (R144, R149, R151, R208) -/

namespace Sys2Proof.Machine

/-! ### The nearest integer -/

/-- An integer within one half of a number is nearest to it, and any other one as near is its neighbour across a tie. -/
theorem nearest_of_abs_sub_le_half {y : Rat} {k : Int} (h : |y - k| ≤ 1 / 2) (j : Int) :
    |y - k| ≤ |y - j| ∧ (j ≠ k → |y - j| = |y - k| → |y - k| = 1 / 2 ∧ |k - j| = 1) := by
  rcases eq_or_ne j k with rfl | hne
  · exact ⟨le_rfl, fun hne => absurd rfl hne⟩
  have hgap : (1 : Rat) ≤ |(k : Rat) - j| := by exact_mod_cast Int.one_le_abs (sub_ne_zero.2 hne.symm)
  have htri : |(k : Rat) - j| ≤ |y - k| + |y - j| := by
    rw [abs_sub_comm y k]
    exact abs_sub_le _ _ _
  refine ⟨by linarith, fun _ heq => ⟨by linarith, ?_⟩⟩
  have hone : |(k : Rat) - j| = 1 := by linarith
  exact_mod_cast hone

/-! ### The multiples of the last place -/

/-- The exponent of the last place of the rounding of `q` (R149). -/
def placeOf (q : Rat) : Int := lastPlace q.num.natAbs q.den

/-- The quotient in units of its last place, with its sign. -/
def unitsOf (q : Rat) : Rat := q * (2 : Rat) ^ (-placeOf q)

theorem unitsOf_mul (q : Rat) : unitsOf q * (2 : Rat) ^ placeOf q = q := by
  rw [unitsOf, mul_assoc, ← zpow_add₀ (by norm_num), neg_add_cancel, zpow_zero, mul_one]

theorem abs_unitsOf_mul (q : Rat) : |unitsOf q| * (2 : Rat) ^ placeOf q = |q| := by
  conv_rhs => rw [← unitsOf_mul q]
  rw [abs_mul, abs_of_pos (show (0 : Rat) < (2 : Rat) ^ placeOf q by positivity)]

/-- The quotient of magnitudes that `roundMagnitude` rounds. -/
theorem abs_unitsOf (q : Rat) :
    |unitsOf q| = (q.num.natAbs : Rat) / q.den * (2 : Rat) ^ (-lastPlace q.num.natAbs q.den) := by
  rw [unitsOf, abs_mul, abs_eq_natAbs_div_den, abs_of_pos (by positivity), placeOf]

/-- The distance of a number from a multiple of its last place. -/
theorem abs_sub_mul_place (q : Rat) (j : Int) :
    |q - j * (2 : Rat) ^ placeOf q| = |unitsOf q - j| * (2 : Rat) ^ placeOf q := by
  have hq : q - j * (2 : Rat) ^ placeOf q = (unitsOf q - j) * (2 : Rat) ^ placeOf q := by rw [sub_mul, unitsOf_mul]
  rw [hq, abs_mul, abs_of_pos (show (0 : Rat) < (2 : Rat) ^ placeOf q by positivity)]

/-- What `round64` answers is the nearest multiple of the last place, the even one on a tie (R149). -/
theorem round64_eq_mul_place {q r : Rat} (hq : q ≠ 0) (h : round64 q = some r) :
    ∃ k : Int, r = k * (2 : Rat) ^ placeOf q ∧ |unitsOf q - k| ≤ 1 / 2 ∧ (|unitsOf q - k| = 1 / 2 → Even k) := by
  obtain ⟨m, hm, hnear, hties⟩ := roundMagnitude_spec q.num.natAbs q.den q.den_pos
  rw [← abs_unitsOf] at hnear hties
  have heven : |(|unitsOf q| - m)| = 1 / 2 → Even (m : Int) := fun ht =>
    (Int.even_coe_nat m).2 (Nat.even_iff.2 (hties ht))
  rw [round64_of_ne_zero hq, hm] at h
  split at h
  case isTrue => cases h
  case isFalse =>
  obtain rfl := Option.some.inj h
  split
  case isTrue hneg =>
    have hunits : |unitsOf q| = -unitsOf q := abs_of_neg (mul_neg_of_neg_of_pos hneg (by positivity))
    have hdist : |unitsOf q - (-m : Int)| = |(|unitsOf q| - m)| := by
      rw [hunits, ← abs_neg]
      push_cast
      ring_nf
    exact ⟨-m, by simp [placeOf], hdist ▸ hnear, fun ht => (heven (hdist ▸ ht)).neg⟩
  case isFalse hpos =>
    have hunits : |unitsOf q| = unitsOf q := abs_of_nonneg (mul_nonneg (not_lt.1 hpos) (by positivity))
    rw [hunits] at hnear heven
    exact ⟨m, by simp [placeOf], by simpa using hnear, by simpa using heven⟩

/-- A binary64 value is a multiple of the last place, or it lies below the binade of the number rounded. -/
theorem multiple_or_below_of_binary64Value {q x : Rat} (hq : q ≠ 0) (hx : Binary64Value x) :
    (∃ j : Int, x = j * (2 : Rat) ^ placeOf q) ∨ (|x| < 2 ^ 52 * (2 : Rat) ^ placeOf q ∧ 2 ^ 52 ≤ |unitsOf q|) := by
  obtain ⟨m, e, hm, hlow, -, rfl⟩ := hx
  rcases le_or_gt (placeOf q) e with hle | hlt
  · obtain ⟨k, hk⟩ := Int.eq_ofNat_of_zero_le (show 0 ≤ e - placeOf q by omega)
    refine .inl ⟨m * 2 ^ k, ?_⟩
    obtain rfl : e = k + placeOf q := by omega
    rw [zpow_add₀ (by norm_num), zpow_natCast, ← mul_assoc]
    push_cast
    rfl
  · refine .inr ⟨?_, ?_⟩
    · calc |(m : Rat) * (2 : Rat) ^ e| = (m.natAbs : Rat) * (2 : Rat) ^ e := by
            rw [abs_mul, abs_of_pos (show (0 : Rat) < (2 : Rat) ^ e by positivity), Nat.cast_natAbs, Int.cast_abs]
        _ < ((2 ^ 53 : Nat) : Rat) * (2 : Rat) ^ e := by gcongr
        _ = 2 ^ 52 * (2 : Rat) ^ (e + 1) := by rw [zpow_add₀ (by norm_num)]; push_cast; ring
        _ ≤ 2 ^ 52 * (2 : Rat) ^ placeOf q := by
            gcongr
            · norm_num
            · omega
    · rw [abs_unitsOf]
      exact two_pow_52_le_quotient _ _ (num_natAbs_pos hq) q.den_pos (show placeOf q ≠ -1074 by omega)

/-- A number below the binade of `q` is farther from `q` than the least multiple of the last place in that binade. -/
theorem exists_multiple_nearer_of_below {q x : Rat} (hx : |x| < 2 ^ 52 * (2 : Rat) ^ placeOf q)
    (hq : 2 ^ 52 ≤ |unitsOf q|) : ∃ j : Int, |q - j * (2 : Rat) ^ placeOf q| < |q - x| := by
  have hfar : |q| - |x| ≤ |q - x| := abs_sub_abs_le_abs_sub q x
  obtain ⟨j, hj⟩ : ∃ j : Int, |unitsOf q - j| = |unitsOf q| - 2 ^ 52 := by
    rcases le_total 0 (unitsOf q) with h | h
    · rw [abs_of_nonneg h] at hq ⊢
      exact ⟨2 ^ 52, by push_cast; exact abs_of_nonneg (sub_nonneg.2 hq)⟩
    · rw [abs_of_nonpos h] at hq ⊢
      refine ⟨-2 ^ 52, ?_⟩
      push_cast
      rw [abs_of_nonpos (by linarith)]
      ring
  refine ⟨j, ?_⟩
  rw [abs_sub_mul_place, hj, sub_mul, abs_unitsOf_mul]
  linarith

/-- Settles O53: `round64` answers the nearest multiple of the last place, and the binary64 values that are no such
multiple are farther away. -/
theorem roundsToNearestEven : Obligations.RoundsToNearestEven := by
  intro q r h
  refine ⟨binary64Value_of_round64 h, ?_⟩
  by_cases hq : q = 0
  · subst hq
    obtain rfl : (0 : Rat) = r := by simpa using h
    exact ⟨fun x _ => by simp, fun x _ hne heq => absurd (by simpa using heq) hne⟩
  obtain ⟨k, rfl, hnear, heven⟩ := round64_eq_mul_place hq h
  have hpos : (0 : Rat) < (2 : Rat) ^ placeOf q := by positivity
  have hmultiple (j : Int) : |q - k * (2 : Rat) ^ placeOf q| ≤ |q - j * (2 : Rat) ^ placeOf q| := by
    rw [abs_sub_mul_place, abs_sub_mul_place]
    exact mul_le_mul_of_nonneg_right (nearest_of_abs_sub_le_half hnear j).1 hpos.le
  have hbelow {x : Rat} (hx : |x| < 2 ^ 52 * (2 : Rat) ^ placeOf q ∧ 2 ^ 52 ≤ |unitsOf q|) :
      |q - k * (2 : Rat) ^ placeOf q| < |q - x| := by
    obtain ⟨j, hj⟩ := exists_multiple_nearer_of_below hx.1 hx.2
    exact (hmultiple j).trans_lt hj
  refine ⟨fun x hx => ?_, fun x hx hne heq => ?_⟩
  · rcases multiple_or_below_of_binary64Value hq hx with ⟨j, rfl⟩ | hx
    · exact hmultiple j
    · exact (hbelow hx).le
  · rcases multiple_or_below_of_binary64Value hq hx with ⟨j, rfl⟩ | hx
    · rw [abs_sub_mul_place, abs_sub_mul_place] at heq
      obtain ⟨hhalf, hone⟩ := (nearest_of_abs_sub_le_half hnear j).2 (fun hjk => hne (hjk ▸ rfl))
        (mul_right_cancel₀ hpos.ne' heq)
      obtain ⟨m, rfl⟩ := heven hhalf
      refine ⟨m, placeOf q, by rw [two_mul], ?_⟩
      rw [← sub_mul, abs_mul, abs_of_pos hpos]
      have hone' : |(((m + m : Int) : Rat) - j)| = 1 := by exact_mod_cast hone
      rw [hone', one_mul]
    · exact absurd heq (hbelow hx).ne'

/-! ### Overflow (R208) -/

/-- The exponent of the last place is at least `e` from `2 ^ (52 + e)` on. -/
theorem le_placeOf {q : Rat} {e : Int} (hq : q ≠ 0) (h : (2 : Rat) ^ (52 + e) ≤ |q|) : e ≤ placeOf q := by
  have hlog : 52 + e < floorLog2 q.num.natAbs q.den + 1 := by
    refine (zpow_lt_zpow_iff_right₀ (one_lt_two (α := Rat))).1 (h.trans_lt ?_)
    rw [abs_eq_natAbs_div_den]
    exact (floorLog2_spec _ _ (num_natAbs_pos hq) q.den_pos).2
  exact le_max_of_le_left (by omega)

/-- The exponent of the last place is at most `e` below `2 ^ (53 + e)`. -/
theorem placeOf_le {q : Rat} {e : Int} (hq : q ≠ 0) (he : -1074 ≤ e) (h : |q| < (2 : Rat) ^ (53 + e)) :
    placeOf q ≤ e := by
  have hlog : floorLog2 q.num.natAbs q.den < 53 + e := by
    refine (zpow_lt_zpow_iff_right₀ (one_lt_two (α := Rat))).1 (lt_of_le_of_lt ?_ h)
    rw [abs_eq_natAbs_div_den]
    exact (floorLog2_spec _ _ (num_natAbs_pos hq) q.den_pos).1
  exact max_le (by omega) he

/-- Rounding overflows where the nearest multiple of the last place is from `2 ^ 1024` on. -/
theorem round64_eq_none_iff {q : Rat} (hq : q ≠ 0) :
    ∃ m : Nat, (round64 q = none ↔ (2 : Rat) ^ (1024 : Int) ≤ m * (2 : Rat) ^ placeOf q) ∧
      |(|unitsOf q| - m)| ≤ 1 / 2 ∧ (|(|unitsOf q| - m)| = 1 / 2 → m % 2 = 0) := by
  obtain ⟨m, hm, hspec⟩ := roundMagnitude_spec q.num.natAbs q.den q.den_pos
  rw [← abs_unitsOf] at hspec
  refine ⟨m, ?_, hspec⟩
  rw [round64_of_ne_zero hq, hm, placeOf]
  split
  case isTrue h => exact iff_of_true rfl h
  case isFalse h => exact iff_of_false nofun h

/-- From the midpoint below `2 ^ 53` on the nearest integer, even on a tie, is at least `2 ^ 53`. -/
theorem two_pow_53_le_of_near {u : Rat} {m : Nat} (hnear : |u - m| ≤ 1 / 2) (heven : |u - m| = 1 / 2 → m % 2 = 0)
    (hu : 2 ^ 53 - 1 / 2 ≤ u) : 2 ^ 53 ≤ m := by
  by_contra hlt
  have hm : (m : Rat) ≤ 2 ^ 53 - 1 := by
    have hcast : ((m + 1 : Nat) : Rat) ≤ ((2 ^ 53 : Nat) : Rat) := by exact_mod_cast Nat.succ_le_of_lt (not_le.1 hlt)
    push_cast at hcast
    linarith
  have hle := (abs_le.1 hnear).2
  have htie : u - m = 1 / 2 := by linarith
  have hodd : m = 2 ^ 53 - 1 := by
    have hcast : (m : Rat) = ((2 ^ 53 - 1 : Nat) : Rat) := by
      push_cast
      linarith
    exact_mod_cast hcast
  have := heven (by rw [htie]; norm_num)
  omega

/-- Numbers in units of the last place round up to a binade exactly from the midpoint below it on. -/
theorem binade_le_rounded_iff {q : Rat} {e : Int} {m : Nat} (hq : q ≠ 0) (he : -1074 ≤ e)
    (hnear : |(|unitsOf q| - m)| ≤ 1 / 2) (heven : |(|unitsOf q| - m)| = 1 / 2 → m % 2 = 0) :
    2 ^ 53 * (2 : Rat) ^ e ≤ m * (2 : Rat) ^ placeOf q ↔ (2 ^ 53 - 1 / 2) * (2 : Rat) ^ e ≤ |q| := by
  have habs := abs_unitsOf_mul q
  have hE : (0 : Rat) < (2 : Rat) ^ e := by positivity
  constructor
  · contrapose!
    intro hlt
    have hplace : placeOf q ≤ e := placeOf_le hq he (by rw [zpow_add₀ two_ne_zero]; norm_num; linarith)
    have hpow : (2 : Rat) ^ placeOf q ≤ (2 : Rat) ^ e := zpow_le_zpow_right₀ one_le_two hplace
    calc (m : Rat) * (2 : Rat) ^ placeOf q ≤ (|unitsOf q| + 1 / 2) * (2 : Rat) ^ placeOf q := by
          gcongr
          linarith [(abs_le.1 hnear).1]
      _ < 2 ^ 53 * (2 : Rat) ^ e := by linarith
  · intro hle
    have hplace : e ≤ placeOf q := le_placeOf hq (by rw [zpow_add₀ two_ne_zero]; norm_num; linarith)
    rcases hplace.eq_or_lt with heq | hgt
    · rw [← habs, ← heq] at hle
      have hm := two_pow_53_le_of_near hnear heven (le_of_mul_le_mul_right hle hE)
      rw [← heq]
      gcongr
      exact_mod_cast hm
    · have hfull : ((2 ^ 52 : Nat) : Rat) ≤ |unitsOf q| := by
        rw [abs_unitsOf]
        exact_mod_cast two_pow_52_le_quotient _ _ (num_natAbs_pos hq) q.den_pos (show placeOf q ≠ -1074 by omega)
      have hm := ge_of_near hnear hfull
      calc 2 ^ 53 * (2 : Rat) ^ e = ((2 ^ 52 : Nat) : Rat) * (2 : Rat) ^ (e + 1) := by
            rw [zpow_add₀ two_ne_zero]
            push_cast
            ring
        _ ≤ m * (2 : Rat) ^ placeOf q := by
            gcongr
            · norm_num
            · omega

/-- The midpoint below `2 ^ (54 + k)`, in units of the last place below it. -/
theorem midpoint_below_eq (k : Nat) :
    (2 : Rat) ^ (54 + k) - (2 : Rat) ^ k = (2 ^ 53 - 1 / 2) * (2 : Rat) ^ ((k + 1 : Nat) : Int) := by
  rw [zpow_natCast, pow_add, pow_succ]
  ring

/-- Settles O54: the last place below `2 ^ 1024` is `2 ^ 971`, and the midpoint there rounds up to the even `2 ^ 53`. -/
theorem roundingOverflows : Obligations.RoundingOverflows := by
  intro q
  rw [show (2 : Rat) ^ 1024 - (2 : Rat) ^ 970 = (2 ^ 53 - 1 / 2) * (2 : Rat) ^ (971 : Int) from midpoint_below_eq 970]
  by_cases hq : q = 0
  · subst hq
    rw [round64_zero, abs_zero]
    exact iff_of_false nofun (not_le.2 (mul_pos (by norm_num) (zpow_pos two_pos _)))
  obtain ⟨m, hnone, hnear, heven⟩ := round64_eq_none_iff hq
  have hbinade : (2 : Rat) ^ (1024 : Int) = 2 ^ 53 * (2 : Rat) ^ (971 : Int) := zpow_add₀ two_ne_zero 53 971
  rw [hnone, hbinade, binade_le_rounded_iff hq (by norm_num) hnear heven]

/-! ### Exact values (R144, R151) -/

/-- Settles O55: such an integer has 16 bits at most. -/
theorem numOfIntegerIsExact : Obligations.NumOfIntegerIsExact := by
  intro d t hlo hhi
  cases d with
  | exact => rfl
  | binary64 => exact round64_of_binary64Value ⟨t, 0, by omega, by norm_num, by norm_num, by simp⟩

/-- A product that rounding leaves as it is. -/
theorem exists_mulNum_of_roundNum {d : NumDomain} {a b : NumVal}
    (h : roundNum d (a.value * b.value) = some (a.value * b.value)) :
    ∃ z, mulNum d a b = some z ∧ z.value = a.value * b.value :=
  ⟨_, mulNum_eq_some.2 ⟨_, h, rfl⟩, value_withSign _ _ _⟩

/-- A sum that rounding leaves as it is, the first term not being `-0.0`. -/
theorem addNum_of_roundNum {d : NumDomain} {x : Rat} {b : NumVal} (h : roundNum d (x + b.value) = some (x + b.value)) :
    addNum d (.ofRat x) b = some (.ofRat (x + b.value)) := by
  refine addNum_eq_some.2 ⟨_, h, (withSign_eq_ofRat fun hsum => ?_).symm⟩
  by_contra hneg
  obtain ⟨hx, hb⟩ : x < 0 ∧ b.negative = true := by simpa using hneg
  linarith [value_nonpos_of_negative hb]

/-- Settles O56: each of the four roundings leaves its operand. -/
theorem domainsAgreeWhenRepresentable : Obligations.DomainsAgreeWhenRepresentable := by
  intro raw h1 h2 c hrep
  have hround {x : Rat} (hx : Binary64Value x) : roundNum .binary64 x = some x := round64_of_binary64Value hx
  simp only [List.forall_mem_cons, List.not_mem_nil, false_imp_iff, implies_true, and_true] at hrep
  obtain ⟨hmul0, hadd0, hmul1, hadd1⟩ := hrep
  obtain ⟨p0, e0, v0⟩ := exists_mulNum_of_roundNum (hround hmul0)
  obtain ⟨p1, e1, v1⟩ := exists_mulNum_of_roundNum (hround hmul1)
  rw [← v0] at hadd0 hadd1
  rw [← v1] at hadd1
  rw [predict_exact, value_ofRat, ← v0, ← v1]
  simp only [predict, e0, e1, addNum_of_roundNum (hround hadd0), addNum_of_roundNum (hround hadd1), Option.bind_some]

end Sys2Proof.Machine
end

section
/-! ## The integer front end and the output conversion (R141 to R143, R147, R153) -/

namespace Sys2Proof.Machine

/-! ### The integer front end (R141 to R143, R153) -/

/-- Widening does not wrap (R141). -/
theorem widen_toNat (n : Nib) : (widen n).toNat = n.toNat * 4096 := by
  have := n.isLt
  simp only [widen, Size.widenShift, BitVec.toNat_shiftLeft, BitVec.toNat_setWidth, Nat.shiftLeft_eq]
  omega

/-- Sign extension as an integer (R142). -/
theorem signExtendWide_widen_toInt (n : Nib) :
    (signExtendWide (widen n)).toInt = if n.toNat ≤ 7 then (n.toNat : Int) * 4096 else n.toNat * 4096 - 65536 := by
  rw [signExtendWide, BitVec.toInt_signExtend_of_le (by omega), BitVec.toInt_eq_toNat_cond, widen_toNat]
  split <;> split <;> omega

/-- The sign-extended value is the residual in units of 4096. -/
theorem signExtendWide_widen_toInt_eq_mul (n : Nib) : (signExtendWide (widen n)).toInt = n.toInt * 4096 := by
  rw [signExtendWide_widen_toInt, BitVec.toInt_eq_toNat_cond]
  split <;> split <;> omega

/-- The arithmetic shift is a floored quotient (R143). -/
theorem arithShift_toInt (w : Word32) (shift : Nib) : (arithShift w shift).toInt = w.toInt / 2 ^ shift.toNat := by
  rw [arithShift, BitVec.toInt_sshiftRight, Int.shiftRight_eq_div_pow]
  norm_cast

/-- A shift moves a number toward zero, or toward -1 (R153). -/
theorem arithShift_toInt_bounds {w : Word32} {lo hi : Int} (hlo : lo ≤ w.toInt) (hhi : w.toInt ≤ hi) (hneg : lo ≤ -1)
    (hpos : 0 ≤ hi) (shift : Nib) : lo ≤ (arithShift w shift).toInt ∧ (arithShift w shift).toInt ≤ hi := by
  have hone : (1 : Int) ≤ 2 ^ shift.toNat := one_le_pow₀ (by norm_num)
  rw [arithShift_toInt]
  constructor
  · rw [Int.le_ediv_iff_mul_le (by omega)]
    nlinarith
  · exact Int.ediv_le_of_le_mul (by omega) (by nlinarith)

/-- Settles O45: `12 - SHIFT` of the twelve zero bits below the residual are left while `SHIFT` is at most 12. -/
theorem rawValueIsFlooredQuotient : Obligations.RawValueIsFlooredQuotient := by
  intro n shift
  have hquot : rawValue n shift = (signExtendWide (widen n)).toInt / 2 ^ shift.toNat := arithShift_toInt _ _
  refine ⟨widen_toNat n, signExtendWide_widen_toInt n, hquot, fun hshift => ?_, fun hn => ?_⟩
  · have hpow : (4096 : Int) = 2 ^ (12 - shift.toNat) * 2 ^ shift.toNat := by
      rw [← pow_add, Nat.sub_add_cancel hshift]
      rfl
    rw [hquot, signExtendWide_widen_toInt_eq_mul, hpow, ← mul_assoc, Int.mul_ediv_cancel _ (by positivity)]
  · have hneg : (signExtendWide (widen n)).toInt < 0 := by
      have := n.isLt
      rw [signExtendWide_widen_toInt, if_neg (by omega)]
      omega
    rw [hquot]
    have := Int.ediv_neg_of_neg_of_pos hneg (show (0 : Int) < 2 ^ shift.toNat by positivity)
    omega

/-- A logical shift differs from the arithmetic one exactly at a negative value and a shift that is not 0 (R153). -/
theorem ushiftRight_ne_arithShift_iff (w : Word32) (shift : Nib) :
    w >>> shift.toNat ≠ arithShift w shift ↔ w.toInt < 0 ∧ 0 < shift.toNat := by
  have hmsb : w.msb = true ↔ w.toInt < 0 := BitVec.msb_eq_toInt ▸ decide_eq_true_iff
  constructor
  · intro hne
    refine ⟨hmsb.1 ?_, Nat.pos_of_ne_zero fun h0 => hne ?_⟩
    · by_contra hpos
      exact hne (BitVec.sshiftRight_eq_of_msb_false (by simpa using hpos)).symm
    · rw [arithShift, h0, BitVec.ushiftRight_zero, BitVec.sshiftRight_zero]
  · rintro ⟨hneg, hshift⟩ heq
    have harith : (arithShift w shift).toInt < 0 := by
      rw [arithShift_toInt]
      exact Int.ediv_neg_of_neg_of_pos hneg (by positivity)
    rw [← heq, BitVec.toInt_ushiftRight_of_lt hshift] at harith
    exact absurd harith (not_lt.2 (by positivity))

/-- Settles O46: the bounds of the sign-extended value are kept by the shift. -/
theorem integerRanges : Obligations.IntegerRanges := by
  intro n shift
  have hn := n.isLt
  have hs := signExtendWide_widen_toInt n
  have hlo : -32768 ≤ (signExtendWide (widen n)).toInt := by split at hs <;> omega
  have hhi : (signExtendWide (widen n)).toInt ≤ 28672 := by split at hs <;> omega
  obtain ⟨hrawLo, hrawHi⟩ := arithShift_toInt_bounds hlo hhi (by norm_num) (by norm_num) shift
  exact ⟨widen_toNat n, by rw [widen_toNat]; omega, hlo, hhi, by rw [signExtendWide_widen_toInt_eq_mul]; omega,
    hrawLo, hrawHi, ushiftRight_ne_arithShift_iff _ _⟩

/-! ### The output conversion (R147) -/

theorem clampPcm_of_le {x : Rat} (h : x ≤ -32768) : clampPcm x = ((-32768 : Int) : Rat) := by
  unfold clampPcm
  split
  case isTrue => rfl
  case isFalse hge =>
    obtain rfl : x = ((-32768 : Int) : Rat) := le_antisymm (by exact_mod_cast h) (not_lt.1 hge)
    exact if_neg (by norm_num)

theorem clampPcm_of_ge {x : Rat} (h : 32767 ≤ x) : clampPcm x = ((32767 : Int) : Rat) := by
  have hmin : ¬ x < ((-32768 : Int) : Rat) := not_lt.2 (le_trans (by norm_num) h)
  unfold clampPcm
  rw [if_neg hmin]
  split
  case isTrue => rfl
  case isFalse hle => exact le_antisymm (not_lt.1 hle) (by exact_mod_cast h)

theorem clampPcm_of_mem {x : Rat} (hlo : -32768 < x) (hhi : x < 32767) : clampPcm x = x := by
  have hmin : ¬ x < ((-32768 : Int) : Rat) := not_lt.2 (by exact_mod_cast hlo.le)
  have hmax : ¬ ((32767 : Int) : Rat) < x := not_lt.2 (by exact_mod_cast hhi.le)
  exact (if_neg hmin).trans (if_neg hmax)

/-- Truncation as the floor of a number that is not negative and the ceiling of one that is. -/
theorem truncRat_eq (x : Rat) : truncRat x = if 0 ≤ x then ⌊x⌋ else ⌈x⌉ := by
  split
  case isTrue h => exact truncRat_of_nonneg x h
  case isFalse h => exact truncRat_of_nonpos x (le_of_not_ge h)

@[simp] theorem truncRat_intCast (t : Int) : truncRat t = t := by simp [truncRat]

/-- Truncation keeps the order, so it keeps an integer bound. -/
theorem truncRat_mono {x y : Rat} (h : x ≤ y) : truncRat x ≤ truncRat y := by
  rcases le_total 0 x with hx | hx
  · rw [truncRat_of_nonneg x hx, truncRat_of_nonneg y (hx.trans h)]
    exact Int.floor_le_floor h
  rcases le_total 0 y with hy | hy
  · rw [truncRat_of_nonpos x hx, truncRat_of_nonneg y hy]
    exact (Int.ceil_nonpos.2 hx).trans (Int.floor_nonneg.2 hy)
  · rw [truncRat_of_nonpos x hx, truncRat_of_nonpos y hy]
    exact Int.ceil_le_ceil h

theorem truncRat_le {x : Rat} {t : Int} (h : x ≤ t) : truncRat x ≤ t := truncRat_intCast t ▸ truncRat_mono h

theorem le_truncRat {x : Rat} {t : Int} (h : t ≤ x) : t ≤ truncRat x := truncRat_intCast t ▸ truncRat_mono h

/-- Clamping before truncation is clamping after it (R147). -/
theorem truncRat_clampPcm (x : Rat) : truncRat (clampPcm x) = max (-32768) (min 32767 (truncRat x)) := by
  rcases le_or_gt x (-32768) with hlo | hlo
  · have := truncRat_le (t := -32768) (by exact_mod_cast hlo)
    rw [clampPcm_of_le hlo, truncRat_intCast]
    omega
  rcases le_or_gt 32767 x with hhi | hhi
  · have := le_truncRat (t := 32767) (by exact_mod_cast hhi)
    rw [clampPcm_of_ge hhi, truncRat_intCast]
    omega
  · have := le_truncRat (t := -32768) (by exact_mod_cast hlo.le)
    have := truncRat_le (t := 32767) (by exact_mod_cast hhi.le)
    rw [clampPcm_of_mem hlo hhi]
    omega

/-- A clamped value fits a sample (R147). -/
theorem toPcm_toInt (x : Rat) : (toPcm x).toInt = truncRat (clampPcm x) :=
  BitVec.toInt_ofInt_eq_self (by norm_num) (by rw [truncRat_clampPcm]; omega) (by rw [truncRat_clampPcm]; omega)

/-- Settles O52: below, above and inside the 16-bit range, where truncation is the floor or the ceiling. -/
theorem toPcmClampsAndTruncates : Obligations.ToPcmClampsAndTruncates := by
  refine fun x => ⟨?_, by rw [toPcm_toInt, truncRat_clampPcm]⟩
  rw [toPcm_toInt]
  split
  case isTrue hlo => rw [clampPcm_of_le hlo, truncRat_intCast]
  case isFalse hlo =>
  split
  case isTrue hhi => rw [clampPcm_of_ge hhi, truncRat_intCast]
  case isFalse hhi => rw [clampPcm_of_mem (not_le.1 hlo) (not_le.1 hhi), truncRat_eq]

end Sys2Proof.Machine
end

section
/-! ## The sample operation (R140, R145, R146, R149, R154, R208) -/

namespace Sys2Proof.Machine

/-- A prediction into an open stream completes the sample. -/
theorem sample_of_predict {n : Nib} {s : State} {p : List Sample} {new : NumVal} (hp : s.pcm[s.cidx]? = some p)
    (h : predict s.cfg.num (ofInt (rawValue n s.shift)) s.hist1 s.hist2 (s.cfg.coef s.pred) = some new) :
    sample n s = .next (putSample new (s.pcm.set s.cidx (p ++ [toPcm new.value])) s) := by
  simp [sample, h, appendSample_of_some _ hp]

/-- The numeric fault is raised exactly where there is no finite prediction (R208). -/
theorem sample_eq_nonFiniteHistory_iff (n : Nib) (s : State) :
    sample n s = .fault .nonFiniteHistory ↔
      predict s.cfg.num (ofInt (rawValue n s.shift)) s.hist1 s.hist2 (s.cfg.coef s.pred) = none := by
  rcases sample_cases n s with ⟨hnone, h⟩ | ⟨new, hnew, ⟨_, h⟩ | ⟨p, _, h⟩⟩
  · simp [h, hnone]
  · simp [h, hnew]
  · simp [h, hnew]

/-- Settles O47: the update and the append of `sample`, from the prediction given. -/
theorem smpAdvancesTheFilter : Obligations.SmpAdvancesTheFilter := fun _ _ _ _ hp h => sample_of_predict hp h

/-- Settles O49: entry 0 of the table contributes nothing, and the raw value is within the range of a sample. -/
theorem predictorZeroSample : Obligations.PredictorZeroSample := by
  intro n s p hpred hp
  have hrange := rawValue_mem_pcmRange n s.shift
  have hnew : predict s.cfg.num (ofInt (rawValue n s.shift)) s.hist1 s.hist2 (s.cfg.coef s.pred) =
      some (ofInt (rawValue n s.shift)) := by
    rw [hpred, coef_zero]
    exact predict_zero_coef _ _ _ _ (plainNum_rawValue s.cfg.num n s.shift).1
  refine ⟨?_, BitVec.toInt_ofInt_eq_self (by norm_num) (by omega) (by omega)⟩
  rw [exec_smp, sample_of_predict hp hnew, value_ofInt, toPcm_intCast hrange]
  rfl

/-- The prediction of a sample in the order of R149, from four roundings. -/
theorem predictValue_eq_some {d : NumDomain} {raw h1 h2 c0 c1 p0 a p1 new : Rat} (e0 : roundNum d (h1 * c0) = some p0)
    (ea : roundNum d (raw + p0) = some a) (e1 : roundNum d (h2 * c1) = some p1) (enew : roundNum d (a + p1) = some new) :
    predictValue d raw h1 h2 c0 c1 = some new := by
  simp [predictValue, e0, ea, e1, enew]

/-- There is no prediction exactly where one of the four roundings overflows. -/
theorem predictValue_eq_none_iff {d : NumDomain} {raw h1 h2 c0 c1 : Rat} :
    predictValue d raw h1 h2 c0 c1 = none ↔
      roundNum d (h1 * c0) = none ∨ roundNum d (h2 * c1) = none ∨
      ∃ p0, roundNum d (h1 * c0) = some p0 ∧
        (roundNum d (raw + p0) = none ∨
          ∃ a p1, roundNum d (raw + p0) = some a ∧ roundNum d (h2 * c1) = some p1 ∧ roundNum d (a + p1) = none) := by
  unfold predictValue
  cases roundNum d (h1 * c0) with
  | none => simp
  | some p0 =>
    cases roundNum d (h2 * c1) with
    | none => simp
    | some p1 => cases h : roundNum d (raw + p0) <;> simp [h]

/-- Settles O48: a raw value is not `-0.0`, so the prediction is the number the four roundings give. -/
theorem smpComputesThePrediction : Obligations.SmpComputesThePrediction := by
  intro n s p hp
  have hplain := plainNum_rawValue s.cfg.num n s.shift
  refine ⟨fun hd => ?_, fun hd => ?_⟩
  · exact ⟨_, sample_of_predict hp (by rw [hd]; exact predict_exact _ _ _ _), rfl, rfl, rfl, rfl⟩
  · have hpredict := predict_eq_map_predictValue hplain s.hist1 s.hist2 (s.cfg.coef s.pred)
    rw [hd, value_ofInt] at hpredict
    refine ⟨fun p0 a p1 new e0 ea e1 enew => ?_, ?_⟩
    · rw [predictValue_eq_some (d := .binary64) e0 ea e1 enew, ← hd] at hpredict
      exact sample_of_predict hp hpredict
    · rw [exec_smp, sample_eq_nonFiniteHistory_iff, hd, hpredict, Option.map_eq_none_iff]
      exact predictValue_eq_none_iff

end Sys2Proof.Machine
end

section
/-! ## The reconciler's four cases (R180 to R184) -/

namespace Sys2Proof.Machine

/-- Without any rate every clip takes the default (R182). -/
theorem reconcile_nil {host : HostConfig} (h : host.overrideRate = none) (n : Nat) :
    reconcile host n [] = (List.replicate n host.defaultRate, [.defaultRateUsed]) := by
  simp [reconcile, h]

/-- A table shorter than the clip count is filled up with its last rate (R183). -/
theorem reconcile_of_length_lt {host : HostConfig} {n : Nat} {rates : List (BitVec 16)}
    (h : host.overrideRate = none) (hne : rates ≠ []) (hlt : rates.length < n) :
    reconcile host n rates =
      (rates.map BitVec.toNat ++ List.replicate (n - rates.length) (rates.getLast hne).toNat, [.shortTable]) := by
  simp [reconcile, h, List.getLast?_eq_some_getLast hne, hlt]

/-- A table with a rate for each clip is cut to the clip count (R184). -/
theorem reconcile_of_le_length {host : HostConfig} {n : Nat} {rates : List (BitVec 16)}
    (h : host.overrideRate = none) (hne : rates ≠ []) (hle : n ≤ rates.length) :
    reconcile host n rates = ((rates.take n).map BitVec.toNat, []) := by
  simp [reconcile, h, List.getLast?_eq_some_getLast hne, hle.not_gt]

/-- A list filled up with its last element: the index saturates at the last one. -/
theorem getElem?_append_replicate_getLast {α : Type} {l : List α} (hne : l ≠ []) {i m : Nat} (hi : i < l.length + m) :
    (l ++ List.replicate m (l.getLast hne))[i]? = l[min i (l.length - 1)]? := by
  have hpos := List.length_pos_of_ne_nil hne
  rcases Nat.lt_or_ge i l.length with hlt | hge
  · rw [List.getElem?_append_left hlt, Nat.min_eq_left (by omega)]
  · rw [List.getElem?_append_right hge, List.getElem?_replicate_of_lt (by omega), Nat.min_eq_right (by omega),
      ← List.getLast?_eq_getElem?, List.getLast?_eq_some_getLast hne]

/-- Settles O57: one equation per case, and the filled-up table read with a saturating index. -/
theorem reconcilerCases : Obligations.ReconcilerCases := by
  intro host n rates
  refine ⟨reconcile_length host n rates, fun r hr => reconcile_of_override hr n rates, fun ho hnil => ?_,
    fun ho hne hlt => ?_, fun ho hne hle => reconcile_of_le_length ho hne hle⟩
  · rw [hnil, reconcile_nil ho]
  · rw [reconcile_of_length_lt ho hne hlt]
    refine ⟨rfl, fun i hi => ?_⟩
    rw [← List.map_replicate, ← List.map_append, List.getElem?_map,
      getElem?_append_replicate_getLast hne (by omega)]

end Sys2Proof.Machine
end

section
/-! ## The hd index reader (R172 to R178) -/

namespace Sys2Proof.Machine

/-! ### The scan for the tag -/

/-- The magic tag stands at byte `a` of the hd blob (R173). -/
def TagAt (order : TagOrder) (H : List Byte) (a : Nat) : Prop := (H.drop a).take 4 = tagBytes order

/-- What holds where the scan stands, and at every place 8 bytes and more after it, holds from there on. -/
theorem forall_place_of_next {P : Nat → Prop} {cur k : Nat} (hcur : P (cur + 4))
    (hnext : ∀ j < k, P (cur + 8 + 8 * j + 4)) : ∀ j < k + 1, P (cur + 8 * j + 4)
  | 0, _ => hcur
  | j + 1, hj => by
    have h := hnext j (by omega)
    rwa [show cur + 8 + 8 * j = cur + 8 * (j + 1) by omega] at h

/-- A scan that finds a tag passes over none (R172). -/
theorem hdScan_eq_some {order : TagOrder} {H : List Byte} {fuel cur c : Nat} (h : hdScan order H fuel cur = some c) :
    ∃ k, c = cur + 8 * k + 4 ∧ c + 4 ≤ H.length ∧ TagAt order H c ∧ ∀ j < k, ¬ TagAt order H (cur + 8 * j + 4) := by
  fun_induction hdScan order H fuel cur with
  | case1 cur => cases h
  | case2 fuel cur hroom htag =>
    obtain rfl := Option.some.inj h
    exact ⟨0, rfl, hroom, htag, by simp⟩
  | case3 fuel cur hroom hno ih =>
    obtain ⟨k, hc, hlen, htag, hbefore⟩ := ih h
    exact ⟨k + 1, by omega, hlen, htag, forall_place_of_next (P := fun a => ¬ TagAt order H a) hno hbefore⟩
  | case4 fuel cur hend => cases h

/-- A scan that finds no tag has none at any place within its fuel with 8 bytes from its cursor on (R172, R177). -/
theorem hdScan_eq_none {order : TagOrder} {H : List Byte} {fuel cur : Nat} (h : hdScan order H fuel cur = none) :
    ∀ j < fuel, cur + 8 * j + 4 + 4 ≤ H.length → ¬ TagAt order H (cur + 8 * j + 4) := by
  fun_induction hdScan order H fuel cur with
  | case1 cur => simp
  | case2 fuel cur hroom htag => cases h
  | case3 fuel cur hroom hno ih =>
    exact forall_place_of_next (P := fun a => a + 4 ≤ H.length → ¬ TagAt order H a) (fun _ => hno) (ih h)
  | case4 fuel cur hend =>
    intro j _ hroom
    omega

/-- Settles O58: the scan from 0, whose fuel covers every place with 8 bytes from its cursor on. -/
theorem hdScanFindsFirstTag : Obligations.HdScanFindsFirstTag := by
  refine fun order H => ⟨fun c h => ?_, fun h j hj => ?_⟩
  · obtain ⟨k, rfl, hlen, htag, hbefore⟩ := hdScan_eq_some h
    refine ⟨by omega, hlen, htag, fun j hj => ?_⟩
    have hno := hbefore j (by omega)
    rwa [Nat.zero_add] at hno
  · have hno := hdScan_eq_none h j (by omega) (by omega)
    rwa [Nat.zero_add] at hno

/-! ### The table -/

/-- A table entry that can be read: its offset is not negative, its rate stands at the offset, the other entries follow. -/
theorem hdEntries_succ_eq_some {H : List Byte} {chunkStart count cur : Nat} {rates : List (BitVec 16)}
    (h : hdEntries H chunkStart (count + 1) cur = some rates) :
    ∃ offset rate rest, hdInt32 H cur = some offset ∧ 0 ≤ offset ∧
      hdWord16 H (chunkStart + offset.toNat) = some rate ∧
      hdEntries H chunkStart count (cur + 4) = some rest ∧ rates = rate :: rest := by
  unfold hdEntries at h
  split at h
  case h_1 => cases h
  case h_2 offset hoffset =>
  split at h
  case isTrue => cases h
  case isFalse hnonneg =>
  split at h
  case h_2 => cases h
  case h_1 rate rest hrate hrest =>
  exact ⟨offset, rate, rest, hoffset, not_lt.1 hnonneg, hrate, hrest, (Option.some.inj h).symm⟩

/-- The rates of a readable table: one for each entry, found through the entry's offset (R174, R175). -/
theorem hdEntries_eq_some {H : List Byte} {chunkStart : Nat} : ∀ {count cur : Nat} {rates : List (BitVec 16)},
    hdEntries H chunkStart count cur = some rates →
    rates.length = count ∧ ∀ (e : Nat) (rate : BitVec 16), rates[e]? = some rate →
      ∃ offset : Int, hdInt32 H (cur + 4 * e) = some offset ∧ 0 ≤ offset ∧
        hdWord16 H (chunkStart + offset.toNat) = some rate
  | 0, _, rates, h => by
    obtain rfl : rates = [] := (Option.some.inj h).symm
    simp
  | count + 1, cur, _, h => by
    obtain ⟨offset, rate, rest, hoffset, hnonneg, hrate, hrest, rfl⟩ := hdEntries_succ_eq_some h
    obtain ⟨hlen, hentry⟩ := hdEntries_eq_some hrest
    refine ⟨by rw [List.length_cons, hlen], fun e => ?_⟩
    cases e with
    | zero =>
      intro r hr
      obtain rfl : rate = r := by simpa using hr
      exact ⟨offset, hoffset, hnonneg, hrate⟩
    | succ e =>
      rw [List.getElem?_cons_succ, show cur + 4 * (e + 1) = cur + 4 + 4 * e by omega]
      exact hentry e

/-- A table found: a tag, a `maxIndex` that is not negative, and as many readable entries as it says. -/
theorem readHd_eq_found {order : TagOrder} {H : List Byte} {rates : List (BitVec 16)}
    (h : readHd order H = .found rates) :
    ∃ c maxIndex, hdScan order H (H.length / 8) 0 = some c ∧ hdInt32 H (c + 8) = some maxIndex ∧ 0 ≤ maxIndex ∧
      hdEntries H c (maxIndex.toNat + 1) (c + 12) = some rates := by
  unfold readHd at h
  split at h
  case h_1 => cases h
  case h_2 c hscan =>
  split at h
  case h_1 => cases h
  case h_2 maxIndex hmax =>
  split at h
  case isTrue => cases h
  case isFalse hnonneg =>
  split at h
  case h_2 => cases h
  case h_1 found hentries =>
  exact ⟨c, maxIndex, hscan, hmax, not_lt.1 hnonneg, hentries.trans (congrArg some (HdResult.found.inj h))⟩

/-- Settles O59: the entries of a table found, from 12 bytes after the tag on. -/
theorem hdTableLayout : Obligations.HdTableLayout := by
  intro order H rates h
  obtain ⟨c, maxIndex, hscan, hmax, hnonneg, hentries⟩ := readHd_eq_found h
  obtain ⟨hlen, hentry⟩ := hdEntries_eq_some hentries
  exact ⟨c, maxIndex, hscan, hmax, hnonneg, by omega, hentry⟩

end Sys2Proof.Machine
end

section
/-! ## The stops of `SMP` (R208) -/

namespace Sys2Proof.Machine

/-- Settles O50: the numeric fault comes before the append, and an open stream takes any prediction there is. -/
theorem smpFaultsOnNonFinite : Obligations.SmpFaultsOnNonFinite := by
  refine fun n s => ⟨sample_eq_nonFiniteHistory_iff n s, fun hopen => ?_⟩
  have hstream := List.getElem?_eq_getElem hopen
  exact (sample_completesOrNumericFault hstream n).imp_right And.right

end Sys2Proof.Machine
end
